-- ==== Sys2Proof/Word.lean ====
section
/-! DEFINITION. The word types of HUFFCORE: the widths of spec/00_scope.md R6 and spec/10_state.md R20. -/

namespace Sys2Proof

/-- A byte of IN or OUT, a symbol value, a CODE_LEN entry (R6: 8-bit symbols). -/
abbrev Byte := BitVec 8

/-- A bus word, a command word, a FREQ entry (R6: BUS_W, COUNT_W, LEN_W). -/
abbrev Word := BitVec 32

/-- BIT_LEN and a node weight (R6: BITLEN_W, WEIGHT_W). -/
abbrev Dword := BitVec 64

/-- A CODE_BITS entry (R42). -/
abbrev CodeWord := BitVec 256

/-- A node index, SYM_COUNT and ROOT (R20: 9 bits). -/
abbrev NodeIdx := BitVec 9

/-- A byte offset in the host register space (R70: 22 bits). -/
abbrev Offset := BitVec 22

/-- NONE = 0x1FF, "no node" (R6, R34). -/
abbrev NodeIdx.none : NodeIdx := 0x1FF#9

end Sys2Proof
end

