-- ==== Sys2Proof/Syntax.lean ====
section
/-! DEFINITION. The instructions of HUFFCORE: the ten rows of spec/opcode_table.json (spec/30_encoding.md R100, R101, R104). -/

namespace Sys2Proof

/-- The two registers an instruction word is written to: CMD (format CMD32, R100) and CTRL (format CTRL32, R104). -/
inductive Port where
  | cmd
  | ctrl
  deriving DecidableEq, Repr

/-- One constructor per row of the opcode table. Commands carry no operand fields (R103). -/
inductive Instr where
  /-- OP 0x00 (R121). -/
  | nop
  /-- OP 0x01 (R122). -/
  | clearFreq
  /-- OP 0x02 (R123). -/
  | count
  /-- OP 0x03 (R124 to R127). -/
  | buildTree
  /-- OP 0x04 (R150). -/
  | genCodes
  /-- OP 0x05 (R165). -/
  | encode
  /-- OP 0x06 (R185). -/
  | decode
  /-- OP 0x07 (R205). -/
  | compress
  /-- OP 0x08 (R206). -/
  | decompress
  /-- SOFT_RESET: the CTRL32 word `v` as written, bit 1 set (R249). Its other bits are ignored by the hardware; they are
  kept here so that the encoding has no choice (DESIGN CHOICE, log 12). -/
  | softReset (v : Word)
  deriving DecidableEq, Repr

end Sys2Proof
end

