-- ==== Sys2Proof/WellFormed.lean ====
section
/-! DEFINITION. Which instruction terms stand for a word of the opcode table. -/

namespace Sys2Proof

/-- The one check there is: a CTRL32 word is a SOFT_RESET iff its bit 1 is set (spec/30_encoding.md R104,
spec/70_reset_and_hazards.md R249). The CMD32 commands have no fields (R103), so nothing about them can be ill-formed. -/
def Instr.wellFormed : Instr → Bool
  | .nop | .clearFreq | .count | .buildTree | .genCodes | .encode | .decode | .compress | .decompress => true
  | .softReset v => v.getLsbD 1

end Sys2Proof
end

