-- ==== Sys2Proof/Decode.lean ====
section
/-! DEFINITION. The decoder (total, rejecting by name) and the encoder, both from spec/30_encoding.md R100 to R104. -/

namespace Sys2Proof

/-- Why a word written to CMD or CTRL is no instruction. -/
inductive Reject where
  /-- CMD32 with bits 31:8 nonzero (R100, R102). -/
  | mbzNotZero
  /-- CMD32 with OP in 0x09..0xFF (R102). -/
  | unassignedOpcode
  /-- CTRL32 with bit 1 clear: a plain CTRL write, no instruction (R104). -/
  | noSoftReset
  deriving DecidableEq, Repr

/-- The CMD32 decoder: first bits 31:8, then OP in bits 7:0 (R100, R101, and the order of spec/40_tree_builder.md R120). -/
def decodeCmd (v : Word) : Except Reject Instr :=
  if v.extractLsb' 8 24 ≠ 0 then .error .mbzNotZero
  else
    match (v.extractLsb' 0 8).toNat with
    | 0 => .ok .nop
    | 1 => .ok .clearFreq
    | 2 => .ok .count
    | 3 => .ok .buildTree
    | 4 => .ok .genCodes
    | 5 => .ok .encode
    | 6 => .ok .decode
    | 7 => .ok .compress
    | 8 => .ok .decompress
    | _ => .error .unassignedOpcode

/-- The CTRL32 decoder: SOFT_RESET iff bit 1 is set (R104). -/
def decodeCtrl (v : Word) : Except Reject Instr :=
  if v.getLsbD 1 then .ok (.softReset v) else .error .noSoftReset

/-- The instruction a word is when it is written to the port `p`. -/
def decodeWord (p : Port) (v : Word) : Except Reject Instr :=
  match p with
  | .cmd => decodeCmd v
  | .ctrl => decodeCtrl v

/-- The port and the word of an instruction (R101's table, R104). -/
def encode : Instr → Port × Word
  | .nop => (.cmd, 0x00000000#32)
  | .clearFreq => (.cmd, 0x00000001#32)
  | .count => (.cmd, 0x00000002#32)
  | .buildTree => (.cmd, 0x00000003#32)
  | .genCodes => (.cmd, 0x00000004#32)
  | .encode => (.cmd, 0x00000005#32)
  | .decode => (.cmd, 0x00000006#32)
  | .compress => (.cmd, 0x00000007#32)
  | .decompress => (.cmd, 0x00000008#32)
  | .softReset v => (.ctrl, v)

/-- The row of the opcode table an instruction belongs to: port, mask and match word (R101, R104). -/
def tableRow : Instr → Port × Word × Word
  | .nop => (.cmd, 0xFFFFFFFF#32, 0x00000000#32)
  | .clearFreq => (.cmd, 0xFFFFFFFF#32, 0x00000001#32)
  | .count => (.cmd, 0xFFFFFFFF#32, 0x00000002#32)
  | .buildTree => (.cmd, 0xFFFFFFFF#32, 0x00000003#32)
  | .genCodes => (.cmd, 0xFFFFFFFF#32, 0x00000004#32)
  | .encode => (.cmd, 0xFFFFFFFF#32, 0x00000005#32)
  | .decode => (.cmd, 0xFFFFFFFF#32, 0x00000006#32)
  | .compress => (.cmd, 0xFFFFFFFF#32, 0x00000007#32)
  | .decompress => (.cmd, 0xFFFFFFFF#32, 0x00000008#32)
  | .softReset _ => (.ctrl, 0x00000002#32, 0x00000002#32)

/-- `some i` where the decoding gives an instruction. -/
def decoded (r : Except Reject Instr) : Option Instr :=
  match r with
  | .ok i => some i
  | .error _ => none

/-- Which port a word of the opcode table's numbering is meant for. The table has two formats over the same 32 bits, so
the word 0x00000002 is both COUNT (written to CMD) and SOFT_RESET (written to CTRL). A full word (32 bits) is read as a
CMD32 word where it is a legal one, else as a CTRL32 word where bit 1 is set, else as an (illegal) CMD32 word; where the
table fixes fewer bits than 32 (only the row of SOFT_RESET does), the CTRL32 reading comes first. DESIGN CHOICE, log 10. -/
def tablePort (nbits : Nat) (v : Word) : Port :=
  match decodeCmd v with
  | .ok _ => if nbits < 32 && v.getLsbD 1 then .ctrl else .cmd
  | .error _ => if v.getLsbD 1 then .ctrl else .cmd

/-- The instruction the decoder reads from a word in the opcode table's numbering (log 10). Nothing is wider than one
32-bit word (R100), so a number of more than 32 bits is refused. -/
def decodeTableWord (nbits w : Nat) : Option Instr :=
  if w < 2 ^ 32 then decoded (decodeWord (tablePort nbits (BitVec.ofNat 32 w)) (BitVec.ofNat 32 w))
  else none

end Sys2Proof
end

