-- ==== Sys2Proof/Config.lean ====
section
/-! DEFINITION. What an instance of HUFFCORE fixes (spec/00_scope.md R6), and the free values: what the spec calls
`arbitrary()` (spec/00_scope.md R8, spec/93_implementation_defined.md I13 to I16) and the platform's parameters (I23, I24). -/

namespace Sys2Proof

/-- The OPEN parameters of R6. State holds them, so that a statement over all states is a statement over all instances
(log 2). -/
structure Config where
  /-- IN_BYTES, the size of the input buffer. -/
  inBytes : Nat
  /-- OUT_BYTES, the size of the output buffer. -/
  outBytes : Nat
  deriving DecidableEq, Repr

/-- The reference values of R6. -/
def Config.reference : Config := { inBytes := 65536, outBytes := 65536 }

/-- The range R6 gives each parameter: a multiple of 4 in 4..2^20. -/
def Config.sizeOk (n : Nat) : Bool := n % 4 == 0 && 4 ≤ n && n ≤ 2 ^ 20

/-- Both parameters are in their range. -/
def Config.wf (c : Config) : Bool := Config.sizeOk c.inBytes && Config.sizeOk c.outBytes

/-- FREE VALUE. Byte `i` of a buffer's contents at its draw number `d`, until that byte is written: the power-on contents
of IN and OUT (spec/70_reset_and_hazards.md R248), and OUT after a stream error (spec/60_exceptions.md R219). Logs 4, 5. -/
opaque Config.freeByte (d i : Nat) : Byte

/-- FREE VALUE. The word that draw number `d` gives a read while busy of a location of the set W
(spec/20_memory.md R93). Log 6. -/
opaque Config.freeWord (d : Nat) : Word

/-- HC_BASE, the platform's base address (spec/20_memory.md R70, I23). Log 3. -/
opaque Config.hcBase : Nat

/-- HC_IRQ_LINE, the platform's interrupt routing (spec/60_exceptions.md R221, I24). Log 3. -/
opaque Config.hcIrqLine : Nat

/-- The offset HUFFCORE sees of a platform byte address: the platform decodes HC_BASE, and bits above bit 21 of the
offset are not seen (R70, R72). -/
def Config.offsetOf (addr : Nat) : Option Offset :=
  if Config.hcBase ≤ addr ∧ addr < Config.hcBase + 2 ^ 22 then some (BitVec.ofNat 22 (addr - Config.hcBase)) else none

end Sys2Proof
end

