-- ==== Sys2Proof/Machine/State.lean ====
section
/-! DEFINITION. The state of HUFFCORE, whole: the tuple of spec/10_state.md R20, and the model's own fields, which are
named as such. Plain data. -/

namespace Sys2Proof.Machine

/-- One slot of the node store (spec/10_state.md R39). -/
structure Node where
  valid : Bool
  leaf : Bool
  sym : Byte
  left : NodeIdx
  right : NodeIdx
  weight : Dword
  deriving DecidableEq, Repr

/-- An invalid slot has all fields 0 (R39, spec/40_tree_builder.md R124). -/
def Node.invalid : Node := { valid := false, leaf := false, sym := 0, left := 0, right := 0, weight := 0 }

/-- A table with one entry per symbol value: FREQ, CODE_LEN, CODE_BITS (R37, R41, R42). -/
abbrev SymTable (α : Type) := Vector α 256

/-- NODE[0..511] (R39). -/
abbrev NodeStore := Vector Node 512

/-- The fields of STATUS (spec/10_state.md R27). The reserved bits read 0 and ignore writes, so they are no state. -/
structure Status where
  busy : Bool
  done : Bool
  err : Bool
  trunc : Bool
  treeValid : Bool
  codesValid : Bool
  haz : Bool
  errCode : Byte
  deriving DecidableEq, Repr

/-- STATUS at reset: 0 (spec/70_reset_and_hazards.md R246). -/
def Status.reset : Status :=
  { busy := false, done := false, err := false, trunc := false, treeValid := false, codesValid := false, haz := false
    errCode := 0x00#8 }

/-- A byte buffer, IN or OUT (R43, R44): the bytes written since the buffer's contents were last drawn, as (index, byte)
pairs with indices strictly rising; a byte with no entry reads as the free value `Config.freeByte draw index` (log 4). -/
structure Memory where
  /-- The model's own: which draw an unwritten byte shows. -/
  draw : Nat
  cells : List Host.Cell
  deriving DecidableEq, Repr

/-- The error codes of spec/60_exceptions.md R217 (NONE is the absence of one). -/
inductive ErrCode where
  | illegalCmd
  | lenRange
  | noTree
  | noCodes
  | symAbsent
  | outOverflow
  | bitLenRange
  | badPath
  | emptyTree
  deriving DecidableEq, Repr

/-- What can happen next: a HOST step (spec/20_memory.md R72), the CORE step (spec/40_tree_builder.md R120), or the input
event RESET (spec/70_reset_and_hazards.md R245). The model's own: which of them comes next is held in State (log 1). -/
inductive Event where
  | read (off : Offset)
  | write (off : Offset) (v : Word)
  | core
  | reset
  deriving DecidableEq, Repr

/-- Everything the spec gives the machine (R20), field by field, and the model's own fields below the line. -/
structure State where
  /-- CTRL.IRQ_EN (R26). -/
  irqEn : Bool
  /-- STATUS (R27). -/
  status : Status
  /-- CMD, the last accepted command word (R29). -/
  cmd : Word
  /-- IN_LEN (R30). -/
  inLen : Word
  /-- OUT_LEN (R31). -/
  outLen : Word
  /-- BIT_LEN (R32). -/
  bitLen : Dword
  /-- SYM_COUNT (R33). -/
  symCount : NodeIdx
  /-- ROOT (R34). -/
  root : NodeIdx
  /-- FREQ (R37). -/
  freq : SymTable Word
  /-- CODE_LEN (R41). -/
  codeLen : SymTable Byte
  /-- CODE_BITS (R42). -/
  codeBits : SymTable CodeWord
  /-- NODE (R39). -/
  nodes : NodeStore
  /-- IN (R43). -/
  inBuf : Memory
  /-- OUT (R44). -/
  outBuf : Memory
  /-- The model's own: the parameters of this instance (R6, log 2). -/
  cfg : Config
  /-- The model's own: the events to come, the next one first (log 1). -/
  inputs : List Event
  /-- The model's own: what the last HOST read returned (R72, log 8). -/
  readData : Option Word
  /-- The model's own: how many draws of `arbitrary()` have been made (log 7). -/
  draws : Nat
  deriving DecidableEq, Repr

/-- Why the machine stops. HUFFCORE itself has no traps (spec/60_exceptions.md R220) and no rule stops it. -/
inductive Fault where
  /-- Raised by GEN_CODES alone, where the walk of spec/41_code_generator.md R150 does not end because NODE holds a cycle.
  No state a run from reset reaches has one. Safe: the model stops where the rule gives no end (log 9). -/
  | walkNeverEnds
  deriving DecidableEq, Repr

/-- Why an instruction has no meaning. -/
inductive Refusal where
  /-- Raised by no arm: every instruction has its meaning. Safe. -/
  | notModelled (mnemonic : String)
  deriving DecidableEq, Repr

/-- The machine right after RESET (spec/70_reset_and_hazards.md R246 to R248): the registers and tables at the values the
spec gives, IN and OUT at their power-on draws. The last four fields are the model's own (logs 1, 2, 7, 8). -/
def State.reset : State :=
  { irqEn := false
    status := Status.reset
    cmd := 0x00000000#32
    inLen := 0#32
    outLen := 0#32
    bitLen := 0#64
    symCount := 0#9
    root := NodeIdx.none
    freq := Vector.replicate 256 0#32
    codeLen := Vector.replicate 256 0#8
    codeBits := Vector.replicate 256 0#256
    nodes := Vector.replicate 512 Node.invalid
    inBuf := { draw := 0, cells := [] }
    outBuf := { draw := 1, cells := [] }
    cfg := Config.reference
    inputs := []
    readData := none
    draws := 2 }

end Sys2Proof.Machine
end

