-- ==== Sys2Proof/Machine/Ops.lean ====
section
/-! DEFINITION. The shared operations: reading and writing the buffers and tables, ending a command with success or with an
error (spec/60_exceptions.md R215, R216), what a stream error loses (R219), and the HOST's acknowledgement (R220). -/

namespace Sys2Proof.Machine

/-- `(x + 7) div 8` (spec/00_scope.md R7). -/
def ceil8 (x : Nat) : Nat := (x + 7) / 8

/-! Buffers (spec/10_state.md R43, R44). -/

/-- The byte written at index `i`, if one was. -/
def Memory.lookup : List Host.Cell → Nat → Option Byte
  | [], _ => none
  | (a, b) :: rest, i => if i = a then some b else Memory.lookup rest i

/-- The list with byte `b` at index `i`, the indices kept strictly rising. -/
def Memory.insert : List Host.Cell → Nat → Byte → List Host.Cell
  | [], i, b => [(i, b)]
  | (a, c) :: rest, i, b =>
    if i < a then (i, b) :: (a, c) :: rest
    else if i = a then (i, b) :: rest
    else (a, c) :: Memory.insert rest i b

/-- What a byte reads as where nothing was written since the last draw: any value, stable (R248, R219; log 4). -/
def Memory.unlisted (m : Memory) (i : Nat) : Byte := Config.freeByte m.draw i

/-- MemRead(BUF, i, 1) (spec/00_scope.md R8). -/
def Memory.read (m : Memory) (i : Nat) : Byte := (Memory.lookup m.cells i).getD (m.unlisted i)

/-- MemWrite(BUF, i, 1, b) (R8). -/
def Memory.write (m : Memory) (i : Nat) (b : Byte) : Memory := { m with cells := Memory.insert m.cells i b }

/-- MemWrite of consecutive bytes, the first at index `i`. -/
def Memory.writeBytes (m : Memory) (i : Nat) : List Byte → Memory
  | [] => m
  | b :: rest => (m.write i b).writeBytes (i + 1) rest

/-- A buffer with all its bytes drawn anew, by draw number `d` (R248, R219). -/
def Memory.drawn (d : Nat) : Memory := { draw := d, cells := [] }

/-- Indices strictly rising, the first above `lo`. -/
def Memory.risingFrom (lo : Nat) : List Host.Cell → Bool
  | [] => true
  | (a, _) :: rest => lo ≤ a && Memory.risingFrom (a + 1) rest

/-- The canonical form of a buffer of `size` bytes: indices strictly rising and below `size`. -/
def Memory.wf (size : Nat) (m : Memory) : Bool :=
  Memory.risingFrom 0 m.cells && m.cells.all fun c => c.1 < size

/-! Tables (R37, R39, R41, R42). -/

/-- The entry of symbol `b`. -/
def SymTable.at {α : Type} (t : SymTable α) (b : Byte) : α := t[b.toNat]'b.isLt

/-- The table with the entry of symbol `b` replaced. -/
def SymTable.put {α : Type} (t : SymTable α) (b : Byte) (x : α) : SymTable α := t.set b.toNat x b.isLt

/-- NODE[i]; every 9-bit index has a slot. -/
def NodeStore.at (st : NodeStore) (i : Nat) : Node := st[i]?.getD Node.invalid

/-- NODE[i] <- nd. -/
def NodeStore.put (st : NodeStore) (i : Nat) (nd : Node) : NodeStore := st.setIfInBounds i nd

/-- NODE with every slot invalid (R124, R247). -/
def NodeStore.empty : NodeStore := Vector.replicate 512 Node.invalid

/-! The end of a command. -/

/-- The value of ERRCODE (R217). -/
def ErrCode.code : ErrCode → Byte
  | .illegalCmd => 0x01#8
  | .lenRange => 0x02#8
  | .noTree => 0x03#8
  | .noCodes => 0x04#8
  | .symAbsent => 0x05#8
  | .outOverflow => 0x06#8
  | .bitLenRange => 0x07#8
  | .badPath => 0x08#8
  | .emptyTree => 0x09#8

/-- `complete()`: successful completion (R215). -/
def State.complete (s : State) : State :=
  { s with status := { s.status with busy := false, done := true, err := false, errCode := 0x00#8 } }

/-- `raise CmdError(code)`: error completion, the only exception HUFFCORE has (R216, R217). It saves nothing and transfers
no control (R220). -/
def State.raise (s : State) (c : ErrCode) : State :=
  { s with status := { s.status with busy := false, done := true, err := true, errCode := c.code, trunc := false } }

/-- What stands for the return from an error (R220), and the acknowledgement of a completion: a HOST write of `v` to
STATUS clears each of DONE, ERR and HAZ whose bit in `v` is 1 (R28). -/
def State.acknowledge (s : State) (v : Word) : State :=
  { s with status := { s.status with
      done := s.status.done && !v.getLsbD 1
      err := s.status.err && !v.getLsbD 2
      haz := s.status.haz && !v.getLsbD 6 } }

/-- An accepted CMD write (R29). -/
def State.accept (s : State) (v : Word) : State :=
  { s with
    cmd := v
    status := { s.status with busy := true, done := false, err := false, trunc := false, errCode := 0x00#8 } }

/-- A dropped write: sets HAZ and nothing else (spec/70_reset_and_hazards.md R251). -/
def State.dropped (s : State) : State := { s with status := { s.status with haz := true } }

/-- Every byte of OUT holds a new `arbitrary()` (R219; log 5). -/
def State.loseOut (s : State) : State := { s with outBuf := Memory.drawn s.draws, draws := s.draws + 1 }

/-- What an ENCODE stream error leaves besides STATUS (R219). -/
def State.loseEncode (s : State) : State := { s.loseOut with bitLen := 0#64, outLen := 0#32 }

/-- What a DECODE stream error leaves besides STATUS (R219). -/
def State.loseDecode (s : State) : State := { s.loseOut with outLen := 0#32 }

/-! Phases: a command's body without its end, so that a compound command can run several (spec/44_compound.md R205). -/

/-- How a body ends: at its `complete()`, at a `raise CmdError`, or (GEN_CODES on a store that is no tree) not at all. -/
inductive Phase where
  | done (s : State)
  | error (c : ErrCode) (s : State)
  | endless
  deriving DecidableEq, Repr

/-- The next phase runs where this one ended with success; a raise in any phase ends the whole command (R205). -/
def Phase.andThen (p : Phase) (f : State → Phase) : Phase :=
  match p with
  | .done s => f s
  | .error c s => .error c s
  | .endless => .endless

/-- The end of the command: `complete()` or `raise CmdError(code)`, exactly one (R120). -/
def Phase.finish (p : Phase) : Host.Outcome State Fault Refusal :=
  match p with
  | .done s => .next s.complete
  | .error c s => .next (s.raise c)
  | .endless => .fault .walkNeverEnds

end Sys2Proof.Machine
end

