-- ==== Sys2Proof/Machine/Flags.lean ====
section
/-! DEFINITION. Every flag computation: the STATUS word (spec/10_state.md R27), the valid flags (R45), and IRQ (R48). -/

namespace Sys2Proof.Machine

/-- The STATUS word as a HOST read sees it: ERRCODE in bits 15:8, then a reserved 0, HAZ, CODES_VALID, TREE_VALID, TRUNC,
ERR, DONE and BUSY in bits 7 down to 0 (R27). -/
def Status.word (st : Status) : Word :=
  0#16 ++ st.errCode ++ 0#1 ++ BitVec.ofBool st.haz ++ BitVec.ofBool st.codesValid ++ BitVec.ofBool st.treeValid ++
    BitVec.ofBool st.trunc ++ BitVec.ofBool st.err ++ BitVec.ofBool st.done ++ BitVec.ofBool st.busy

/-- The CTRL word as a HOST read sees it: zext_32(IRQ_EN) (R26). -/
def State.ctrlWord (s : State) : Word := (BitVec.ofBool s.irqEn).setWidth 32

/-- A change of FREQ: neither the tree nor the codes match it any more (R37, R45, spec/40_tree_builder.md R122, R123). -/
def Status.freqChanged (st : Status) : Status := { st with treeValid := false, codesValid := false }

/-- A tree was built from FREQ (spec/40_tree_builder.md R127). -/
def Status.treeBuilt (st : Status) : Status := { st with treeValid := true, codesValid := false }

/-- Codes were made from the tree (spec/41_code_generator.md R150). -/
def Status.codesMade (st : Status) : Status := { st with codesValid := true }

/-- What a successful DECODE does to TRUNC (spec/43_decoder.md R190). -/
def Status.truncated (st : Status) (b : Bool) : Status := { st with trunc := b }

/-- The IRQ output: a level, computed from state (R48, spec/60_exceptions.md R221). -/
def State.irq (s : State) : Bool := s.irqEn && s.status.done

/-- The level of the platform's interrupt line `n`, of which HUFFCORE drives HC_IRQ_LINE alone (R221, log 3). -/
def State.irqAt (s : State) (n : Nat) : Bool := n == Config.hcIrqLine && s.irq

end Sys2Proof.Machine
end

