-- ==== Sys2Proof/Machine/Operands.lean ====
section
/-! DEFINITION. How a command reaches its operands (spec/30_encoding.md R103): bytes and stream bits of the buffers
(spec/20_memory.md R84), code bits (spec/10_state.md R42), and the packing of bytes into bus words (R77). -/

namespace Sys2Proof.Machine

/-- IN[0..IN_LEN-1], in order (R43). -/
def State.inputBytes (s : State) : List Byte := (List.range s.inLen.toNat).map s.inBuf.read

/-- Stream bit `k` of a buffer: bit `7 - (k mod 8)` of byte `k div 8` (R84). -/
def Memory.streamBit (m : Memory) (k : Nat) : Bool := (m.read (k / 8)).getLsbD (7 - k % 8)

/-- OutBit(k) <- b: the other bits of the byte unchanged (R84). -/
def Memory.setStreamBit (m : Memory) (k : Nat) (b : Bool) : Memory :=
  let mask : Byte := BitVec.twoPow 8 (7 - k % 8)
  m.write (k / 8) (if b then m.read (k / 8) ||| mask else m.read (k / 8) &&& ~~~mask)

/-- Stream bits 0 .. n-1 of a buffer (spec/43_decoder.md R186). -/
def Memory.stream (m : Memory) (n : Nat) : List Bool := (List.range n).map m.streamBit

/-- The `len` code bits of an entry, the first one (nearest the root) first: bit `len - 1 - j` is code bit j (R42, R165). -/
def codeBitList (bits : CodeWord) (len : Nat) : List Bool :=
  (List.range len).map fun j => bits.getLsbD (len - 1 - j)

/-- A byte from its eight bits, the first bit the most significant (R84). -/
def byteOfBits (f : Nat → Bool) : Byte :=
  BitVec.ofBool (f 0) ++ BitVec.ofBool (f 1) ++ BitVec.ofBool (f 2) ++ BitVec.ofBool (f 3) ++
    BitVec.ofBool (f 4) ++ BitVec.ofBool (f 5) ++ BitVec.ofBool (f 6) ++ BitVec.ofBool (f 7)

/-- A bit stream packed into bytes, MSB first, the last byte padded with zeros (spec/42_bit_packer.md R166). Every bit of
every byte is given, so no bit of a buffer's old contents matters (log 15). -/
def packBytes (bits : List Bool) : List Byte :=
  (List.range (ceil8 bits.length)).map fun k => byteOfBits fun j => bits.getD (8 * k + j) false

/-- The present ones among the symbols from `k` on, whose counts are given (spec/40_tree_builder.md R124's loop). -/
def presentFrom : List Word → Nat → List Byte
  | [], _ => []
  | c :: rest, k => if c = 0#32 then presentFrom rest (k + 1) else BitVec.ofNat 8 k :: presentFrom rest (k + 1)

/-- The present symbols, ascending (R9, R38). -/
def presentSymbols (freq : SymTable Word) : List Byte := presentFrom freq.toList 0

/-- The bus word of four bytes, the first in bits 7:0 (R77). -/
def wordOfBytes (b0 b1 b2 b3 : Byte) : Word := b3 ++ b2 ++ b1 ++ b0

/-- Byte `m` of a bus word: bits [8m+7 : 8m] (R77). -/
def byteOfWord (v : Word) (m : Nat) : Byte := v.extractLsb' (8 * m) 8

/-- The bus word of a buffer at byte index `i` (R82, R83). -/
def Memory.readWord (m : Memory) (i : Nat) : Word :=
  wordOfBytes (m.read i) (m.read (i + 1)) (m.read (i + 2)) (m.read (i + 3))

/-- A bus word written to a buffer at byte index `i` (R82). -/
def Memory.writeWord (m : Memory) (i : Nat) (v : Word) : Memory :=
  m.writeBytes i [byteOfWord v 0, byteOfWord v 1, byteOfWord v 2, byteOfWord v 3]

/-- The INFO word of a slot (R39): valid, leaf, four zero bits, right, left, sym. -/
def Node.info (nd : Node) : Word :=
  BitVec.ofBool nd.valid ++ BitVec.ofBool nd.leaf ++ 0#4 ++ nd.right ++ nd.left ++ nd.sym

end Sys2Proof.Machine
end

