-- ==== Sys2Proof/Machine/Bus.lean ====
section
/-! DEFINITION. The host register space: the address map (spec/20_memory.md R71), what a read returns (R24 to R36 of
spec/10_state.md, R75 to R83), the set W (R93), and what a write does (R26 to R37, R76, R251). -/

namespace Sys2Proof.Machine

/-- What a bus word is, one name per kind of location of R71. -/
inductive Loc where
  | id
  | version
  | ctrl
  | status
  | cmd
  | inLen
  | outLen
  | bitLenLo
  | bitLenHi
  | symCount
  | root
  | capIn
  | capOut
  | freq (b : Byte)
  | codeLen (b : Byte)
  | codeBits (b : Byte) (w : Nat)
  | node (i : Nat) (k : Nat)
  | inWord (i : Nat)
  | outWord (i : Nat)
  /-- Reserved, unmapped, or beyond the end of a buffer (R75, R82, R83). -/
  | reserved
  deriving DecidableEq, Repr

/-- The offset with bits 1:0 ignored (R73). -/
def alignedOffset (off : Offset) : Nat := off.toNat / 4 * 4

/-- The control registers at 0x000 .. 0x030 (spec/10_state.md R23). -/
def controlLoc (o : Nat) : Loc :=
  match o / 4 with
  | 0 => .id
  | 1 => .version
  | 2 => .ctrl
  | 3 => .status
  | 4 => .cmd
  | 5 => .inLen
  | 6 => .outLen
  | 7 => .bitLenLo
  | 8 => .bitLenHi
  | 9 => .symCount
  | 10 => .root
  | 11 => .capIn
  | 12 => .capOut
  | _ => .reserved

/-- The address map (R71). -/
def locOf (c : Config) (off : Offset) : Loc :=
  let o := alignedOffset off
  if o < 0x400 then controlLoc o
  else if o < 0x800 then .freq (BitVec.ofNat 8 ((o - 0x400) / 4))
  else if o < 0xC00 then .codeLen (BitVec.ofNat 8 ((o - 0x800) / 4))
  else if o < 0x2000 then .reserved
  else if o < 0x4000 then .codeBits (BitVec.ofNat 8 ((o - 0x2000) / 32)) ((o - 0x2000) % 32 / 4)
  else if o < 0x6000 then .node ((o - 0x4000) / 16) ((o - 0x4000) % 16 / 4)
  else if o < 0x100000 then .reserved
  else if o < 0x200000 then (if o - 0x100000 < c.inBytes then .inWord (o - 0x100000) else .reserved)
  else if o < 0x300000 then (if o - 0x200000 < c.outBytes then .outWord (o - 0x200000) else .reserved)
  else .reserved

/-- Word `k` of a NODE slot (R39, R80). -/
def Node.word (nd : Node) (k : Nat) : Word :=
  if nd.valid then
    match k with
    | 0 => nd.weight.extractLsb' 0 32
    | 1 => nd.weight.extractLsb' 32 32
    | 2 => nd.info
    | _ => 0#32
  else 0#32

/-- What the location holds: the value an idle read returns, and a busy read of a location outside W. -/
def State.wordAt (s : State) : Loc → Word
  | .id => 0x00465048#32
  | .version => 0x00010000#32
  | .ctrl => s.ctrlWord
  | .status => s.status.word
  | .cmd => s.cmd
  | .inLen => s.inLen
  | .outLen => s.outLen
  | .bitLenLo => s.bitLen.extractLsb' 0 32
  | .bitLenHi => s.bitLen.extractLsb' 32 32
  | .symCount => s.symCount.setWidth 32
  | .root => s.root.setWidth 32
  | .capIn => BitVec.ofNat 32 s.cfg.inBytes
  | .capOut => BitVec.ofNat 32 s.cfg.outBytes
  | .freq b => SymTable.at s.freq b
  | .codeLen b => (SymTable.at s.codeLen b).setWidth 32
  | .codeBits b w => (SymTable.at s.codeBits b).extractLsb' (32 * w) 32
  | .node i k => (NodeStore.at s.nodes i).word k
  | .inWord i => s.inBuf.readWord i
  | .outWord i => s.outBuf.readWord i
  | .reserved => 0#32

/-- The set W: the locations a command may write (R93). The fourth word of a NODE slot is reserved and reads 0 (R39, I19;
log 18), so no command writes it. -/
def Loc.inW : Loc → Bool
  | .outLen | .bitLenLo | .bitLenHi | .symCount | .root | .freq _ | .codeLen _ | .codeBits _ _ | .outWord _ => true
  | .node _ k => k < 3
  | .id | .version | .ctrl | .status | .cmd | .inLen | .capIn | .capOut | .inWord _ | .reserved => false

/-- HostRead(off): the exact value, or a fresh `arbitrary()` for a location of W while busy (R72, R93; log 6). It changes
nothing but the model's record of the read (R85). -/
def State.hostRead (s : State) (off : Offset) : State :=
  if s.status.busy && (locOf s.cfg off).inW then { s with readData := some (Config.freeWord s.draws), draws := s.draws + 1 }
  else { s with readData := some (s.wordAt (locOf s.cfg off)) }

/-- The BIT_LEN register with its low word replaced (spec/10_state.md R32). -/
def bitLenWithLo (x : Dword) (v : Word) : Dword := x.extractLsb' 32 32 ++ v

/-- The BIT_LEN register with its high word replaced (R32). -/
def bitLenWithHi (x : Dword) (v : Word) : Dword := v ++ x.extractLsb' 0 32

/-- The locations whose write is dropped while busy, setting HAZ (R251). CTRL's bit 1 is SOFT_RESET's own. -/
def Loc.heldWhileBusy : Loc → Bool
  | .cmd | .inLen | .bitLenLo | .bitLenHi | .freq _ | .inWord _ => true
  | .id | .version | .ctrl | .status | .outLen | .symCount | .root | .capIn | .capOut | .codeLen _ | .codeBits _ _
  | .node _ _ | .outWord _ | .reserved => false

/-- What an accepted write of `v` does to a location: R26, R28, R29, R30, R32, R37, R82; a write to anything else is
ignored (R75, R76). -/
def State.writeLoc (s : State) (v : Word) : Loc → State
  | .ctrl => { s with irqEn := v.getLsbD 0 }
  | .status => s.acknowledge v
  | .cmd => s.accept v
  | .inLen => { s with inLen := v }
  | .bitLenLo => { s with bitLen := bitLenWithLo s.bitLen v }
  | .bitLenHi => { s with bitLen := bitLenWithHi s.bitLen v }
  | .freq b => { s with freq := SymTable.put s.freq b v, status := s.status.freqChanged }
  | .inWord i => { s with inBuf := s.inBuf.writeWord i v }
  | .id | .version | .outLen | .symCount | .root | .capIn | .capOut | .codeLen _ | .codeBits _ _ | .node _ _ | .outWord _
  | .reserved => s

/-- HostWrite(off, v), other than SOFT_RESET: dropped with HAZ where R251 says so, else done. -/
def State.plainWrite (s : State) (off : Offset) (v : Word) : State :=
  if s.status.busy && (locOf s.cfg off).heldWhileBusy then s.dropped else s.writeLoc v (locOf s.cfg off)

end Sys2Proof.Machine
end

