-- ==== Sys2Proof/Machine/TreeBuilder.lean ====
section
/-! DEFINITION. BUILD_TREE (spec/40_tree_builder.md R124 to R127). -/

namespace Sys2Proof.Machine

/-- The leaf of symbol `b` with count `c` (R124). -/
def Node.ofLeaf (b : Byte) (c : Word) : Node :=
  { valid := true, leaf := true, sym := b, left := NodeIdx.none, right := NodeIdx.none, weight := c.setWidth 64 }

/-- The parent of slots `a` (left, code bit 0) and `b` (right, code bit 1), its weight the sum of theirs (R125, R126). -/
def Node.ofChildren (st : NodeStore) (a b : Nat) : Node :=
  { valid := true, leaf := false, sym := 0#8, left := BitVec.ofNat 9 a, right := BitVec.ofNat 9 b
    weight := (NodeStore.at st a).weight + (NodeStore.at st b).weight }

/-- Leaves for the symbols `bs` in turn, the first in slot `i`. -/
def placeLeaves (freq : SymTable Word) (st : NodeStore) (i : Nat) : List Byte → NodeStore
  | [] => st
  | b :: rest => placeLeaves freq (NodeStore.put st i (Node.ofLeaf b (SymTable.at freq b))) (i + 1) rest

/-- The selection key order: weight first, then index (R125). -/
def keyLess (st : NodeStore) (i j : Nat) : Bool :=
  (NodeStore.at st i).weight < (NodeStore.at st j).weight ||
    ((NodeStore.at st i).weight == (NodeStore.at st j).weight && i < j)

/-- The index with the smallest key (R125); none where there is no index. -/
def argmin (st : NodeStore) : List Nat → Option Nat
  | [] => none
  | i :: rest =>
    match argmin st rest with
    | none => some i
    | some j => if keyLess st j i then some j else some i

/-- The local variables of the merge loop: the node store, `active` and `next` (R125, spec/10_state.md R47). -/
structure Merge where
  nodes : NodeStore
  active : List Nat
  next : Nat

/-- One iteration of the merge loop; none where `active` has fewer than two elements (R125). -/
def Merge.iterate (m : Merge) : Option Merge :=
  match argmin m.nodes m.active with
  | none => none
  | some a =>
    match argmin m.nodes (m.active.erase a) with
    | none => none
    | some b =>
      some
        { nodes := NodeStore.put m.nodes m.next (Node.ofChildren m.nodes a b)
          active := ((m.active.erase a).erase b) ++ [m.next]
          next := m.next + 1 }

/-- The merge loop. It runs max(n-1, 0) times, so `n` rounds of fuel are enough (R125). -/
def Merge.loop : Nat → Merge → Merge
  | 0, m => m
  | k + 1, m =>
    match m.iterate with
    | none => m
    | some m' => Merge.loop k m'

/-- What BUILD_TREE leaves: NODE, SYM_COUNT and ROOT. -/
structure Tree where
  nodes : NodeStore
  symCount : NodeIdx
  root : NodeIdx
  deriving DecidableEq, Repr

/-- The tree of a frequency table: a function of FREQ alone (R129). Stage 1 places the leaves and clears every other slot
(R124), stage 2 merges (R125), stage 3 reads off SYM_COUNT and ROOT (R127). -/
def treeOf (freq : SymTable Word) : Tree :=
  let present := presentSymbols freq
  let n := present.length
  let m := Merge.loop n
    { nodes := placeLeaves freq NodeStore.empty 0 present, active := List.range n, next := n }
  { nodes := m.nodes
    symCount := BitVec.ofNat 9 n
    root :=
      match m.active with
      | [] => NodeIdx.none
      | r :: _ => BitVec.ofNat 9 r }

/-- The tree State holds. -/
def State.tree (s : State) : Tree := { nodes := s.nodes, symCount := s.symCount, root := s.root }

/-- The state with the tree `t` in NODE, SYM_COUNT and ROOT. -/
def State.setTree (s : State) (t : Tree) : State := { s with nodes := t.nodes, symCount := t.symCount, root := t.root }

/-- The body of BUILD_TREE (R124 to R127). -/
def buildTreeBody (s : State) : Phase :=
  .done { s.setTree (treeOf s.freq) with status := s.status.treeBuilt }

/-- BUILD_TREE: never fails (R124). -/
def execBuildTree (s : State) : Host.Outcome State Fault Refusal := (buildTreeBody s).finish

end Sys2Proof.Machine
end

