-- ==== Sys2Proof/Machine/CodeGenerator.lean ====
section
/-! DEFINITION. GEN_CODES (spec/41_code_generator.md R150 to R152). -/

namespace Sys2Proof.Machine

/-- What the walk writes at a leaf: its symbol, and the length and the bits of the path to it (R150). -/
structure LeafCode where
  sym : Byte
  len : Nat
  bits : Nat
  deriving DecidableEq, Repr

/-- The leaves below slot `i` in pre-order, '0' descending left and '1' descending right (R150). A path of more than 512
slots visits one twice, and then the walk of R150 does not end: none (log 9). -/
def walk (nodes : NodeStore) : Nat → NodeIdx → Nat → Nat → Option (List LeafCode)
  | 0, _, _, _ => none
  | fuel + 1, i, len, bits =>
    if (NodeStore.at nodes i.toNat).leaf then some [{ sym := (NodeStore.at nodes i.toNat).sym, len := len, bits := bits }]
    else
      match walk nodes fuel (NodeStore.at nodes i.toNat).left (len + 1) (2 * bits),
        walk nodes fuel (NodeStore.at nodes i.toNat).right (len + 1) (2 * bits + 1) with
      | some l, some r => some (l ++ r)
      | _, _ => none

/-- CODE_LEN and CODE_BITS. -/
structure CodeTable where
  len : SymTable Byte
  bits : SymTable CodeWord
  deriving DecidableEq, Repr

/-- No code for any symbol (R150, R152). -/
def CodeTable.empty : CodeTable := { len := Vector.replicate 256 0#8, bits := Vector.replicate 256 0#256 }

/-- CODE_LEN[sym] <- len; CODE_BITS[sym] <- zext_256(bits) (R150). -/
def CodeTable.enter (t : CodeTable) (c : LeafCode) : CodeTable :=
  { len := SymTable.put t.len c.sym (BitVec.ofNat 8 c.len), bits := SymTable.put t.bits c.sym (BitVec.ofNat 256 c.bits) }

/-- The code table of a tree: empty for n = 0 (R152), the one-bit code "0" for n = 1 (R151), the walk's for n >= 2 (R150). -/
def codesOf (t : Tree) : Option CodeTable :=
  if t.symCount.toNat = 0 then some CodeTable.empty
  else if t.symCount.toNat = 1 then
    some (CodeTable.empty.enter { sym := (NodeStore.at t.nodes t.root.toNat).sym, len := 1, bits := 0 })
  else
    match walk t.nodes 512 t.root 0 0 with
    | none => none
    | some leaves => some (leaves.foldl CodeTable.enter CodeTable.empty)

/-- The code table State holds. -/
def State.codes (s : State) : CodeTable := { len := s.codeLen, bits := s.codeBits }

/-- The body of GEN_CODES (R150). -/
def genCodesBody (s : State) : Phase :=
  if !s.status.treeValid then .error .noTree s
  else
    match codesOf s.tree with
    | none => .endless
    | some t => .done { s with codeLen := t.len, codeBits := t.bits, status := s.status.codesMade }

/-- GEN_CODES: derives the code table from the tree (R150). -/
def execGenCodes (s : State) : Host.Outcome State Fault Refusal := (genCodesBody s).finish

end Sys2Proof.Machine
end

