-- ==== Sys2Proof/Machine/BitPacker.lean ====
section
/-! DEFINITION. ENCODE (spec/42_bit_packer.md R165 to R170). -/

namespace Sys2Proof.Machine

/-- The stream of the bytes, `b` bits having been emitted before them; at each byte SYM_ABSENT is checked before
OUT_OVERFLOW (R165, R168). -/
def emitCodes (t : CodeTable) (outBytes : Nat) : List Byte → Nat → Except ErrCode (List Bool)
  | [], _ => .ok []
  | c :: rest, b =>
    if (SymTable.at t.len c).toNat = 0 then .error .symAbsent
    else if outBytes < ceil8 (b + (SymTable.at t.len c).toNat) then .error .outOverflow
    else
      match emitCodes t outBytes rest (b + (SymTable.at t.len c).toNat) with
      | .error e => .error e
      | .ok bits => .ok (codeBitList (SymTable.at t.bits c) (SymTable.at t.len c).toNat ++ bits)

/-- OUT, BIT_LEN and OUT_LEN after a successful ENCODE with the stream `bits` (R166, R167, R170). -/
def State.storePayload (s : State) (bits : List Bool) : State :=
  { s with
    outBuf := s.outBuf.writeBytes 0 (packBytes bits)
    bitLen := BitVec.ofNat 64 bits.length
    outLen := BitVec.ofNat 32 (ceil8 bits.length) }

/-- The body of ENCODE (R165): NO_CODES, LEN_RANGE, then the stream errors with what they lose (R219). -/
def encodeBody (s : State) : Phase :=
  if !s.status.codesValid then .error .noCodes s
  else if s.cfg.inBytes < s.inLen.toNat then .error .lenRange s
  else
    match emitCodes s.codes s.cfg.outBytes s.inputBytes 0 with
    | .error e => .error e s.loseEncode
    | .ok bits => .done (s.storePayload bits)

/-- ENCODE: serializes the codes of the input into a payload (R165). -/
def execEncode (s : State) : Host.Outcome State Fault Refusal := (encodeBody s).finish

end Sys2Proof.Machine
end

