-- ==== Sys2Proof/Machine/Counter.lean ====
section
/-! DEFINITION. NOP, CLEAR_FREQ and COUNT (spec/40_tree_builder.md R121 to R123). -/

namespace Sys2Proof.Machine

/-- NOP: does nothing and completes (R121). -/
def execNop (s : State) : Host.Outcome State Fault Refusal := (Phase.done s).finish

/-- The empty frequency table (R122, R247). -/
def freqZero : SymTable Word := Vector.replicate 256 0#32

/-- CLEAR_FREQ: empties the frequency table and invalidates tree and codes (R122). -/
def execClearFreq (s : State) : Host.Outcome State Fault Refusal :=
  (Phase.done { s with freq := freqZero, status := s.status.freqChanged }).finish

/-- The frequency table of a byte string: FREQ[b] <- FREQ[b] + 1 for each byte in turn, from all zeros (R123). -/
def countBytes (bs : List Byte) : SymTable Word :=
  bs.foldl (fun f b => SymTable.put f b (SymTable.at f b + 1#32)) freqZero

/-- The body of COUNT (R123). -/
def countBody (s : State) : Phase :=
  if s.cfg.inBytes < s.inLen.toNat then .error .lenRange s
  else .done { s with freq := countBytes s.inputBytes, status := s.status.freqChanged }

/-- COUNT: the frequency analysis of the input buffer (R123). -/
def execCount (s : State) : Host.Outcome State Fault Refusal := (countBody s).finish

end Sys2Proof.Machine
end

