-- ==== Sys2Proof/Machine/Decoder.lean ====
section
/-! DEFINITION. DECODE (spec/43_decoder.md R185 to R192). -/

namespace Sys2Proof.Machine

/-- What the decoder loop leaves: the emitted bytes in order, and the cursor. -/
structure Decoded where
  bytes : List Byte
  node : NodeIdx
  deriving DecidableEq, Repr

/-- One more byte in front. -/
def Decoded.cons (b : Byte) (r : Except ErrCode Decoded) : Except ErrCode Decoded :=
  match r with
  | .error e => .error e
  | .ok d => .ok { d with bytes := b :: d.bytes }

/-- The child a stream bit leads to: 0 left, 1 right (R187). -/
def NodeStore.child (st : NodeStore) (i : NodeIdx) (bit : Bool) : NodeIdx :=
  if bit then (NodeStore.at st i.toNat).right else (NodeStore.at st i.toNat).left

/-- The decoder loop over the stream bits to come: the cursor is at `node`, and `m` bytes have been emitted (R185). For
n = 1 a bit 1 is BAD_PATH, before any emission (R188, spec/60_exceptions.md R218); for n >= 2 the cursor walks (R187). -/
def decodeBits (t : Tree) (outBytes : Nat) : List Bool → NodeIdx → Nat → Except ErrCode Decoded
  | [], node, _ => .ok { bytes := [], node := node }
  | bit :: rest, node, m =>
    if t.symCount.toNat = 1 then
      if bit then .error .badPath
      else if m = outBytes then .error .outOverflow
      else Decoded.cons (NodeStore.at t.nodes t.root.toNat).sym (decodeBits t outBytes rest node (m + 1))
    else if (NodeStore.at t.nodes (NodeStore.child t.nodes node bit).toNat).leaf then
      if m = outBytes then .error .outOverflow
      else
        Decoded.cons (NodeStore.at t.nodes (NodeStore.child t.nodes node bit).toNat).sym
          (decodeBits t outBytes rest t.root (m + 1))
    else decodeBits t outBytes rest (NodeStore.child t.nodes node bit) m

/-- OUT, OUT_LEN and TRUNC after a successful DECODE (R190, R191). -/
def State.storeDecoded (s : State) (d : Decoded) : State :=
  { s with
    outBuf := s.outBuf.writeBytes 0 d.bytes
    outLen := BitVec.ofNat 32 d.bytes.length
    status := s.status.truncated (2 ≤ s.symCount.toNat && d.node != s.root) }

/-- The body of DECODE (R185): NO_TREE, LEN_RANGE, BITLEN_RANGE, EMPTY_TREE, then the stream errors with what they lose
(R219). The empty tree decodes the empty stream alone (R189; TRUNC, log 14). -/
def decodeBody (s : State) : Phase :=
  if !s.status.treeValid then .error .noTree s
  else if s.cfg.inBytes < s.inLen.toNat then .error .lenRange s
  else if 8 * s.inLen.toNat < s.bitLen.toNat then .error .bitLenRange s
  else if s.symCount.toNat = 0 then
    if s.bitLen.toNat = 0 then .done { s with outLen := 0#32, status := s.status.truncated false }
    else .error .emptyTree s
  else
    match decodeBits s.tree s.cfg.outBytes (s.inBuf.stream s.bitLen.toNat) s.root 0 with
    | .error e => .error e s.loseDecode
    | .ok d => .done (s.storeDecoded d)

/-- DECODE: turns a payload back into bytes (R185). -/
def execDecode (s : State) : Host.Outcome State Fault Refusal := (decodeBody s).finish

end Sys2Proof.Machine
end

