-- ==== Sys2Proof/Machine/Compound.lean ====
section
/-! DEFINITION. COMPRESS and DECOMPRESS (spec/44_compound.md R205, R206): the bodies of the commands they are made of, in
one CORE step. -/

namespace Sys2Proof.Machine

/-- COMPRESS: COUNT, BUILD_TREE, GEN_CODES, ENCODE; the first raise ends it (R205). -/
def execCompress (s : State) : Host.Outcome State Fault Refusal :=
  ((((countBody s).andThen buildTreeBody).andThen genCodesBody).andThen encodeBody).finish

/-- DECOMPRESS: BUILD_TREE, DECODE (R206). -/
def execDecompress (s : State) : Host.Outcome State Fault Refusal := ((buildTreeBody s).andThen decodeBody).finish

end Sys2Proof.Machine
end

