-- ==== Sys2Proof/Machine/System.lean ====
section
/-! DEFINITION. SOFT_RESET and the RESET event (spec/70_reset_and_hazards.md R245 to R249). -/

namespace Sys2Proof.Machine

/-- The registers and tables at their reset values (R246, R247); IN, OUT and the model's own fields as they stand. -/
def State.softReset (s : State) : State :=
  { State.reset with
    inBuf := s.inBuf
    outBuf := s.outBuf
    cfg := s.cfg
    inputs := s.inputs
    readData := s.readData
    draws := s.draws }

/-- RESET: as the soft reset, also while busy, and every byte of IN and of OUT is drawn anew (R245, R248; logs 4, 16). -/
def State.powerOn (s : State) : State :=
  { s.softReset with
    inBuf := Memory.drawn s.draws
    outBuf := Memory.drawn (s.draws + 1)
    draws := s.draws + 2 }

/-- SOFT_RESET: performed while idle; dropped whole, with HAZ set, while busy (R249, R251, spec/10_state.md R26). The
word's other bits are ignored. -/
def execSoftReset (_v : Word) (s : State) : Host.Outcome State Fault Refusal :=
  if s.status.busy then .next s.dropped else .next s.softReset

end Sys2Proof.Machine
end

