-- ==== Sys2Proof/Machine/Agents.lean ====
section
/-! DEFINITION. The agents' steps (spec/00_scope.md R5): the CORE step, the HOST's write, and what one event does. -/

namespace Sys2Proof.Machine

/-- CoreStep: the whole command in CMD; a word that is no command completes with ILLEGAL_CMD and changes nothing else
(spec/40_tree_builder.md R120, spec/30_encoding.md R102). -/
def coreStep (s : State) : Host.Outcome State Fault Refusal :=
  match decodeCmd s.cmd with
  | .ok i => exec i s
  | .error _ => .next (s.raise .illegalCmd)

/-- The instruction a HOST write is, if it is one: SOFT_RESET, where the write goes to CTRL and the word says so (R104). -/
def writtenInstr (c : Config) (off : Offset) (v : Word) : Option Instr :=
  if locOf c off = .ctrl then decoded (decodeCtrl v) else none

/-- HostWrite(off, v): SOFT_RESET, or a plain write (R72, R104). -/
def hostWrite (off : Offset) (v : Word) (s : State) : Host.Outcome State Fault Refusal :=
  match writtenInstr s.cfg off v with
  | some i => exec i s
  | none => .next (s.plainWrite off v)

/-- The CORE step where it is enabled, that is, while BUSY = 1; else nothing (R120, spec/60_exceptions.md R229). -/
def coreTurn (s : State) : Host.Outcome State Fault Refusal :=
  if s.status.busy then coreStep s else .next s

/-- What one event does. -/
def handle (e : Event) (s : State) : Host.Outcome State Fault Refusal :=
  match e with
  | .read off => .next (s.hostRead off)
  | .write off v => hostWrite off v s
  | .core => coreTurn s
  | .reset => .next s.powerOn

/-- The offsets of CTRL and CMD (spec/10_state.md R23). -/
def ctrlOffset : Offset := 0x008#22
def cmdOffset : Offset := 0x010#22

/-- The state in which the very next step runs the word `w` of the opcode table's numbering: a command word stands in CMD,
accepted and not yet complete (R22, R29), and the CORE step comes next; a SOFT_RESET word is the HOST's next access, a
write to CTRL, with no command pending (logs 10, 11). -/
def State.placeWord (s : State) (nbits w : Nat) : State :=
  match tablePort nbits (BitVec.ofNat 32 w) with
  | .cmd => { s.accept (BitVec.ofNat 32 w) with inputs := .core :: s.inputs }
  | .ctrl =>
    { s with
      status := { s.status with busy := false }
      inputs := .write ctrlOffset (BitVec.ofNat 32 w) :: s.inputs }

end Sys2Proof.Machine
end

