-- ==== Sys2Proof/Machine/Step.lean ====
section
/-! DEFINITION. One step of the whole machine: the next event, or, where no event is left, the CORE's turn. -/

namespace Sys2Proof.Machine

/-- The next event of `inputs` happens. Where the HOST issues nothing more, a busy CORE takes its step (weak fairness,
spec/70_reset_and_hazards.md R257) and an idle block does nothing (spec/60_exceptions.md R229). Log 1. -/
def step (s : State) : Host.Outcome State Fault Refusal :=
  match s.inputs with
  | [] => coreTurn s
  | e :: rest => handle e { s with inputs := rest }

/-- The state in which the very next step runs the instruction word `w` (log 11). -/
def State.withFetchWord (s : State) (nbits w : Nat) : State := s.placeWord nbits w

end Sys2Proof.Machine
end

