-- ==== Sys2Proof/Machine/HostProgram.lean ====
section
/-! DEFINITION. The HOST program notation (spec/30_encoding.md R106, R107): each pseudo-instruction as the events it stands
for. Where its accesses carry values it has read (MOVEOUT), they are those of the idle state it starts in (log 20). -/

namespace Sys2Proof.Machine

/-- The register offsets the pseudo-instructions use (spec/10_state.md R23). -/
def statusOffset : Offset := 0x00C#22
def inLenOffset : Offset := 0x014#22
def outLenOffset : Offset := 0x018#22
def bitLenLoOffset : Offset := 0x01C#22
def bitLenHiOffset : Offset := 0x020#22
def freqOffset (b : Byte) : Offset := BitVec.ofNat 22 (0x400 + 4 * b.toNat)
def inWordOffset (j : Nat) : Offset := BitVec.ofNat 22 (0x100000 + 4 * j)
def outWordOffset (j : Nat) : Offset := BitVec.ofNat 22 (0x200000 + 4 * j)

/-- The pseudo-instructions of R107. `polls` is how often WAIT finds BUSY = 1 before the CORE step is taken; the spec puts
no bound on it (spec/20_memory.md R94). -/
inductive Pseudo where
  | cmd (m : Word)
  | wait (polls : Nat)
  | ack
  | run (m : Word) (polls : Nat)
  | loadIn (bytes : List Byte)
  | setFreq (b : Byte) (v : Word)
  | setBitLen (v : Dword)
  | moveOut
  | softReset
  deriving DecidableEq, Repr

/-- The number of bus words `n` bytes take: the j with 4j < n (R107). -/
def wordCount (n : Nat) : Nat := (n + 3) / 4

/-- `CMD m` (R107). -/
def cmdEvents (m : Word) : List Event := [.write cmdOffset m]

/-- `WAIT`: STATUS reads until one finds BUSY = 0 (R107). -/
def waitEvents (polls : Nat) : List Event := List.replicate polls (.read statusOffset) ++ [.core, .read statusOffset]

/-- `LOADIN`: the bytes in words, past the end 0x00, then IN_LEN (R107). -/
def loadInEvents (bytes : List Byte) : List Event :=
  ((List.range (wordCount bytes.length)).map fun j =>
    .write (inWordOffset j)
      (wordOfBytes (bytes.getD (4 * j) 0#8) (bytes.getD (4 * j + 1) 0#8) (bytes.getD (4 * j + 2) 0#8)
        (bytes.getD (4 * j + 3) 0#8))) ++
    [.write inLenOffset (BitVec.ofNat 32 bytes.length)]

/-- `MOVEOUT`: OUT_LEN is read, each word of OUT is read and written to IN, then IN_LEN is written (R107, and
spec/70_reset_and_hazards.md R254). -/
def moveOutEvents (s : State) : List Event :=
  .read outLenOffset ::
    ((List.range (wordCount s.outLen.toNat)).flatMap fun j =>
      [.read (outWordOffset j), .write (inWordOffset j) (s.wordAt (locOf s.cfg (outWordOffset j)))]) ++
    [.write inLenOffset s.outLen]

/-- The events of a pseudo-instruction that starts in the state `s`. -/
def Pseudo.events (s : State) : Pseudo → List Event
  | .cmd m => cmdEvents m
  | .wait polls => waitEvents polls
  | .ack => [.write statusOffset 0x00000046#32]
  | .run m polls => cmdEvents m ++ waitEvents polls
  | .loadIn bytes => loadInEvents bytes
  | .setFreq b v => [.write (freqOffset b) v]
  | .setBitLen v => [.write bitLenLoOffset (v.extractLsb' 0 32), .write bitLenHiOffset (v.extractLsb' 32 32)]
  | .moveOut => moveOutEvents s
  | .softReset => [.write ctrlOffset 0x00000002#32]

end Sys2Proof.Machine
end

