-- ==== Sys2Proof/Safety.lean ====
section
/-! DEFINITION. The terms claims use: the invariants of every run, and what the spec's prose names without a command doing
it (a path in the tree, the code of a symbol, what a bus access reads or leaves). -/

namespace Sys2Proof.Machine

/-! Invariants. -/

/-- The parameters are in their range (spec/00_scope.md R6) and IN and OUT are in canonical form (log 4). -/
def State.buffersOk (s : State) : Bool :=
  s.cfg.wf && s.inBuf.wf s.cfg.inBytes && s.outBuf.wf s.cfg.outBytes

/-- The draws IN and OUT show were made, and are two different ones (log 7). -/
def State.drawsOk (s : State) : Bool :=
  s.inBuf.draw < s.draws && s.outBuf.draw < s.draws && s.inBuf.draw != s.outBuf.draw

/-- CODES_VALID implies TREE_VALID (spec/10_state.md R45); while busy the completion flags are clear (R29, R46); an error
has a code, and TRUNC means success (R190); no reserved code is reported (spec/60_exceptions.md R217). -/
def Status.ok (st : Status) : Bool :=
  (!st.codesValid || st.treeValid) &&
    (!st.busy || (!st.done && !st.err && !st.trunc && st.errCode == 0x00#8)) &&
    (!st.err || st.errCode != 0x00#8) && (!st.trunc || (!st.err && st.errCode == 0x00#8)) && st.errCode ≤ 0x09#8

/-- TREE_VALID = 1 means NODE, SYM_COUNT and ROOT hold the tree of FREQ as FREQ now stands (R45). -/
def State.treeOk (s : State) : Prop := s.status.treeValid = true → s.tree = treeOf s.freq

/-- CODES_VALID = 1 means CODE_LEN and CODE_BITS hold the codes of that tree (R45). -/
def State.codesOk (s : State) : Prop := s.status.codesValid = true → codesOf s.tree = some s.codes

/-- NODE[511] is always invalid, bit 255 of a CODE_BITS entry is always 0, SYM_COUNT is at most 256 (R20), and ROOT is
NONE or 2n-2 (R34). -/
def State.storeOk (s : State) : Prop :=
  NodeStore.at s.nodes 511 = Node.invalid ∧ (∀ b, (SymTable.at s.codeBits b).getLsbD 255 = false) ∧
    s.symCount.toNat ≤ 256 ∧
    s.root = if s.symCount.toNat = 0 then NodeIdx.none else BitVec.ofNat 9 (2 * s.symCount.toNat - 2)

/-! Paths and codes. -/

/-- The slot a path of stream bits leads to from slot `i` (spec/43_decoder.md R187). -/
def pathFrom (st : NodeStore) (i : NodeIdx) (p : List Bool) : NodeIdx := p.foldl (NodeStore.child st) i

/-- After each nonempty beginning of `p` shorter than `n` bits the cursor is at an internal node. -/
def StaysInside (st : NodeStore) (i : NodeIdx) (p : List Bool) (n : Nat) : Prop :=
  ∀ k, 0 < k → k < n → k ≤ p.length → (NodeStore.at st (pathFrom st i (p.take k)).toNat).leaf = false

/-- `p` leads from slot `i` to a leaf of symbol `b`, and to no leaf before its end. -/
def LeadsToLeaf (st : NodeStore) (i : NodeIdx) (p : List Bool) (b : Byte) : Prop :=
  p ≠ [] ∧ StaysInside st i p p.length ∧ (NodeStore.at st (pathFrom st i p).toNat).leaf = true ∧
    (NodeStore.at st (pathFrom st i p).toNat).sym = b

/-- The code of a symbol in a code table, as bits (spec/10_state.md R42). -/
def CodeTable.codeOf (t : CodeTable) (b : Byte) : List Bool :=
  codeBitList (SymTable.at t.bits b) (SymTable.at t.len b).toNat

/-- The codes of the bytes, one after another (spec/42_bit_packer.md R166). -/
def CodeTable.streamOf (t : CodeTable) (bs : List Byte) : List Bool := bs.flatMap t.codeOf

/-- The sum of a frequency table (spec/40_tree_builder.md R123, R129). -/
def freqTotal (f : SymTable Word) : Nat :=
  ((List.range 256).map fun k => (SymTable.at f (BitVec.ofNat 8 k)).toNat).sum

/-- The number of present symbols, n (spec/00_scope.md R9). -/
def presentCount (f : SymTable Word) : Nat := (presentSymbols f).length

/-- The selection key order as numbers: weight first, then index (R125). -/
def KeyBefore (st : NodeStore) (i j : Nat) : Prop :=
  (NodeStore.at st i).weight.toNat < (NodeStore.at st j).weight.toNat ∨
    ((NodeStore.at st i).weight.toNat = (NodeStore.at st j).weight.toNat ∧ i < j)

/-- Slot `j` was popped by the merge that made some internal slot below `i` (R125); `n` is the number of leaves. -/
def PoppedBefore (st : NodeStore) (n i j : Nat) : Prop :=
  ∃ p, n ≤ p ∧ p < i ∧ ((NodeStore.at st p).left.toNat = j ∨ (NodeStore.at st p).right.toNat = j)

/-! The two ends of a command, as STATUS shows them. -/

/-- STATUS after `complete()` (spec/60_exceptions.md R215). -/
def Status.success (st : Status) : Status := { st with busy := false, done := true, err := false, errCode := 0x00#8 }

/-- STATUS after `raise CmdError(code)` (R216). -/
def Status.failure (st : Status) (code : Byte) : Status :=
  { st with busy := false, done := true, err := true, errCode := code, trunc := false }

/-! Bus accesses. -/

/-- A HOST read of `off` as the next step returns `v` and changes nothing else. -/
def State.ReadsAs (s : State) (off : Offset) (v : Word) : Prop :=
  ∀ rest, step { s with inputs := .read off :: rest } = .next { s with inputs := rest, readData := some v }

/-- A HOST write of `v` to `off` as the next step leaves the state `t`. -/
def State.WriteLeaves (s : State) (off : Offset) (v : Word) (t : State) : Prop :=
  ∀ rest, step { s with inputs := .write off v :: rest } = .next { t with inputs := rest }

/-- Every byte of the buffer is the draw number `d` (R219, R248). -/
def Memory.IsDrawn (m : Memory) (d : Nat) : Prop := ∀ j, m.read j = Config.freeByte d j

/-- The buffer `o` holds the stream `bits` from its first byte on, MSB first and zero-padded, and the bytes after it are
those of `m` (spec/42_bit_packer.md R166, R170). -/
def Memory.HoldsPayload (o m : Memory) (bits : List Bool) : Prop :=
  (∀ k (h : k < bits.length), o.streamBit k = bits[k]) ∧
    (∀ k, bits.length ≤ k → k < 8 * ceil8 bits.length → o.streamBit k = false) ∧
    ∀ i, ceil8 bits.length ≤ i → o.read i = m.read i

/-- The buffer `o` holds the bytes `bs` from its first byte on, and the bytes after them are those of `m`
(spec/43_decoder.md R191). -/
def Memory.HoldsBytes (o m : Memory) (bs : List Byte) : Prop :=
  (∀ i (h : i < bs.length), o.read i = bs[i]) ∧ ∀ i, bs.length ≤ i → o.read i = m.read i

/-- The offset of a word, as a number. -/
def offsetAt (o : Nat) : Offset := BitVec.ofNat 22 o

end Sys2Proof.Machine
end

