-- ==== Sys2Proof/Certificates/Slice0/Obligations.lean ====
section
/-! DEFINITION. The statements for the provers: what the numbered rules of spec/ say the machine does. -/

open Sys2Proof Sys2Proof.Machine

/-! ## Encoding and the step -/

/-- R100, R101, R104: decoding gives exactly the well-formed instruction whose encoding the word is, on each port and for
every word. -/
def Obligations.DecodeAndEncodeAgree : Prop :=
  ∀ (p : Port) (v : Word) (i : Instr), decodeWord p v = .ok i ↔ i.wellFormed = true ∧ encode i = (p, v)

/-- The ten rows of R101's table and R104, each word written out. -/
def Obligations.TableWordsDecodeToTheirCommands : Prop :=
  decodeWord .cmd 0b00000000000000000000000000000000#32 = .ok .nop ∧
  decodeWord .cmd 0b00000000000000000000000000000001#32 = .ok .clearFreq ∧
  decodeWord .cmd 0b00000000000000000000000000000010#32 = .ok .count ∧
  decodeWord .cmd 0b00000000000000000000000000000011#32 = .ok .buildTree ∧
  decodeWord .cmd 0b00000000000000000000000000000100#32 = .ok .genCodes ∧
  decodeWord .cmd 0b00000000000000000000000000000101#32 = .ok .encode ∧
  decodeWord .cmd 0b00000000000000000000000000000110#32 = .ok .decode ∧
  decodeWord .cmd 0b00000000000000000000000000000111#32 = .ok .compress ∧
  decodeWord .cmd 0b00000000000000000000000000001000#32 = .ok .decompress ∧
  decodeWord .ctrl 0b00000000000000000000000000000010#32 = .ok (.softReset 0x00000002#32) ∧
  decodeWord .ctrl 0b11111111111111111111111111111111#32 = .ok (.softReset 0xFFFFFFFF#32)

/-- R102: an illegal command word is accepted like any other, and its CORE step changes nothing but STATUS, which reports
ILLEGAL_CMD. -/
def Obligations.IllegalWordCompletesWithIllegalCmd : Prop :=
  ∀ (s : State) (v : Word), (v.extractLsb' 8 24 ≠ 0 ∨ 0x09 ≤ (v.extractLsb' 0 8).toNat) →
    (s.status.busy = false →
      s.WriteLeaves 0x010#22 v
        { s with
          cmd := v
          status := { s.status with busy := true, done := false, err := false, trunc := false, errCode := 0x00#8 } }) ∧
    (s.status.busy = true → s.cmd = v → ∀ rest,
      step { s with inputs := .core :: rest } = .next { s with inputs := rest, status := s.status.failure 0x01#8 })

/-- R120, R104 (the order of events is held in State, log 1): a step whose turn is the CORE's runs exactly the instruction the command word decodes to, on the state with
the event taken off; a step whose event is a CTRL write with bit 1 set runs SOFT_RESET. -/
def Obligations.StepRunsTheDecodedInstruction : Prop :=
  (∀ (s : State) (i : Instr), s.status.busy = true → decodeWord .cmd s.cmd = .ok i →
    (∀ rest, step { s with inputs := .core :: rest } = exec i { s with inputs := rest }) ∧
      step { s with inputs := [] } = exec i { s with inputs := [] }) ∧
  ∀ (s : State) (off : Offset) (v : Word), off.toNat / 4 = 2 → v.getLsbD 1 = true → ∀ rest,
    step { s with inputs := .write off v :: rest } = exec (.softReset v) { s with inputs := rest }

/-- R120 (the CORE step is enabled iff BUSY = 1) and R229 (when idle the block does nothing), with the events in State
(log 1). -/
def Obligations.CoreStepIsEnabledOnlyWhileBusy : Prop :=
  ∀ s : State, s.status.busy = false →
    (∀ rest, step { s with inputs := .core :: rest } = .next { s with inputs := rest }) ∧
      step { s with inputs := [] } = .next { s with inputs := [] }

/-! ## The tree builder -/

/-- R121: NOP only completes; CMD's reset value is the NOP word, but reset starts no command. -/
def Obligations.NopOnlyCompletes : Prop :=
  (∀ s : State, exec .nop s = .next { s with status := s.status.success }) ∧
    decodeWord .cmd State.reset.cmd = .ok .nop ∧ State.reset.status.busy = false

/-- R122: FREQ is emptied and the valid flags are cleared, nothing else; a BUILD_TREE of the empty table builds the empty
tree. -/
def Obligations.ClearFreqEmptiesTheTable : Prop :=
  (∀ s : State, ∃ f : SymTable Word,
    exec .clearFreq s =
      .next { s with freq := f, status := { s.status.success with treeValid := false, codesValid := false } } ∧
    ∀ b, SymTable.at f b = 0#32) ∧
  ∀ s : State, (∀ b, SymTable.at s.freq b = 0#32) →
    ∃ t, exec .buildTree s = .next t ∧ t.symCount = 0#9 ∧ t.root = 0x1FF#9

/-- R123: LEN_RANGE with nothing changed, or FREQ[s] = #{ i < L : IN[i] = s }, the sum L, no count at 2^31 or more, the
valid flags cleared, nothing else changed. -/
def Obligations.CountCountsTheInput : Prop :=
  ∀ s : State, s.cfg.wf = true →
    (s.cfg.inBytes < s.inLen.toNat → exec .count s = .next { s with status := s.status.failure 0x02#8 }) ∧
    (s.inLen.toNat ≤ s.cfg.inBytes → ∃ f : SymTable Word,
      exec .count s =
        .next { s with freq := f, status := { s.status.success with treeValid := false, codesValid := false } } ∧
      (∀ b, (SymTable.at f b).toNat =
        ((List.range s.inLen.toNat).filter fun i => s.inBuf.read i == b).length) ∧
      freqTotal f = s.inLen.toNat ∧ ∀ b, (SymTable.at f b).toNat < 2 ^ 31)

/-- R127 with the layout of R40: SYM_COUNT = n, ROOT = 2n-2 (NONE for n = 0), the flags; leaves in slots 0..n-1 in
ascending order of symbol, internal nodes with two valid children of lower index in slots n..2n-2, every other slot
invalid; nothing else changed. -/
def Obligations.BuildTreeLaysOutTheNodeStore : Prop :=
  ∀ s : State, ∃ nd : NodeStore,
    exec .buildTree s =
      .next { s with
        nodes := nd
        symCount := BitVec.ofNat 9 (presentCount s.freq)
        root := if presentCount s.freq = 0 then 0x1FF#9 else BitVec.ofNat 9 (2 * presentCount s.freq - 2)
        status := { s.status.success with treeValid := true, codesValid := false } } ∧
    presentCount s.freq ≤ 256 ∧
    (presentSymbols s.freq).Pairwise (fun a b => a.toNat < b.toNat) ∧
    (∀ b, b ∈ presentSymbols s.freq ↔ SymTable.at s.freq b ≠ 0#32) ∧
    (∀ k (h : k < (presentSymbols s.freq).length),
      NodeStore.at nd k =
        { valid := true, leaf := true, sym := (presentSymbols s.freq)[k], left := 0x1FF#9, right := 0x1FF#9
          weight := (SymTable.at s.freq (presentSymbols s.freq)[k]).setWidth 64 }) ∧
    (∀ i, presentCount s.freq ≤ i → i < 2 * presentCount s.freq - 1 →
      (NodeStore.at nd i).valid = true ∧ (NodeStore.at nd i).leaf = false ∧ (NodeStore.at nd i).sym = 0#8 ∧
        (NodeStore.at nd i).left.toNat < i ∧ (NodeStore.at nd i).right.toNat < i ∧
        (NodeStore.at nd (NodeStore.at nd i).left.toNat).valid = true ∧
        (NodeStore.at nd (NodeStore.at nd i).right.toNat).valid = true) ∧
    ∀ i, 2 * presentCount s.freq - 1 ≤ i → i < 512 → NodeStore.at nd i = Node.invalid

/-- R125, R126: each internal node, in creation order, joins the two slots of lowest key (weight, index) among those made
and not yet popped, the lower one as the left child, with the exact sum of their weights, which stays below 2^40; the
last one made, in slot 2n-2, is the root, and no slot after it is made. -/
def Obligations.BuildTreeJoinsTheTwoLowestKeys : Prop :=
  ∀ s : State, ∃ t, exec .buildTree s = .next t ∧
    (1 ≤ presentCount s.freq → t.root.toNat = 2 * presentCount s.freq - 2) ∧
    (∀ i, 2 * presentCount s.freq - 1 ≤ i → i < 512 → (NodeStore.at t.nodes i).valid = false) ∧
    ∀ i, presentCount s.freq ≤ i → i < 2 * presentCount s.freq - 1 →
      let a := (NodeStore.at t.nodes i).left.toNat
      let b := (NodeStore.at t.nodes i).right.toNat
      (NodeStore.at t.nodes i).valid = true ∧ (NodeStore.at t.nodes i).leaf = false ∧
        (NodeStore.at t.nodes i).sym = 0#8 ∧ a < i ∧ b < i ∧ KeyBefore t.nodes a b ∧
        ¬ PoppedBefore t.nodes (presentCount s.freq) i a ∧ ¬ PoppedBefore t.nodes (presentCount s.freq) i b ∧
        (NodeStore.at t.nodes i).weight.toNat =
          (NodeStore.at t.nodes a).weight.toNat + (NodeStore.at t.nodes b).weight.toNat ∧
        (NodeStore.at t.nodes i).weight.toNat < 2 ^ 40 ∧
        ∀ j, j < i → j ≠ a → j ≠ b → ¬ PoppedBefore t.nodes (presentCount s.freq) i j → KeyBefore t.nodes b j

/-- R129 item 2: the root's weight is the sum of FREQ over all symbols. -/
def Obligations.RootWeightIsTheSumOfFreq : Prop :=
  ∀ s : State, 1 ≤ presentCount s.freq → ∃ t, exec .buildTree s = .next t ∧
    (NodeStore.at t.nodes t.root.toNat).weight.toNat = freqTotal s.freq

/-- R129 item 4: every leaf's depth is at most n-1: a path that has met no leaf before its end is no longer than that. -/
def Obligations.BuildTreeDepthIsBelowN : Prop :=
  ∀ s : State, 1 ≤ presentCount s.freq → ∃ t, exec .buildTree s = .next t ∧
    ∀ p : List Bool,
      (∀ k, k < p.length → (NodeStore.at t.nodes (pathFrom t.nodes t.root (p.take k)).toNat).leaf = false) →
      p.length ≤ presentCount s.freq - 1

/-! ## The code generator -/

/-- R152: GEN_CODES succeeds on every valid tree, the empty one included; every symbol that is no leaf gets no code, and
ENCODE refuses it. -/
def Obligations.AbsentSymbolsGetNoCode : Prop :=
  ∀ s : State, s.status.treeValid = true → s.treeOk → ∃ (l : SymTable Byte) (c : SymTable CodeWord),
    exec .genCodes s =
      .next { s with codeLen := l, codeBits := c, status := { s.status.success with codesValid := true } } ∧
    (s.symCount.toNat = 0 → ∀ b, SymTable.at l b = 0#8 ∧ SymTable.at c b = 0#256) ∧
    ∀ b, SymTable.at s.freq b = 0#32 →
      SymTable.at l b = 0#8 ∧ SymTable.at c b = 0#256 ∧
        ∀ u : State, u.codeLen = l → u.status.codesValid = true → u.inLen.toNat ≤ u.cfg.inBytes → 0 < u.inLen.toNat →
          u.inBuf.read 0 = b → ∃ w, exec .encode u = .next w ∧ w.status.err = true ∧ w.status.errCode = 0x05#8

/-- R151: the one symbol of a one-leaf tree gets the code "0", of length 1. -/
def Obligations.SingleLeafGetsTheCodeZero : Prop :=
  ∀ s : State, s.status.treeValid = true → s.symCount.toNat = 1 → ∃ (l : SymTable Byte) (c : SymTable CodeWord),
    exec .genCodes s =
      .next { s with codeLen := l, codeBits := c, status := { s.status.success with codesValid := true } } ∧
    (∀ b, SymTable.at l b = if b = (NodeStore.at s.nodes s.root.toNat).sym then 1#8 else 0#8) ∧
    (∀ b, SymTable.at c b = 0#256) ∧
    (s.treeOk → ∀ b, SymTable.at s.freq b ≠ 0#32 → SymTable.at l b = 1#8)

/-- R150, R42: for n >= 2 the code of a present symbol is the path from the root to its leaf, '0' left and '1' right, first
bit nearest the root, the bits above the code 0. -/
def Obligations.CodesAreRootToLeafPaths : Prop :=
  ∀ s : State, s.status.treeValid = true → s.treeOk → 2 ≤ presentCount s.freq →
    ∃ (l : SymTable Byte) (c : SymTable CodeWord),
      exec .genCodes s =
        .next { s with codeLen := l, codeBits := c, status := { s.status.success with codesValid := true } } ∧
      ∀ b, SymTable.at s.freq b ≠ 0#32 →
        LeadsToLeaf s.nodes s.root (codeBitList (SymTable.at c b) (SymTable.at l b).toNat) b ∧
          (SymTable.at c b).toNat < 2 ^ (SymTable.at l b).toNat

/-- R153 items 1 and 2: lengths from 1 to n-1, and no code a beginning of another. -/
def Obligations.CodesArePrefixFree : Prop :=
  ∀ s : State, s.status.treeValid = true → s.treeOk → 2 ≤ presentCount s.freq →
    ∃ t, exec .genCodes s = .next t ∧
      (∀ a, SymTable.at s.freq a ≠ 0#32 →
        1 ≤ (SymTable.at t.codeLen a).toNat ∧ (SymTable.at t.codeLen a).toNat ≤ presentCount s.freq - 1) ∧
      ∀ a b, SymTable.at s.freq a ≠ 0#32 → SymTable.at s.freq b ≠ 0#32 → a ≠ b →
        ¬ t.codes.codeOf a <+: t.codes.codeOf b

/-- R153 item 3: for n >= 2 the Kraft sum over the present symbols is exactly 1 (here times 2^255). -/
def Obligations.KraftSumIsOne : Prop :=
  ∀ s : State, s.status.treeValid = true → s.treeOk → 2 ≤ presentCount s.freq →
    ∃ t, exec .genCodes s = .next t ∧
      ((presentSymbols s.freq).map fun b => 2 ^ (255 - (SymTable.at t.codeLen b).toNat)).sum = 2 ^ 255

/-! ## Errors found before anything is done -/

/-- R218, R219: the precondition errors of GEN_CODES, ENCODE and DECODE, in their order, change STATUS alone. -/
def Obligations.PreconditionErrorsChangeStatusAlone : Prop :=
  ∀ s : State,
    (s.status.treeValid = false → exec .genCodes s = .next { s with status := s.status.failure 0x03#8 }) ∧
    (s.status.codesValid = false → exec .encode s = .next { s with status := s.status.failure 0x04#8 }) ∧
    (s.status.codesValid = true → s.cfg.inBytes < s.inLen.toNat →
      exec .encode s = .next { s with status := s.status.failure 0x02#8 }) ∧
    (s.status.treeValid = false → exec .decode s = .next { s with status := s.status.failure 0x03#8 }) ∧
    (s.status.treeValid = true → s.cfg.inBytes < s.inLen.toNat →
      exec .decode s = .next { s with status := s.status.failure 0x02#8 }) ∧
    (s.status.treeValid = true → s.inLen.toNat ≤ s.cfg.inBytes → 8 * s.inLen.toNat < s.bitLen.toNat →
      exec .decode s = .next { s with status := s.status.failure 0x07#8 }) ∧
    (s.status.treeValid = true → s.inLen.toNat ≤ s.cfg.inBytes → s.bitLen.toNat ≤ 8 * s.inLen.toNat →
      s.symCount.toNat = 0 → 0 < s.bitLen.toNat →
      exec .decode s = .next { s with status := s.status.failure 0x09#8 })

/-! ## The bit-packer -/

/-- R166, R167, R170: a successful ENCODE leaves the concatenated codes of the input in OUT, MSB first and zero-padded, the
bytes after them as they were, BIT_LEN = the sum of the code lengths (below 2^28) and OUT_LEN = its ceil8; nothing else
changes. -/
def Obligations.EncodePacksTheCodes : Prop :=
  ∀ s : State, s.cfg.wf = true → s.status.codesValid = true → s.inLen.toNat ≤ s.cfg.inBytes →
    (∀ b ∈ s.inputBytes, SymTable.at s.codeLen b ≠ 0#8) →
    ceil8 (s.codes.streamOf s.inputBytes).length ≤ s.cfg.outBytes →
    ∃ o : Memory,
      exec .encode s =
        .next { s with
          outBuf := o
          bitLen := BitVec.ofNat 64 (s.codes.streamOf s.inputBytes).length
          outLen := BitVec.ofNat 32 (ceil8 (s.codes.streamOf s.inputBytes).length)
          status := s.status.success } ∧
      o.HoldsPayload s.outBuf (s.codes.streamOf s.inputBytes) ∧
      (s.codes.streamOf s.inputBytes).length = (s.inputBytes.map fun b => (SymTable.at s.codeLen b).toNat).sum ∧
      (s.codes.streamOf s.inputBytes).length < 2 ^ 28

/-- R168: the error of the lowest input index at which one applies, SYM_ABSENT before OUT_OVERFLOW at one index; BIT_LEN and
OUT_LEN become 0, every byte of OUT is a draw (log 5), nothing else but STATUS changes. -/
def Obligations.EncodeReportsTheFirstStreamError : Prop :=
  ∀ (s : State) (i : Nat) (code : Byte), s.status.codesValid = true → s.inLen.toNat ≤ s.cfg.inBytes →
    i < s.inLen.toNat → (∀ b ∈ s.inputBytes.take i, SymTable.at s.codeLen b ≠ 0#8) →
    ceil8 (s.codes.streamOf (s.inputBytes.take i)).length ≤ s.cfg.outBytes →
    (SymTable.at s.codeLen (s.inBuf.read i) = 0#8 ∧ code = 0x05#8 ∨
      SymTable.at s.codeLen (s.inBuf.read i) ≠ 0#8 ∧
        s.cfg.outBytes <
          ceil8 ((s.codes.streamOf (s.inputBytes.take i)).length + (SymTable.at s.codeLen (s.inBuf.read i)).toNat) ∧
        code = 0x06#8) →
    ∃ o : Memory,
      exec .encode s =
        .next { s with
          outBuf := o, draws := s.draws + 1, bitLen := 0#64, outLen := 0#32, status := s.status.failure code } ∧
      o.IsDrawn s.draws

/-- R165, R84: writing the packed bytes leaves every byte as the spec's own sequence of OutBit writes does, the padding
bits included (log 15). -/
def Obligations.PackingIsTheOutBitSequence : Prop :=
  ∀ (m : Memory) (bits : List Bool) (i : Nat),
    ((bits ++ List.replicate (8 * ceil8 bits.length - bits.length) false).zipIdx.foldl
        (fun o (b : Bool × Nat) => o.setStreamBit b.2 b.1) m).read i =
      (m.writeBytes 0 (packBytes bits)).read i

/-! ## The decoder -/

/-- R189, R190: the empty tree decodes the empty stream, to nothing, with TRUNC = 0 whatever it was before (log 14), and
fails with EMPTY_TREE on any other. -/
def Obligations.EmptyTreeDecodesOnlyTheEmptyStream : Prop :=
  ∀ s : State, s.status.treeValid = true → s.symCount.toNat = 0 → s.inLen.toNat ≤ s.cfg.inBytes →
    s.bitLen.toNat ≤ 8 * s.inLen.toNat →
    (s.bitLen.toNat = 0 →
      exec .decode s = .next { s with outLen := 0#32, status := { s.status.success with trunc := false } }) ∧
    (0 < s.bitLen.toNat → exec .decode s = .next { s with status := s.status.failure 0x09#8 })

/-- R188: with a one-leaf tree each 0 bit emits the root's symbol, and a consumed 1 bit fails with BAD_PATH, before that
bit's emission is tried; a 0 bit where OUT is full fails with OUT_OVERFLOW. After an error OUT is a draw (log 5). -/
def Obligations.SingleLeafDecodesZeroBits : Prop :=
  ∀ s : State, s.cfg.wf = true → s.status.treeValid = true → s.symCount.toNat = 1 → s.inLen.toNat ≤ s.cfg.inBytes →
    s.bitLen.toNat ≤ 8 * s.inLen.toNat →
    ((∀ k, k < s.bitLen.toNat → s.inBuf.streamBit k = false) → s.bitLen.toNat ≤ s.cfg.outBytes → ∃ o : Memory,
      exec .decode s =
        .next { s with
          outBuf := o
          outLen := BitVec.ofNat 32 s.bitLen.toNat
          status := { s.status.success with trunc := false } } ∧
      o.HoldsBytes s.outBuf (List.replicate s.bitLen.toNat (NodeStore.at s.nodes s.root.toNat).sym)) ∧
    (∀ k, k < s.bitLen.toNat → k ≤ s.cfg.outBytes → (∀ j, j < k → s.inBuf.streamBit j = false) →
      s.inBuf.streamBit k = true → ∃ o : Memory,
        exec .decode s =
          .next { s with outBuf := o, draws := s.draws + 1, outLen := 0#32, status := s.status.failure 0x08#8 } ∧
        o.IsDrawn s.draws) ∧
    (s.cfg.outBytes < s.bitLen.toNat → (∀ k, k ≤ s.cfg.outBytes → s.inBuf.streamBit k = false) → ∃ o : Memory,
      exec .decode s =
        .next { s with outBuf := o, draws := s.draws + 1, outLen := 0#32, status := s.status.failure 0x06#8 } ∧
      o.IsDrawn s.draws)

/-- R187, R190, R191: for n >= 2, on a stream made of root-to-leaf paths and a rest that stays inside the tree, DECODE
leaves the leaves' symbols in OUT, their number in OUT_LEN, and TRUNC = 1 iff the rest ends away from the root; where they
do not fit, OUT_OVERFLOW with what R219 says. Nothing else changes. -/
def Obligations.DecodeWalksTheTree : Prop :=
  ∀ (s : State) (segs : List (List Bool × Byte)) (tail : List Bool),
    s.cfg.wf = true → s.status.treeValid = true → 2 ≤ s.symCount.toNat → s.inLen.toNat ≤ s.cfg.inBytes →
    s.bitLen.toNat ≤ 8 * s.inLen.toNat →
    s.inBuf.stream s.bitLen.toNat = (segs.map Prod.fst).flatten ++ tail →
    (∀ g ∈ segs, LeadsToLeaf s.nodes s.root g.1 g.2) → StaysInside s.nodes s.root tail (tail.length + 1) →
    (segs.length ≤ s.cfg.outBytes → ∃ o : Memory,
      exec .decode s =
        .next { s with
          outBuf := o
          outLen := BitVec.ofNat 32 segs.length
          status := { s.status.success with trunc := pathFrom s.nodes s.root tail != s.root } } ∧
      o.HoldsBytes s.outBuf (segs.map Prod.snd)) ∧
    (s.cfg.outBytes < segs.length → ∃ o : Memory,
      exec .decode s =
        .next { s with outBuf := o, draws := s.draws + 1, outLen := 0#32, status := s.status.failure 0x06#8 } ∧
      o.IsDrawn s.draws)

/-- R186: the bits of IN from BIT_LEN on, padding and later bytes, have no effect on DECODE. -/
def Obligations.DecodeNeverReadsPadding : Prop :=
  ∀ (s : State) (m : Memory), (∀ k, k < s.bitLen.toNat → m.streamBit k = s.inBuf.streamBit k) →
    ∃ t, exec .decode s = .next t ∧ exec .decode { s with inBuf := m } = .next { t with inBuf := m }

/-- R193: DECODE of the payload ENCODE made, with the same tree, gives the input back. -/
def Obligations.DecodeUndoesEncode : Prop :=
  ∀ s t u : State, s.cfg.wf = true → s.status.codesValid = true → s.status.treeValid = true → s.treeOk → s.codesOk →
    exec .encode s = .next t → t.status.err = false → s.inLen.toNat ≤ s.cfg.outBytes →
    t.outLen.toNat ≤ s.cfg.inBytes →
    u.cfg = s.cfg → u.status.treeValid = true → u.tree = treeOf s.freq → u.inLen = t.outLen → u.bitLen = t.bitLen →
    (∀ i, i < t.outLen.toNat → u.inBuf.read i = t.outBuf.read i) →
    ∃ w, exec .decode u = .next w ∧ w.status.err = false ∧ w.status.trunc = false ∧ w.outLen = s.inLen ∧
      ∀ i, i < s.inLen.toNat → w.outBuf.read i = s.inBuf.read i

/-! ## The compound commands -/

/-- R205: LEN_RANGE with nothing changed; else FREQ is the count of the input, NODE, SYM_COUNT and ROOT its tree, CODE_LEN
and CODE_BITS its codes, both valid flags 1, and either the payload of the input in OUT with BIT_LEN and OUT_LEN, or
OUT_OVERFLOW with what an ENCODE stream error loses (OUT is then a draw, log 5). -/
def Obligations.CompressCountsBuildsCodesAndPacks : Prop :=
  ∀ s : State, s.cfg.wf = true →
    (s.cfg.inBytes < s.inLen.toNat → exec .compress s = .next { s with status := s.status.failure 0x02#8 }) ∧
    (s.inLen.toNat ≤ s.cfg.inBytes → ∃ t : CodeTable,
      codesOf (treeOf (countBytes s.inputBytes)) = some t ∧
      (ceil8 (t.streamOf s.inputBytes).length ≤ s.cfg.outBytes → ∃ o : Memory,
        exec .compress s =
          .next { s with
            freq := countBytes s.inputBytes
            nodes := (treeOf (countBytes s.inputBytes)).nodes
            symCount := (treeOf (countBytes s.inputBytes)).symCount
            root := (treeOf (countBytes s.inputBytes)).root
            codeLen := t.len
            codeBits := t.bits
            outBuf := o
            bitLen := BitVec.ofNat 64 (t.streamOf s.inputBytes).length
            outLen := BitVec.ofNat 32 (ceil8 (t.streamOf s.inputBytes).length)
            status := { s.status.success with treeValid := true, codesValid := true } } ∧
        o.HoldsPayload s.outBuf (t.streamOf s.inputBytes)) ∧
      (s.cfg.outBytes < ceil8 (t.streamOf s.inputBytes).length → ∃ o : Memory,
        exec .compress s =
          .next { s with
            freq := countBytes s.inputBytes
            nodes := (treeOf (countBytes s.inputBytes)).nodes
            symCount := (treeOf (countBytes s.inputBytes)).symCount
            root := (treeOf (countBytes s.inputBytes)).root
            codeLen := t.len
            codeBits := t.bits
            outBuf := o
            draws := s.draws + 1
            bitLen := 0#64
            outLen := 0#32
            status := { s.status.failure 0x06#8 with treeValid := true, codesValid := true } } ∧
        o.IsDrawn s.draws))

/-- R206: DECOMPRESS is DECODE on the state in which the tree of FREQ has been built, whatever the outcome; so, for
n >= 2, it decodes the payload by that tree, with CODES_VALID cleared. -/
def Obligations.DecompressRebuildsAndWalks : Prop :=
  (∀ s : State,
    exec .decompress s =
      exec .decode
        { s with
          nodes := (treeOf s.freq).nodes
          symCount := (treeOf s.freq).symCount
          root := (treeOf s.freq).root
          status := { s.status with treeValid := true, codesValid := false } }) ∧
  ∀ (s : State) (segs : List (List Bool × Byte)) (tail : List Bool),
    s.cfg.wf = true → 2 ≤ presentCount s.freq → s.inLen.toNat ≤ s.cfg.inBytes → s.bitLen.toNat ≤ 8 * s.inLen.toNat →
    s.inBuf.stream s.bitLen.toNat = (segs.map Prod.fst).flatten ++ tail →
    (∀ g ∈ segs, LeadsToLeaf (treeOf s.freq).nodes (treeOf s.freq).root g.1 g.2) →
    StaysInside (treeOf s.freq).nodes (treeOf s.freq).root tail (tail.length + 1) → segs.length ≤ s.cfg.outBytes →
    ∃ o : Memory,
      exec .decompress s =
        .next { s with
          nodes := (treeOf s.freq).nodes
          symCount := (treeOf s.freq).symCount
          root := (treeOf s.freq).root
          outBuf := o
          outLen := BitVec.ofNat 32 segs.length
          status :=
            { s.status.success with
              treeValid := true
              codesValid := false
              trunc := pathFrom (treeOf s.freq).nodes (treeOf s.freq).root tail != (treeOf s.freq).root } } ∧
      o.HoldsBytes s.outBuf (segs.map Prod.snd)

/-- R208: the separate commands, each accepted after the one before it completed and each succeeding, end in the same
tables, lengths, OUT and valid flags as the compound command. -/
def Obligations.SeparateCommandsEqualCompound : Prop :=
  (∀ (s t₁ t₂ t₃ t₄ : State) (v₂ v₃ v₄ : Word),
    exec .count s = .next t₁ → t₁.status.err = false → exec .buildTree (t₁.accept v₂) = .next t₂ →
    exec .genCodes (t₂.accept v₃) = .next t₃ → t₃.status.err = false →
    exec .encode (t₃.accept v₄) = .next t₄ → t₄.status.err = false →
    ∃ t, exec .compress s = .next t ∧ t.freq = t₄.freq ∧ t.nodes = t₄.nodes ∧ t.symCount = t₄.symCount ∧
      t.root = t₄.root ∧ t.codeLen = t₄.codeLen ∧ t.codeBits = t₄.codeBits ∧ t.bitLen = t₄.bitLen ∧
      t.outLen = t₄.outLen ∧ t.outBuf = t₄.outBuf ∧ t.status.treeValid = t₄.status.treeValid ∧
      t.status.codesValid = t₄.status.codesValid) ∧
  ∀ (s t₁ t₂ : State) (v : Word),
    exec .buildTree s = .next t₁ → exec .decode (t₁.accept v) = .next t₂ → t₂.status.err = false →
    ∃ t, exec .decompress s = .next t ∧ t.freq = t₂.freq ∧ t.nodes = t₂.nodes ∧ t.symCount = t₂.symCount ∧
      t.root = t₂.root ∧ t.codeLen = t₂.codeLen ∧ t.codeBits = t₂.codeBits ∧ t.bitLen = t₂.bitLen ∧
      t.outLen = t₂.outLen ∧ t.outBuf = t₂.outBuf ∧ t.status.treeValid = t₂.status.treeValid ∧
      t.status.codesValid = t₂.status.codesValid

/-- R107, R254: MOVEOUT, run from an idle state, copies the words of OUT that hold OUT[0..OUT_LEN-1] into IN and sets
IN_LEN = OUT_LEN, through the bus alone; every other byte of IN, and everything else but the read data, stays as it was
(its data are those of the state it starts in, log 20). -/
def Obligations.MoveOutCopiesOutToIn : Prop :=
  ∀ s : State, s.cfg.wf = true → s.status.busy = false → s.outLen.toNat ≤ s.cfg.outBytes →
    s.outLen.toNat ≤ s.cfg.inBytes →
    ∃ (m : Memory) (r : Option Word),
      core.run (moveOutEvents s).length { s with inputs := moveOutEvents s } =
        .next { s with inputs := [], inBuf := m, inLen := s.outLen, readData := r } ∧
      (∀ i, i < 4 * wordCount s.outLen.toNat → m.read i = s.outBuf.read i) ∧
      (∀ i, i < s.outLen.toNat → m.read i = s.outBuf.read i) ∧
      ∀ i, 4 * wordCount s.outLen.toNat ≤ i → m.read i = s.inBuf.read i

/-- R207, the headline: after a successful COMPRESS of any input of at most OUT_BYTES bytes whose payload fits IN, MOVEOUT
and DECOMPRESS through the bus give the input back, with ERR = 0 and TRUNC = 0 (MOVEOUT's data: log 20). -/
def Obligations.DecompressUndoesCompress : Prop :=
  ∀ s t : State, s.cfg.wf = true → exec .compress s = .next t → t.status.err = false →
    s.inLen.toNat ≤ s.cfg.outBytes → t.outLen.toNat ≤ s.cfg.inBytes →
    ∃ w : State,
      core.run ((moveOutEvents t).length + 2)
          { t with inputs := moveOutEvents t ++ [.write 0x010#22 0x00000008#32, .core] } = .next w ∧
        w.status.busy = false ∧ w.status.err = false ∧ w.status.trunc = false ∧ w.outLen = s.inLen ∧
        ∀ i, i < s.inLen.toNat → w.outBuf.read i = s.inBuf.read i

/-! ## Reset -/

/-- R249: while idle the registers and tables take their reset values and IN and OUT keep their contents; while busy the
write is dropped whole and sets HAZ. The word's other bits do not matter. -/
def Obligations.SoftResetKeepsTheBuffers : Prop :=
  ∀ (s : State) (v : Word), (Instr.softReset v).wellFormed = true →
    (s.status.busy = false →
      exec (.softReset v) s =
        .next { s with
          irqEn := false
          status :=
            { busy := false, done := false, err := false, trunc := false, treeValid := false, codesValid := false
              haz := false, errCode := 0x00#8 }
          cmd := 0#32
          inLen := 0#32
          outLen := 0#32
          bitLen := 0#64
          symCount := 0#9
          root := 0x1FF#9
          freq := Vector.replicate 256 0#32
          codeLen := Vector.replicate 256 0#8
          codeBits := Vector.replicate 256 0#256
          nodes := Vector.replicate 512 Node.invalid }) ∧
    (s.status.busy = true → exec (.softReset v) s = .next { s with status := { s.status with haz := true } })

/-- R245 to R248: RESET, at any time, discards a busy command, gives every register and table its reset value, and draws
every byte of IN and of OUT anew (logs 4, 7, 16). -/
def Obligations.ResetDiscardsTheCommand : Prop :=
  ∀ (s : State) (rest : List Event), ∃ mi mo : Memory,
    step { s with inputs := .reset :: rest } =
      .next { s with
        inputs := rest
        irqEn := false
        status :=
          { busy := false, done := false, err := false, trunc := false, treeValid := false, codesValid := false
            haz := false, errCode := 0x00#8 }
        cmd := 0#32
        inLen := 0#32
        outLen := 0#32
        bitLen := 0#64
        symCount := 0#9
        root := 0x1FF#9
        freq := Vector.replicate 256 0#32
        codeLen := Vector.replicate 256 0#8
        codeBits := Vector.replicate 256 0#256
        nodes := Vector.replicate 512 Node.invalid
        inBuf := mi
        outBuf := mo
        draws := s.draws + 2 } ∧
    mi.IsDrawn s.draws ∧ mo.IsDrawn (s.draws + 1)

/-- R246, R247: what State.reset holds in the registers and tables. -/
def Obligations.ResetStateHoldsTheResetValues : Prop :=
  State.reset.irqEn = false ∧ State.reset.status.word = 0x00000000#32 ∧ State.reset.cmd = 0x00000000#32 ∧
    State.reset.inLen = 0#32 ∧ State.reset.outLen = 0#32 ∧ State.reset.bitLen = 0#64 ∧ State.reset.symCount = 0#9 ∧
    State.reset.root = 0x1FF#9 ∧ (∀ b, SymTable.at State.reset.freq b = 0#32) ∧
    (∀ b, SymTable.at State.reset.codeLen b = 0#8 ∧ SymTable.at State.reset.codeBits b = 0#256) ∧
    ∀ i, i < 512 → NodeStore.at State.reset.nodes i =
      { valid := false, leaf := false, sym := 0#8, left := 0#9, right := 0#9, weight := 0#64 }

/-! ## The bus -/

/-- R24, R25, R35: the constant registers, busy or not; writes to them are ignored. -/
def Obligations.ConstantRegistersAreConstant : Prop :=
  ∀ s : State,
    s.ReadsAs 0x000#22 0x00465048#32 ∧ s.ReadsAs 0x004#22 0x00010000#32 ∧
      s.ReadsAs 0x02C#22 (BitVec.ofNat 32 s.cfg.inBytes) ∧ s.ReadsAs 0x030#22 (BitVec.ofNat 32 s.cfg.outBytes) ∧
      ∀ v, s.WriteLeaves 0x000#22 v s ∧ s.WriteLeaves 0x004#22 v s ∧ s.WriteLeaves 0x02C#22 v s ∧
        s.WriteLeaves 0x030#22 v s

/-- R26: CTRL reads as IRQ_EN; a write with bit 1 clear sets IRQ_EN, busy or not; one with bit 1 set is the soft reset
while idle and is dropped with HAZ set while busy. -/
def Obligations.CtrlWriteSetsIrqEnOrResets : Prop :=
  ∀ (s : State) (v : Word),
    s.ReadsAs 0x008#22 (if s.irqEn then 1#32 else 0#32) ∧
    (v.getLsbD 1 = false → s.WriteLeaves 0x008#22 v { s with irqEn := v.getLsbD 0 }) ∧
    (v.getLsbD 1 = true → s.status.busy = false →
      s.WriteLeaves 0x008#22 v
        { State.reset with
          inBuf := s.inBuf, outBuf := s.outBuf, cfg := s.cfg, readData := s.readData, draws := s.draws }) ∧
    (v.getLsbD 1 = true → s.status.busy = true →
      s.WriteLeaves 0x008#22 v { s with status := { s.status with haz := true } })

/-- R28: a STATUS write clears each of DONE, ERR and HAZ whose bit is 1, and nothing else, busy or not. -/
def Obligations.StatusWriteClearsWhereOne : Prop :=
  ∀ (s : State) (v : Word),
    s.WriteLeaves 0x00C#22 v
      { s with
        status :=
          { s.status with
            done := if v.getLsbD 1 then false else s.status.done
            err := if v.getLsbD 2 then false else s.status.err
            haz := if v.getLsbD 6 then false else s.status.haz } }

/-- R29: the accepted CMD write, the dropped one, and the read at all times. -/
def Obligations.CmdWriteIsAcceptedWhileIdle : Prop :=
  ∀ (s : State) (v : Word),
    (s.status.busy = false →
      s.WriteLeaves 0x010#22 v
        { s with
          cmd := v
          status := { s.status with busy := true, done := false, err := false, trunc := false, errCode := 0x00#8 } }) ∧
    (s.status.busy = true → s.WriteLeaves 0x010#22 v { s with status := { s.status with haz := true } }) ∧
    s.ReadsAs 0x010#22 s.cmd

/-- R27, R30 to R34: what the registers read as; STATUS and IN_LEN at all times, the others while idle. -/
def Obligations.RegistersReadAsTheyStand : Prop :=
  ∀ s : State,
    (∃ w : Word, s.ReadsAs 0x00C#22 w ∧ w.getLsbD 0 = s.status.busy ∧ w.getLsbD 1 = s.status.done ∧
      w.getLsbD 2 = s.status.err ∧ w.getLsbD 3 = s.status.trunc ∧ w.getLsbD 4 = s.status.treeValid ∧
      w.getLsbD 5 = s.status.codesValid ∧ w.getLsbD 6 = s.status.haz ∧ w.getLsbD 7 = false ∧
      w.extractLsb' 8 8 = s.status.errCode ∧ w.extractLsb' 16 16 = 0#16) ∧
    s.ReadsAs 0x014#22 s.inLen ∧
    (s.status.busy = false →
      s.ReadsAs 0x018#22 s.outLen ∧ s.ReadsAs 0x01C#22 (s.bitLen.extractLsb' 0 32) ∧
        s.ReadsAs 0x020#22 (s.bitLen.extractLsb' 32 32) ∧
        s.ReadsAs 0x024#22 (BitVec.ofNat 32 s.symCount.toNat) ∧ s.ReadsAs 0x028#22 (BitVec.ofNat 32 s.root.toNat))

/-- R30, R32: while idle a write to IN_LEN sets all its bits, and a write to one word of BIT_LEN leaves the other. -/
def Obligations.LengthWritesReplaceTheirWord : Prop :=
  ∀ (s : State) (v : Word), s.status.busy = false →
    s.WriteLeaves 0x014#22 v { s with inLen := v } ∧
    (∃ x : Dword, s.WriteLeaves 0x01C#22 v { s with bitLen := x } ∧ x.extractLsb' 0 32 = v ∧
      x.extractLsb' 32 32 = s.bitLen.extractLsb' 32 32) ∧
    ∃ x : Dword, s.WriteLeaves 0x020#22 v { s with bitLen := x } ∧ x.extractLsb' 32 32 = v ∧
      x.extractLsb' 0 32 = s.bitLen.extractLsb' 0 32

/-- R37, R78: while idle the FREQ window reads FREQ, and a write stores the value and clears both valid flags even where it
equals the old one; while busy the write is dropped and sets HAZ; the reset value is 0. -/
def Obligations.FreqWriteInvalidatesTheTree : Prop :=
  (∀ (s : State) (b : Byte) (v : Word),
    (s.status.busy = false →
      s.ReadsAs (offsetAt (0x400 + 4 * b.toNat)) (SymTable.at s.freq b) ∧
      ∃ f : SymTable Word,
        s.WriteLeaves (offsetAt (0x400 + 4 * b.toNat)) v
          { s with freq := f, status := { s.status with treeValid := false, codesValid := false } } ∧
        SymTable.at f b = v ∧ ∀ c, c ≠ b → SymTable.at f c = SymTable.at s.freq c) ∧
    (s.status.busy = true →
      s.WriteLeaves (offsetAt (0x400 + 4 * b.toNat)) v { s with status := { s.status with haz := true } })) ∧
  ∀ b, SymTable.at State.reset.freq b = 0#32

/-- R79: the code windows while idle; writes to them are ignored at all times. -/
def Obligations.CodeWindowsReadTheTable : Prop :=
  ∀ (s : State) (b : Byte),
    (s.status.busy = false → s.ReadsAs (offsetAt (0x800 + 4 * b.toNat)) ((SymTable.at s.codeLen b).setWidth 32)) ∧
    (∀ v, s.WriteLeaves (offsetAt (0x800 + 4 * b.toNat)) v s) ∧
    ∀ w, w < 8 →
      (s.status.busy = false →
        s.ReadsAs (offsetAt (0x2000 + 32 * b.toNat + 4 * w)) ((SymTable.at s.codeBits b).extractLsb' (32 * w) 32)) ∧
      ∀ v, s.WriteLeaves (offsetAt (0x2000 + 32 * b.toNat + 4 * w)) v s

/-- R80 with the INFO word of R39: the four words of a NODE slot while idle, all 0 for an invalid slot; writes are
ignored. -/
def Obligations.NodeWindowReadsTheSlot : Prop :=
  ∀ (s : State) (i : Nat), i < 512 →
    (s.status.busy = false → (NodeStore.at s.nodes i).valid = true →
      s.ReadsAs (offsetAt (0x4000 + 16 * i)) ((NodeStore.at s.nodes i).weight.extractLsb' 0 32) ∧
      s.ReadsAs (offsetAt (0x4000 + 16 * i + 4)) ((NodeStore.at s.nodes i).weight.extractLsb' 32 32) ∧
      (∃ w : Word, s.ReadsAs (offsetAt (0x4000 + 16 * i + 8)) w ∧ w.getLsbD 31 = true ∧
        w.getLsbD 30 = (NodeStore.at s.nodes i).leaf ∧ w.extractLsb' 26 4 = 0#4 ∧
        w.extractLsb' 17 9 = (NodeStore.at s.nodes i).right ∧ w.extractLsb' 8 9 = (NodeStore.at s.nodes i).left ∧
        w.extractLsb' 0 8 = (NodeStore.at s.nodes i).sym) ∧
      s.ReadsAs (offsetAt (0x4000 + 16 * i + 12)) 0#32) ∧
    (s.status.busy = false → (NodeStore.at s.nodes i).valid = false →
      ∀ k, k < 4 → s.ReadsAs (offsetAt (0x4000 + 16 * i + 4 * k)) 0#32) ∧
    ∀ k v, k < 4 → s.WriteLeaves (offsetAt (0x4000 + 16 * i + 4 * k)) v s

/-- R82, R77: the IN window, little-endian: reads at all times, writes while idle change those four bytes and no flag;
at or beyond IN_BYTES it reads 0 and ignores writes, busy or not (log 13); a write while busy inside it is dropped and
sets HAZ. -/
def Obligations.InWindowMovesFourBytes : Prop :=
  ∀ (s : State) (j : Nat), s.cfg.wf = true → 4 * j < 0x100000 →
    (4 * j < s.cfg.inBytes →
      s.ReadsAs (offsetAt (0x100000 + 4 * j))
        (s.inBuf.read (4 * j + 3) ++ s.inBuf.read (4 * j + 2) ++ s.inBuf.read (4 * j + 1) ++ s.inBuf.read (4 * j)) ∧
      (∀ v, s.status.busy = false → ∃ m : Memory,
        s.WriteLeaves (offsetAt (0x100000 + 4 * j)) v { s with inBuf := m } ∧
        (∀ k, k < 4 → m.read (4 * j + k) = v.extractLsb' (8 * k) 8) ∧
        ∀ i, i < 4 * j ∨ 4 * j + 4 ≤ i → m.read i = s.inBuf.read i) ∧
      ∀ v, s.status.busy = true →
        s.WriteLeaves (offsetAt (0x100000 + 4 * j)) v { s with status := { s.status with haz := true } }) ∧
    (s.cfg.inBytes ≤ 4 * j →
      s.ReadsAs (offsetAt (0x100000 + 4 * j)) 0#32 ∧ ∀ v, s.WriteLeaves (offsetAt (0x100000 + 4 * j)) v s)

/-- R83: the OUT window while idle, with no masking at OUT_LEN; at or beyond OUT_BYTES it reads 0, busy
or not (log 18); writes are ignored. -/
def Obligations.OutWindowReadsFourBytes : Prop :=
  ∀ (s : State) (j : Nat), s.cfg.wf = true → 4 * j < 0x100000 →
    (4 * j < s.cfg.outBytes → s.status.busy = false →
      s.ReadsAs (offsetAt (0x200000 + 4 * j))
        (s.outBuf.read (4 * j + 3) ++ s.outBuf.read (4 * j + 2) ++ s.outBuf.read (4 * j + 1) ++
          s.outBuf.read (4 * j))) ∧
    (s.cfg.outBytes ≤ 4 * j → s.ReadsAs (offsetAt (0x200000 + 4 * j)) 0#32) ∧
    ∀ v, s.WriteLeaves (offsetAt (0x200000 + 4 * j)) v s

/-- R93: while busy a read of a location of W returns a fresh draw (its form is log 6), and a read of any other location its
exact value; the reserved fourth word of a NODE slot (R39) reads 0 (W's edges are log 18). -/
def Obligations.BusyReadsOfWAreDraws : Prop :=
  ∀ (s : State) (off : Offset) (rest : List Event), s.cfg.wf = true → s.status.busy = true →
    let o := off.toNat / 4 * 4
    let inW :=
      o = 0x018 ∨ o = 0x01C ∨ o = 0x020 ∨ o = 0x024 ∨ o = 0x028 ∨ (0x400 ≤ o ∧ o < 0xC00) ∨ (0x2000 ≤ o ∧ o < 0x4000) ∨
        (0x4000 ≤ o ∧ o < 0x6000 ∧ o % 16 ≠ 12) ∨ (0x200000 ≤ o ∧ o < 0x200000 + s.cfg.outBytes)
    (inW →
      step { s with inputs := .read off :: rest } =
        .next { s with inputs := rest, readData := some (Config.freeWord s.draws), draws := s.draws + 1 }) ∧
    (¬ inW → s.ReadsAs off (s.wordAt (locOf s.cfg off))) ∧
    (0x4000 ≤ o → o < 0x6000 → o % 16 = 12 → s.ReadsAs off 0#32)

/-- R73: an access acts exactly as the access at the offset with its low two bits cleared, and no access faults. -/
def Obligations.LowOffsetBitsAreIgnored : Prop :=
  ∀ (s : State) (off : Offset) (v : Word) (rest : List Event),
    step { s with inputs := .read off :: rest } =
        step { s with inputs := .read (offsetAt (off.toNat - off.toNat % 4)) :: rest } ∧
      step { s with inputs := .write off v :: rest } =
        step { s with inputs := .write (offsetAt (off.toNat - off.toNat % 4)) v :: rest } ∧
      (∃ t, step { s with inputs := .read off :: rest } = .next t) ∧
      ∃ t, step { s with inputs := .write off v :: rest } = .next t

/-- R251: while busy a write to CMD, IN_LEN, BIT_LEN, FREQ, IN, or to CTRL with bit 1 set, sets HAZ and changes nothing
else; STATUS writes and CTRL writes with bit 1 clear take effect; every other write, one beyond IN_BYTES included
(log 13), is ignored. -/
def Obligations.WritesWhileBusyAreDropped : Prop :=
  ∀ (s : State) (off : Offset) (v : Word), s.cfg.wf = true → s.status.busy = true →
    let o := off.toNat / 4 * 4
    let held :=
      o = 0x010 ∨ o = 0x014 ∨ o = 0x01C ∨ o = 0x020 ∨ (0x400 ≤ o ∧ o < 0x800) ∨
        (0x100000 ≤ o ∧ o < 0x100000 + s.cfg.inBytes) ∨ (o = 0x008 ∧ v.getLsbD 1 = true)
    (held → s.WriteLeaves off v { s with status := { s.status with haz := true } }) ∧
    (o = 0x008 → v.getLsbD 1 = false → s.WriteLeaves off v { s with irqEn := v.getLsbD 0 }) ∧
    (o = 0x00C →
      s.WriteLeaves off v
        { s with
          status :=
            { s.status with
              done := if v.getLsbD 1 then false else s.status.done
              err := if v.getLsbD 2 then false else s.status.err
              haz := if v.getLsbD 6 then false else s.status.haz } }) ∧
    (¬ held → o ≠ 0x008 → o ≠ 0x00C → s.WriteLeaves off v s)

/-- R75, R76: reserved offsets read 0; writes to them, to the read-only locations and to the read-only fields of STATUS are
ignored, busy or not, and set no HAZ. -/
def Obligations.ReservedAndReadOnlyWritesAreIgnored : Prop :=
  ∀ (s : State) (off : Offset),
    let o := off.toNat / 4 * 4
    let reserved :=
      (0x034 ≤ o ∧ o < 0x400) ∨ (0xC00 ≤ o ∧ o < 0x2000) ∨ (0x6000 ≤ o ∧ o < 0x100000) ∨ 0x300000 ≤ o
    let readOnly :=
      o = 0x000 ∨ o = 0x004 ∨ o = 0x018 ∨ (0x024 ≤ o ∧ o ≤ 0x030) ∨ (0x800 ≤ o ∧ o < 0xC00) ∨
        (0x2000 ≤ o ∧ o < 0x6000) ∨ (0x200000 ≤ o ∧ o < 0x300000)
    (reserved → s.ReadsAs off 0#32) ∧ (reserved ∨ readOnly → ∀ v, s.WriteLeaves off v s) ∧
      ∀ v : Word, o = 0x00C → v.getLsbD 1 = false → v.getLsbD 2 = false → v.getLsbD 6 = false → s.WriteLeaves off v s

/-- R221, R48: IRQ rises with completion where IRQ_EN = 1, at once where IRQ_EN is set while DONE = 1, and falls where DONE
is cleared by writing 1 or by a new command; it is low while IRQ_EN = 0. -/
def Obligations.IrqFollowsDoneAndEnable : Prop :=
  (∀ s : State, s.irq = (s.irqEn && s.status.done)) ∧
  (∀ s t : State, coreStep s = .next t → t.irq = s.irqEn) ∧
  (∀ s : State, s.irqEn = false → s.irq = false) ∧
  (∀ s t : State, (∀ rest, step { s with inputs := .write 0x008#22 0x00000001#32 :: rest } =
    .next { t with inputs := rest }) → t.irq = s.status.done) ∧
  (∀ (s t : State) (v : Word), v.getLsbD 1 = true → s.WriteLeaves 0x00C#22 v t → t.irq = false) ∧
  ∀ (s t : State) (v : Word), s.status.busy = false → s.WriteLeaves 0x010#22 v t → t.irq = false

/-! ## Whole-machine rules and invariants -/

/-- R120, R215, R216, R43, R30: every CORE step whose tree, if valid, is FREQ's, ends with exactly one of success and an
error of R217's list, clears BUSY and sets DONE, and leaves IN, IN_LEN, CMD, CTRL and HAZ as they were. -/
def Obligations.CoreStepEndsOnceAndLeavesItsInputs : Prop :=
  ∀ s : State, s.treeOk → ∃ t, coreStep s = .next t ∧
    t.status.busy = false ∧ t.status.done = true ∧
    (t.status.err = false ∧ t.status.errCode = 0x00#8 ∨
      t.status.err = true ∧ 1 ≤ t.status.errCode.toNat ∧ t.status.errCode.toNat ≤ 9 ∧ t.status.trunc = false) ∧
    t.irqEn = s.irqEn ∧ t.cmd = s.cmd ∧ t.inLen = s.inLen ∧ t.inBuf = s.inBuf ∧ t.status.haz = s.status.haz ∧
    t.cfg = s.cfg ∧ t.inputs = s.inputs ∧ t.readData = s.readData

/-- R37, R39, R41, R42, R44, R31, R32: which commands write FREQ, the tree, the code table, OUT and OUT_LEN, and BIT_LEN; no
other command does. -/
def Obligations.OnlyTheNamedCommandsWriteATable : Prop :=
  ∀ (i : Instr) (s t : State), exec i s = .next t →
    (i ∈ [.nop, .buildTree, .genCodes, .encode, .decode, .decompress] → t.freq = s.freq) ∧
    (i ∈ [.nop, .clearFreq, .count, .genCodes, .encode, .decode] →
      t.nodes = s.nodes ∧ t.symCount = s.symCount ∧ t.root = s.root) ∧
    (i ∈ [.nop, .clearFreq, .count, .buildTree, .encode, .decode, .decompress] →
      t.codeLen = s.codeLen ∧ t.codeBits = s.codeBits) ∧
    (i ∈ [.nop, .clearFreq, .count, .buildTree, .genCodes] → t.outBuf = s.outBuf ∧ t.outLen = s.outLen) ∧
    (i ∈ [.nop, .clearFreq, .count, .buildTree, .genCodes, .decode, .decompress] → t.bitLen = s.bitLen)

/-- The reset state meets every invariant below: the model's own form of the buffers and draws at the reference sizes
(logs 2, 4, 7), and what the spec says of STATUS, the valid flags and the stores. -/
def Obligations.ResetMeetsTheInvariants : Prop :=
  State.reset.buffersOk = true ∧ State.reset.drawsOk = true ∧ State.reset.status.ok = true ∧ State.reset.treeOk ∧
    State.reset.codesOk ∧ State.reset.storeOk

/-- The model's own form of the buffers (logs 2, 4, 7): every step keeps the canonical form of IN and OUT within their sizes, keeps their draws distinct and made, and never
changes the parameters. -/
def Obligations.StepKeepsBuffersCanonical : Prop :=
  ∀ s t : State, s.buffersOk = true → s.drawsOk = true → step s = .next t →
    t.buffersOk = true ∧ t.drawsOk = true ∧ t.cfg = s.cfg

/-- R45, R46, R217: every step keeps STATUS legal. -/
def Obligations.StepKeepsStatusLegal : Prop :=
  ∀ s t : State, s.status.ok = true → step s = .next t → t.status.ok = true

/-- R45: every step keeps what TREE_VALID and CODES_VALID mean. -/
def Obligations.StepKeepsTreeAndCodesMeaning : Prop :=
  ∀ s t : State, s.treeOk → s.codesOk → step s = .next t → t.treeOk ∧ t.codesOk

/-- R20, R34, R39, R42: every step keeps NODE[511] invalid, bit 255 of every code 0, SYM_COUNT in 0..256 and ROOT at NONE
or 2n-2. -/
def Obligations.StepKeepsTheStoresShape : Prop :=
  ∀ s t : State, s.treeOk → s.storeOk → step s = .next t → t.storeOk

/-- R120 (the step always terminates), R220 (there are no traps), R45: a machine whose tree, if valid, is FREQ's, takes a
step, neither a fault nor a refusal, and its tree, if valid, is FREQ's again: so no number of steps stops it. The order of
events is log 1's, the one fault that is so excluded is log 9's. -/
def Obligations.MachineNeverStops : Prop :=
  ∀ s : State, s.treeOk → ∃ t, step s = .next t ∧ t.treeOk

/-- R94, R257, with the schedule of log 1: whatever accesses, CORE turns and RESETs are to come, once they are over and the CORE has had one more turn,
no command is pending. -/
def Obligations.BusyPeriodEnds : Prop :=
  ∀ s : State, s.treeOk →
    ∃ t : State, core.run (s.inputs.length + 1) s = .next t ∧ t.inputs = [] ∧ t.status.busy = false
end

