-- ==== Sys2Proof/Laws/Memory.lean ====
section
/-! SUPPORT. The laws of the buffers and tables: a read after a write, every other place left alone, and the canonical form,
which every operation keeps. -/

namespace Sys2Proof.Machine

/-! ## Read after write -/

theorem Memory.lookup_insert_same (l : List Host.Cell) (i : Nat) (b : Byte) :
    Memory.lookup (Memory.insert l i b) i = some b := by
  induction l with
  | nil => simp [Memory.insert, Memory.lookup]
  | cons c rest ih =>
    obtain ⟨a, x⟩ := c
    by_cases h₁ : i < a
    · simp [Memory.insert, h₁, Memory.lookup]
    · by_cases h₂ : i = a <;> simp [Memory.insert, h₁, h₂, Memory.lookup]
      · simpa [h₂] using ih

theorem Memory.lookup_insert_other (l : List Host.Cell) {i j : Nat} (b : Byte) (h : j ≠ i) :
    Memory.lookup (Memory.insert l i b) j = Memory.lookup l j := by
  induction l with
  | nil => simp [Memory.insert, Memory.lookup, h]
  | cons c rest ih =>
    obtain ⟨a, x⟩ := c
    by_cases h₁ : i < a
    · simp [Memory.insert, h₁, Memory.lookup, h]
    · by_cases h₂ : i = a
      · subst h₂; simp [Memory.insert, Memory.lookup, h]
      · simp only [Memory.insert, h₁, h₂, if_false, Memory.lookup, ih]

@[simp] theorem Memory.write_draw (m : Memory) (i : Nat) (b : Byte) : (m.write i b).draw = m.draw := rfl

@[simp] theorem Memory.read_write_same (m : Memory) (i : Nat) (b : Byte) : (m.write i b).read i = b := by
  simp [Memory.read, Memory.write, Memory.lookup_insert_same]

theorem Memory.read_write_other (m : Memory) {i j : Nat} (b : Byte) (h : j ≠ i) : (m.write i b).read j = m.read j := by
  simp [Memory.read, Memory.write, Memory.unlisted, Memory.lookup_insert_other _ _ h]

@[simp] theorem Memory.writeBytes_draw (m : Memory) (i : Nat) (bs : List Byte) : (m.writeBytes i bs).draw = m.draw := by
  induction bs generalizing m i with
  | nil => rfl
  | cons b rest ih => simp [Memory.writeBytes, ih]

/-- A byte outside the written range reads as before. -/
theorem Memory.read_writeBytes_outside (m : Memory) (i : Nat) (bs : List Byte) {j : Nat}
    (h : j < i ∨ i + bs.length ≤ j) : (m.writeBytes i bs).read j = m.read j := by
  induction bs generalizing m i with
  | nil => rfl
  | cons b rest ih =>
    simp only [List.length_cons] at h
    rw [Memory.writeBytes, ih _ _ (by omega), Memory.read_write_other _ _ (by omega)]

/-- A byte inside the written range reads as written. -/
theorem Memory.read_writeBytes_inside (m : Memory) (i : Nat) (bs : List Byte) {k : Nat} (h : k < bs.length) :
    (m.writeBytes i bs).read (i + k) = bs[k] := by
  induction bs generalizing m i k with
  | nil => simp at h
  | cons b rest ih =>
    cases k with
    | zero => rw [Memory.writeBytes, Memory.read_writeBytes_outside _ _ _ (by omega)]; simp
    | succ k =>
      have := ih (m.write i b) (i + 1) (k := k) (by simpa using h)
      simpa [Memory.writeBytes, Nat.add_assoc, Nat.add_comm 1] using this

@[simp] theorem Memory.read_drawn (d i : Nat) : (Memory.drawn d).read i = Config.freeByte d i := rfl

@[simp] theorem Memory.drawn_draw (d : Nat) : (Memory.drawn d).draw = d := rfl

/-! ## The canonical form -/

theorem Memory.risingFrom_insert (l : List Host.Cell) (i : Nat) (b : Byte) (lo : Nat) (hlo : lo ≤ i)
    (h : Memory.risingFrom lo l = true) : Memory.risingFrom lo (Memory.insert l i b) = true := by
  induction l generalizing lo with
  | nil => simp [Memory.insert, Memory.risingFrom, hlo]
  | cons c rest ih =>
    obtain ⟨a, x⟩ := c
    simp only [Memory.risingFrom, Bool.and_eq_true, decide_eq_true_eq] at h
    by_cases h₁ : i < a
    · simp [Memory.insert, h₁, Memory.risingFrom, hlo, h.2]
    · by_cases h₂ : i = a
      · subst h₂; simp [Memory.insert, Memory.risingFrom, h]
      · simp [Memory.insert, h₁, h₂, Memory.risingFrom, h.1, ih (a + 1) (by omega) h.2]

theorem Memory.all_insert (l : List Host.Cell) (i : Nat) (b : Byte) (p : Host.Cell → Bool) (hp : p (i, b) = true)
    (h : l.all p = true) : (Memory.insert l i b).all p = true := by
  induction l with
  | nil => simp [Memory.insert, hp]
  | cons c rest ih =>
    obtain ⟨a, x⟩ := c
    simp only [List.all_cons, Bool.and_eq_true] at h
    by_cases h₁ : i < a
    · simp [Memory.insert, h₁, hp, h]
    · by_cases h₂ : i = a
      · subst h₂; simp only [Memory.insert, h₁, if_false, if_true, List.all_cons, hp, h.2, Bool.and_self]
      · simp only [Memory.insert, h₁, h₂, if_false, List.all_cons, h.1, ih h.2, Bool.and_self]

/-- A write inside the buffer keeps the canonical form. -/
theorem Memory.wf_write {size : Nat} {m : Memory} {i : Nat} (b : Byte) (hi : i < size) (h : m.wf size = true) :
    (m.write i b).wf size = true := by
  simp only [Memory.wf, Bool.and_eq_true] at h ⊢
  exact ⟨Memory.risingFrom_insert _ _ _ _ (Nat.zero_le i) h.1, Memory.all_insert _ _ _ _ (by simpa using hi) h.2⟩

/-- A run of writes inside the buffer keeps the canonical form. -/
theorem Memory.wf_writeBytes {size : Nat} {m : Memory} {i : Nat} (bs : List Byte) (hi : i + bs.length ≤ size)
    (h : m.wf size = true) : (m.writeBytes i bs).wf size = true := by
  induction bs generalizing m i with
  | nil => exact h
  | cons b rest ih =>
    simp only [List.length_cons] at hi
    exact ih (by omega) (Memory.wf_write b (by omega) h)

/-- A bus word written inside the buffer keeps the canonical form. -/
theorem Memory.wf_writeWord {size : Nat} {m : Memory} {i : Nat} (v : Word) (hi : i + 4 ≤ size) (h : m.wf size = true) :
    (m.writeWord i v).wf size = true :=
  Memory.wf_writeBytes _ (by simpa using hi) h

/-- An OutBit write inside the buffer keeps the canonical form. -/
theorem Memory.wf_setStreamBit {size : Nat} {m : Memory} {k : Nat} (b : Bool) (hk : k / 8 < size)
    (h : m.wf size = true) : (m.setStreamBit k b).wf size = true :=
  Memory.wf_write _ hk h

@[simp] theorem Memory.wf_drawn (size d : Nat) : (Memory.drawn d).wf size = true := rfl

/-- IN and OUT of the reset state are in canonical form. -/
theorem reset_buffers_wf :
    State.reset.inBuf.wf State.reset.cfg.inBytes = true ∧ State.reset.outBuf.wf State.reset.cfg.outBytes = true :=
  ⟨rfl, rfl⟩

/-! ## Tables -/

@[simp] theorem SymTable.at_put_same {α : Type} (t : SymTable α) (b : Byte) (x : α) :
    SymTable.at (SymTable.put t b x) b = x := by
  simp [SymTable.at, SymTable.put]

theorem SymTable.at_put_other {α : Type} (t : SymTable α) {b c : Byte} (x : α) (h : c ≠ b) :
    SymTable.at (SymTable.put t b x) c = SymTable.at t c := by
  have : b.toNat ≠ c.toNat := fun e => h (BitVec.eq_of_toNat_eq e.symm)
  simp [SymTable.at, SymTable.put, this]

@[simp] theorem SymTable.at_replicate {α : Type} (x : α) (b : Byte) :
    SymTable.at (Vector.replicate 256 x) b = x := by
  simp [SymTable.at]

theorem NodeStore.at_put_same (st : NodeStore) {i : Nat} (nd : Node) (h : i < 512) :
    NodeStore.at (NodeStore.put st i nd) i = nd := by
  simp [NodeStore.at, NodeStore.put, h]

theorem NodeStore.at_put_other (st : NodeStore) {i j : Nat} (nd : Node) (h : j ≠ i) :
    NodeStore.at (NodeStore.put st i nd) j = NodeStore.at st j := by
  simp [NodeStore.at, NodeStore.put, Vector.getElem?_setIfInBounds_ne (Ne.symm h)]

@[simp] theorem NodeStore.at_empty (i : Nat) : NodeStore.at NodeStore.empty i = Node.invalid := by
  unfold NodeStore.at NodeStore.empty
  by_cases h : i < 512 <;> simp [h]

/-- The loop over the counts finds the symbols whose entry is not 0 (R38). -/
theorem mem_presentFrom {l : List Word} {k : Nat} {b : Byte} :
    b ∈ presentFrom l k ↔ ∃ j c, l[j]? = some c ∧ c ≠ 0#32 ∧ b = BitVec.ofNat 8 (k + j) := by
  induction l generalizing k with
  | nil => simp [presentFrom]
  | cons c rest ih =>
    have shift : (∃ j d, rest[j]? = some d ∧ d ≠ 0#32 ∧ b = BitVec.ofNat 8 (k + 1 + j)) ↔
        ∃ j d, (c :: rest)[j + 1]? = some d ∧ d ≠ 0#32 ∧ b = BitVec.ofNat 8 (k + (j + 1)) := by
      have e (j : Nat) : k + 1 + j = k + (j + 1) := by omega
      simp only [List.getElem?_cons_succ, e]
    have split : (∃ j d, (c :: rest)[j]? = some d ∧ d ≠ 0#32 ∧ b = BitVec.ofNat 8 (k + j)) ↔
        (c ≠ 0#32 ∧ b = BitVec.ofNat 8 k) ∨
          ∃ j d, (c :: rest)[j + 1]? = some d ∧ d ≠ 0#32 ∧ b = BitVec.ofNat 8 (k + (j + 1)) := by
      constructor
      · rintro ⟨j, d, h⟩
        cases j with
        | zero =>
          obtain ⟨h₁, h₂, h₃⟩ := h
          obtain rfl : c = d := Option.some.inj h₁
          exact .inl ⟨h₂, h₃⟩
        | succ j => exact .inr ⟨j, d, h⟩
      · rintro (h | ⟨j, d, h⟩)
        · exact ⟨0, c, rfl, h.1, h.2⟩
        · exact ⟨j + 1, d, h⟩
    rw [split, ← shift, ← ih]
    by_cases hc : c = 0#32 <;> simp [presentFrom, hc]

theorem presentFrom_length_le (l : List Word) (k : Nat) : (presentFrom l k).length ≤ l.length := by
  induction l generalizing k with
  | nil => simp [presentFrom]
  | cons c rest ih =>
    have := ih (k + 1)
    by_cases hc : c = 0#32 <;> simp [presentFrom, hc] <;> omega

/-! ## Bits and bytes -/

/-- Bit `7 - j` of a byte made of bits is bit `j` of them. -/
theorem byteOfBits_bit (f : Nat → Bool) (j : Nat) (h : j < 8) : (byteOfBits f).getLsbD (7 - j) = f j := by
  have : j = 0 ∨ j = 1 ∨ j = 2 ∨ j = 3 ∨ j = 4 ∨ j = 5 ∨ j = 6 ∨ j = 7 := by omega
  rcases this with rfl | rfl | rfl | rfl | rfl | rfl | rfl | rfl <;>
    simp only [byteOfBits, BitVec.getLsbD_append, BitVec.getLsbD_ofBool] <;> simp

@[simp] theorem packBytes_length (bits : List Bool) : (packBytes bits).length = ceil8 bits.length := by
  simp [packBytes]

@[simp] theorem codeBitList_length (c : CodeWord) (n : Nat) : (codeBitList c n).length = n := by
  simp [codeBitList]

@[simp] theorem State.inputBytes_length (s : State) : s.inputBytes.length = s.inLen.toNat := by
  simp [State.inputBytes]

@[simp] theorem Memory.stream_length (m : Memory) (n : Nat) : (m.stream n).length = n := by
  simp [Memory.stream]

theorem ceil8_le {a b : Nat} (h : a ≤ b) : ceil8 a ≤ ceil8 b := by
  unfold ceil8; omega

theorem le_eight_mul_ceil8 (x : Nat) : x ≤ 8 * ceil8 x := by
  unfold ceil8; omega

end Sys2Proof.Machine
end

