-- ==== Sys2Proof/Laws/State.lean ====
section
/-! SUPPORT. What each shared update does to each field of State, one lemma a field. -/

namespace Sys2Proof.Machine

@[simp] theorem State.complete_irqEn (s : State) : s.complete.irqEn = s.irqEn := rfl
@[simp] theorem State.complete_status (s : State) :
    s.complete.status =
      { s.status with busy := false, done := true, err := false, errCode := 0x00#8 } := rfl
@[simp] theorem State.complete_cmd (s : State) : s.complete.cmd = s.cmd := rfl
@[simp] theorem State.complete_inLen (s : State) : s.complete.inLen = s.inLen := rfl
@[simp] theorem State.complete_outLen (s : State) : s.complete.outLen = s.outLen := rfl
@[simp] theorem State.complete_bitLen (s : State) : s.complete.bitLen = s.bitLen := rfl
@[simp] theorem State.complete_symCount (s : State) : s.complete.symCount = s.symCount := rfl
@[simp] theorem State.complete_root (s : State) : s.complete.root = s.root := rfl
@[simp] theorem State.complete_freq (s : State) : s.complete.freq = s.freq := rfl
@[simp] theorem State.complete_codeLen (s : State) : s.complete.codeLen = s.codeLen := rfl
@[simp] theorem State.complete_codeBits (s : State) : s.complete.codeBits = s.codeBits := rfl
@[simp] theorem State.complete_nodes (s : State) : s.complete.nodes = s.nodes := rfl
@[simp] theorem State.complete_inBuf (s : State) : s.complete.inBuf = s.inBuf := rfl
@[simp] theorem State.complete_outBuf (s : State) : s.complete.outBuf = s.outBuf := rfl
@[simp] theorem State.complete_cfg (s : State) : s.complete.cfg = s.cfg := rfl
@[simp] theorem State.complete_inputs (s : State) : s.complete.inputs = s.inputs := rfl
@[simp] theorem State.complete_readData (s : State) : s.complete.readData = s.readData := rfl
@[simp] theorem State.complete_draws (s : State) : s.complete.draws = s.draws := rfl

@[simp] theorem State.raise_irqEn (s : State) (c : ErrCode) : (s.raise c).irqEn = s.irqEn := rfl
@[simp] theorem State.raise_status (s : State) (c : ErrCode) :
    (s.raise c).status =
      { s.status with busy := false, done := true, err := true, errCode := c.code, trunc := false } := rfl
@[simp] theorem State.raise_cmd (s : State) (c : ErrCode) : (s.raise c).cmd = s.cmd := rfl
@[simp] theorem State.raise_inLen (s : State) (c : ErrCode) : (s.raise c).inLen = s.inLen := rfl
@[simp] theorem State.raise_outLen (s : State) (c : ErrCode) : (s.raise c).outLen = s.outLen := rfl
@[simp] theorem State.raise_bitLen (s : State) (c : ErrCode) : (s.raise c).bitLen = s.bitLen := rfl
@[simp] theorem State.raise_symCount (s : State) (c : ErrCode) : (s.raise c).symCount = s.symCount := rfl
@[simp] theorem State.raise_root (s : State) (c : ErrCode) : (s.raise c).root = s.root := rfl
@[simp] theorem State.raise_freq (s : State) (c : ErrCode) : (s.raise c).freq = s.freq := rfl
@[simp] theorem State.raise_codeLen (s : State) (c : ErrCode) : (s.raise c).codeLen = s.codeLen := rfl
@[simp] theorem State.raise_codeBits (s : State) (c : ErrCode) : (s.raise c).codeBits = s.codeBits := rfl
@[simp] theorem State.raise_nodes (s : State) (c : ErrCode) : (s.raise c).nodes = s.nodes := rfl
@[simp] theorem State.raise_inBuf (s : State) (c : ErrCode) : (s.raise c).inBuf = s.inBuf := rfl
@[simp] theorem State.raise_outBuf (s : State) (c : ErrCode) : (s.raise c).outBuf = s.outBuf := rfl
@[simp] theorem State.raise_cfg (s : State) (c : ErrCode) : (s.raise c).cfg = s.cfg := rfl
@[simp] theorem State.raise_inputs (s : State) (c : ErrCode) : (s.raise c).inputs = s.inputs := rfl
@[simp] theorem State.raise_readData (s : State) (c : ErrCode) : (s.raise c).readData = s.readData := rfl
@[simp] theorem State.raise_draws (s : State) (c : ErrCode) : (s.raise c).draws = s.draws := rfl

@[simp] theorem State.acknowledge_irqEn (s : State) (v : Word) : (s.acknowledge v).irqEn = s.irqEn := rfl
@[simp] theorem State.acknowledge_status (s : State) (v : Word) :
    (s.acknowledge v).status =
      { s.status with done := s.status.done && !v.getLsbD 1, err := s.status.err && !v.getLsbD 2, haz := s.status.haz && !v.getLsbD 6 } := rfl
@[simp] theorem State.acknowledge_cmd (s : State) (v : Word) : (s.acknowledge v).cmd = s.cmd := rfl
@[simp] theorem State.acknowledge_inLen (s : State) (v : Word) : (s.acknowledge v).inLen = s.inLen := rfl
@[simp] theorem State.acknowledge_outLen (s : State) (v : Word) : (s.acknowledge v).outLen = s.outLen := rfl
@[simp] theorem State.acknowledge_bitLen (s : State) (v : Word) : (s.acknowledge v).bitLen = s.bitLen := rfl
@[simp] theorem State.acknowledge_symCount (s : State) (v : Word) : (s.acknowledge v).symCount = s.symCount := rfl
@[simp] theorem State.acknowledge_root (s : State) (v : Word) : (s.acknowledge v).root = s.root := rfl
@[simp] theorem State.acknowledge_freq (s : State) (v : Word) : (s.acknowledge v).freq = s.freq := rfl
@[simp] theorem State.acknowledge_codeLen (s : State) (v : Word) : (s.acknowledge v).codeLen = s.codeLen := rfl
@[simp] theorem State.acknowledge_codeBits (s : State) (v : Word) : (s.acknowledge v).codeBits = s.codeBits := rfl
@[simp] theorem State.acknowledge_nodes (s : State) (v : Word) : (s.acknowledge v).nodes = s.nodes := rfl
@[simp] theorem State.acknowledge_inBuf (s : State) (v : Word) : (s.acknowledge v).inBuf = s.inBuf := rfl
@[simp] theorem State.acknowledge_outBuf (s : State) (v : Word) : (s.acknowledge v).outBuf = s.outBuf := rfl
@[simp] theorem State.acknowledge_cfg (s : State) (v : Word) : (s.acknowledge v).cfg = s.cfg := rfl
@[simp] theorem State.acknowledge_inputs (s : State) (v : Word) : (s.acknowledge v).inputs = s.inputs := rfl
@[simp] theorem State.acknowledge_readData (s : State) (v : Word) : (s.acknowledge v).readData = s.readData := rfl
@[simp] theorem State.acknowledge_draws (s : State) (v : Word) : (s.acknowledge v).draws = s.draws := rfl

@[simp] theorem State.accept_irqEn (s : State) (v : Word) : (s.accept v).irqEn = s.irqEn := rfl
@[simp] theorem State.accept_status (s : State) (v : Word) :
    (s.accept v).status =
      { s.status with busy := true, done := false, err := false, trunc := false, errCode := 0x00#8 } := rfl
@[simp] theorem State.accept_cmd (s : State) (v : Word) : (s.accept v).cmd = v := rfl
@[simp] theorem State.accept_inLen (s : State) (v : Word) : (s.accept v).inLen = s.inLen := rfl
@[simp] theorem State.accept_outLen (s : State) (v : Word) : (s.accept v).outLen = s.outLen := rfl
@[simp] theorem State.accept_bitLen (s : State) (v : Word) : (s.accept v).bitLen = s.bitLen := rfl
@[simp] theorem State.accept_symCount (s : State) (v : Word) : (s.accept v).symCount = s.symCount := rfl
@[simp] theorem State.accept_root (s : State) (v : Word) : (s.accept v).root = s.root := rfl
@[simp] theorem State.accept_freq (s : State) (v : Word) : (s.accept v).freq = s.freq := rfl
@[simp] theorem State.accept_codeLen (s : State) (v : Word) : (s.accept v).codeLen = s.codeLen := rfl
@[simp] theorem State.accept_codeBits (s : State) (v : Word) : (s.accept v).codeBits = s.codeBits := rfl
@[simp] theorem State.accept_nodes (s : State) (v : Word) : (s.accept v).nodes = s.nodes := rfl
@[simp] theorem State.accept_inBuf (s : State) (v : Word) : (s.accept v).inBuf = s.inBuf := rfl
@[simp] theorem State.accept_outBuf (s : State) (v : Word) : (s.accept v).outBuf = s.outBuf := rfl
@[simp] theorem State.accept_cfg (s : State) (v : Word) : (s.accept v).cfg = s.cfg := rfl
@[simp] theorem State.accept_inputs (s : State) (v : Word) : (s.accept v).inputs = s.inputs := rfl
@[simp] theorem State.accept_readData (s : State) (v : Word) : (s.accept v).readData = s.readData := rfl
@[simp] theorem State.accept_draws (s : State) (v : Word) : (s.accept v).draws = s.draws := rfl

@[simp] theorem State.dropped_irqEn (s : State) : s.dropped.irqEn = s.irqEn := rfl
@[simp] theorem State.dropped_status (s : State) : s.dropped.status = { s.status with haz := true } := rfl
@[simp] theorem State.dropped_cmd (s : State) : s.dropped.cmd = s.cmd := rfl
@[simp] theorem State.dropped_inLen (s : State) : s.dropped.inLen = s.inLen := rfl
@[simp] theorem State.dropped_outLen (s : State) : s.dropped.outLen = s.outLen := rfl
@[simp] theorem State.dropped_bitLen (s : State) : s.dropped.bitLen = s.bitLen := rfl
@[simp] theorem State.dropped_symCount (s : State) : s.dropped.symCount = s.symCount := rfl
@[simp] theorem State.dropped_root (s : State) : s.dropped.root = s.root := rfl
@[simp] theorem State.dropped_freq (s : State) : s.dropped.freq = s.freq := rfl
@[simp] theorem State.dropped_codeLen (s : State) : s.dropped.codeLen = s.codeLen := rfl
@[simp] theorem State.dropped_codeBits (s : State) : s.dropped.codeBits = s.codeBits := rfl
@[simp] theorem State.dropped_nodes (s : State) : s.dropped.nodes = s.nodes := rfl
@[simp] theorem State.dropped_inBuf (s : State) : s.dropped.inBuf = s.inBuf := rfl
@[simp] theorem State.dropped_outBuf (s : State) : s.dropped.outBuf = s.outBuf := rfl
@[simp] theorem State.dropped_cfg (s : State) : s.dropped.cfg = s.cfg := rfl
@[simp] theorem State.dropped_inputs (s : State) : s.dropped.inputs = s.inputs := rfl
@[simp] theorem State.dropped_readData (s : State) : s.dropped.readData = s.readData := rfl
@[simp] theorem State.dropped_draws (s : State) : s.dropped.draws = s.draws := rfl

@[simp] theorem State.loseEncode_irqEn (s : State) : s.loseEncode.irqEn = s.irqEn := rfl
@[simp] theorem State.loseEncode_status (s : State) : s.loseEncode.status = s.status := rfl
@[simp] theorem State.loseEncode_cmd (s : State) : s.loseEncode.cmd = s.cmd := rfl
@[simp] theorem State.loseEncode_inLen (s : State) : s.loseEncode.inLen = s.inLen := rfl
@[simp] theorem State.loseEncode_outLen (s : State) : s.loseEncode.outLen = 0#32 := rfl
@[simp] theorem State.loseEncode_bitLen (s : State) : s.loseEncode.bitLen = 0#64 := rfl
@[simp] theorem State.loseEncode_symCount (s : State) : s.loseEncode.symCount = s.symCount := rfl
@[simp] theorem State.loseEncode_root (s : State) : s.loseEncode.root = s.root := rfl
@[simp] theorem State.loseEncode_freq (s : State) : s.loseEncode.freq = s.freq := rfl
@[simp] theorem State.loseEncode_codeLen (s : State) : s.loseEncode.codeLen = s.codeLen := rfl
@[simp] theorem State.loseEncode_codeBits (s : State) : s.loseEncode.codeBits = s.codeBits := rfl
@[simp] theorem State.loseEncode_nodes (s : State) : s.loseEncode.nodes = s.nodes := rfl
@[simp] theorem State.loseEncode_inBuf (s : State) : s.loseEncode.inBuf = s.inBuf := rfl
@[simp] theorem State.loseEncode_outBuf (s : State) : s.loseEncode.outBuf = Memory.drawn s.draws := rfl
@[simp] theorem State.loseEncode_cfg (s : State) : s.loseEncode.cfg = s.cfg := rfl
@[simp] theorem State.loseEncode_inputs (s : State) : s.loseEncode.inputs = s.inputs := rfl
@[simp] theorem State.loseEncode_readData (s : State) : s.loseEncode.readData = s.readData := rfl
@[simp] theorem State.loseEncode_draws (s : State) : s.loseEncode.draws = s.draws + 1 := rfl

@[simp] theorem State.loseDecode_irqEn (s : State) : s.loseDecode.irqEn = s.irqEn := rfl
@[simp] theorem State.loseDecode_status (s : State) : s.loseDecode.status = s.status := rfl
@[simp] theorem State.loseDecode_cmd (s : State) : s.loseDecode.cmd = s.cmd := rfl
@[simp] theorem State.loseDecode_inLen (s : State) : s.loseDecode.inLen = s.inLen := rfl
@[simp] theorem State.loseDecode_outLen (s : State) : s.loseDecode.outLen = 0#32 := rfl
@[simp] theorem State.loseDecode_bitLen (s : State) : s.loseDecode.bitLen = s.bitLen := rfl
@[simp] theorem State.loseDecode_symCount (s : State) : s.loseDecode.symCount = s.symCount := rfl
@[simp] theorem State.loseDecode_root (s : State) : s.loseDecode.root = s.root := rfl
@[simp] theorem State.loseDecode_freq (s : State) : s.loseDecode.freq = s.freq := rfl
@[simp] theorem State.loseDecode_codeLen (s : State) : s.loseDecode.codeLen = s.codeLen := rfl
@[simp] theorem State.loseDecode_codeBits (s : State) : s.loseDecode.codeBits = s.codeBits := rfl
@[simp] theorem State.loseDecode_nodes (s : State) : s.loseDecode.nodes = s.nodes := rfl
@[simp] theorem State.loseDecode_inBuf (s : State) : s.loseDecode.inBuf = s.inBuf := rfl
@[simp] theorem State.loseDecode_outBuf (s : State) : s.loseDecode.outBuf = Memory.drawn s.draws := rfl
@[simp] theorem State.loseDecode_cfg (s : State) : s.loseDecode.cfg = s.cfg := rfl
@[simp] theorem State.loseDecode_inputs (s : State) : s.loseDecode.inputs = s.inputs := rfl
@[simp] theorem State.loseDecode_readData (s : State) : s.loseDecode.readData = s.readData := rfl
@[simp] theorem State.loseDecode_draws (s : State) : s.loseDecode.draws = s.draws + 1 := rfl

@[simp] theorem State.setTree_irqEn (s : State) (t : Tree) : (s.setTree t).irqEn = s.irqEn := rfl
@[simp] theorem State.setTree_status (s : State) (t : Tree) : (s.setTree t).status = s.status := rfl
@[simp] theorem State.setTree_cmd (s : State) (t : Tree) : (s.setTree t).cmd = s.cmd := rfl
@[simp] theorem State.setTree_inLen (s : State) (t : Tree) : (s.setTree t).inLen = s.inLen := rfl
@[simp] theorem State.setTree_outLen (s : State) (t : Tree) : (s.setTree t).outLen = s.outLen := rfl
@[simp] theorem State.setTree_bitLen (s : State) (t : Tree) : (s.setTree t).bitLen = s.bitLen := rfl
@[simp] theorem State.setTree_symCount (s : State) (t : Tree) : (s.setTree t).symCount = t.symCount := rfl
@[simp] theorem State.setTree_root (s : State) (t : Tree) : (s.setTree t).root = t.root := rfl
@[simp] theorem State.setTree_freq (s : State) (t : Tree) : (s.setTree t).freq = s.freq := rfl
@[simp] theorem State.setTree_codeLen (s : State) (t : Tree) : (s.setTree t).codeLen = s.codeLen := rfl
@[simp] theorem State.setTree_codeBits (s : State) (t : Tree) : (s.setTree t).codeBits = s.codeBits := rfl
@[simp] theorem State.setTree_nodes (s : State) (t : Tree) : (s.setTree t).nodes = t.nodes := rfl
@[simp] theorem State.setTree_inBuf (s : State) (t : Tree) : (s.setTree t).inBuf = s.inBuf := rfl
@[simp] theorem State.setTree_outBuf (s : State) (t : Tree) : (s.setTree t).outBuf = s.outBuf := rfl
@[simp] theorem State.setTree_cfg (s : State) (t : Tree) : (s.setTree t).cfg = s.cfg := rfl
@[simp] theorem State.setTree_inputs (s : State) (t : Tree) : (s.setTree t).inputs = s.inputs := rfl
@[simp] theorem State.setTree_readData (s : State) (t : Tree) : (s.setTree t).readData = s.readData := rfl
@[simp] theorem State.setTree_draws (s : State) (t : Tree) : (s.setTree t).draws = s.draws := rfl

@[simp] theorem State.storePayload_irqEn (s : State) (l : List Bool) : (s.storePayload l).irqEn = s.irqEn := rfl
@[simp] theorem State.storePayload_status (s : State) (l : List Bool) : (s.storePayload l).status = s.status := rfl
@[simp] theorem State.storePayload_cmd (s : State) (l : List Bool) : (s.storePayload l).cmd = s.cmd := rfl
@[simp] theorem State.storePayload_inLen (s : State) (l : List Bool) : (s.storePayload l).inLen = s.inLen := rfl
@[simp] theorem State.storePayload_outLen (s : State) (l : List Bool) :
    (s.storePayload l).outLen =
      BitVec.ofNat 32 (ceil8 l.length) := rfl
@[simp] theorem State.storePayload_bitLen (s : State) (l : List Bool) :
    (s.storePayload l).bitLen =
      BitVec.ofNat 64 l.length := rfl
@[simp] theorem State.storePayload_symCount (s : State) (l : List Bool) :
    (s.storePayload l).symCount =
      s.symCount := rfl
@[simp] theorem State.storePayload_root (s : State) (l : List Bool) : (s.storePayload l).root = s.root := rfl
@[simp] theorem State.storePayload_freq (s : State) (l : List Bool) : (s.storePayload l).freq = s.freq := rfl
@[simp] theorem State.storePayload_codeLen (s : State) (l : List Bool) : (s.storePayload l).codeLen = s.codeLen := rfl
@[simp] theorem State.storePayload_codeBits (s : State) (l : List Bool) :
    (s.storePayload l).codeBits =
      s.codeBits := rfl
@[simp] theorem State.storePayload_nodes (s : State) (l : List Bool) : (s.storePayload l).nodes = s.nodes := rfl
@[simp] theorem State.storePayload_inBuf (s : State) (l : List Bool) : (s.storePayload l).inBuf = s.inBuf := rfl
@[simp] theorem State.storePayload_outBuf (s : State) (l : List Bool) :
    (s.storePayload l).outBuf =
      s.outBuf.writeBytes 0 (packBytes l) := rfl
@[simp] theorem State.storePayload_cfg (s : State) (l : List Bool) : (s.storePayload l).cfg = s.cfg := rfl
@[simp] theorem State.storePayload_inputs (s : State) (l : List Bool) : (s.storePayload l).inputs = s.inputs := rfl
@[simp] theorem State.storePayload_readData (s : State) (l : List Bool) :
    (s.storePayload l).readData =
      s.readData := rfl
@[simp] theorem State.storePayload_draws (s : State) (l : List Bool) : (s.storePayload l).draws = s.draws := rfl

@[simp] theorem State.storeDecoded_irqEn (s : State) (d : Decoded) : (s.storeDecoded d).irqEn = s.irqEn := rfl
@[simp] theorem State.storeDecoded_status (s : State) (d : Decoded) :
    (s.storeDecoded d).status =
      { s.status with trunc := 2 ≤ s.symCount.toNat && d.node != s.root } := rfl
@[simp] theorem State.storeDecoded_cmd (s : State) (d : Decoded) : (s.storeDecoded d).cmd = s.cmd := rfl
@[simp] theorem State.storeDecoded_inLen (s : State) (d : Decoded) : (s.storeDecoded d).inLen = s.inLen := rfl
@[simp] theorem State.storeDecoded_outLen (s : State) (d : Decoded) :
    (s.storeDecoded d).outLen =
      BitVec.ofNat 32 d.bytes.length := rfl
@[simp] theorem State.storeDecoded_bitLen (s : State) (d : Decoded) : (s.storeDecoded d).bitLen = s.bitLen := rfl
@[simp] theorem State.storeDecoded_symCount (s : State) (d : Decoded) : (s.storeDecoded d).symCount = s.symCount := rfl
@[simp] theorem State.storeDecoded_root (s : State) (d : Decoded) : (s.storeDecoded d).root = s.root := rfl
@[simp] theorem State.storeDecoded_freq (s : State) (d : Decoded) : (s.storeDecoded d).freq = s.freq := rfl
@[simp] theorem State.storeDecoded_codeLen (s : State) (d : Decoded) : (s.storeDecoded d).codeLen = s.codeLen := rfl
@[simp] theorem State.storeDecoded_codeBits (s : State) (d : Decoded) : (s.storeDecoded d).codeBits = s.codeBits := rfl
@[simp] theorem State.storeDecoded_nodes (s : State) (d : Decoded) : (s.storeDecoded d).nodes = s.nodes := rfl
@[simp] theorem State.storeDecoded_inBuf (s : State) (d : Decoded) : (s.storeDecoded d).inBuf = s.inBuf := rfl
@[simp] theorem State.storeDecoded_outBuf (s : State) (d : Decoded) :
    (s.storeDecoded d).outBuf =
      s.outBuf.writeBytes 0 d.bytes := rfl
@[simp] theorem State.storeDecoded_cfg (s : State) (d : Decoded) : (s.storeDecoded d).cfg = s.cfg := rfl
@[simp] theorem State.storeDecoded_inputs (s : State) (d : Decoded) : (s.storeDecoded d).inputs = s.inputs := rfl
@[simp] theorem State.storeDecoded_readData (s : State) (d : Decoded) : (s.storeDecoded d).readData = s.readData := rfl
@[simp] theorem State.storeDecoded_draws (s : State) (d : Decoded) : (s.storeDecoded d).draws = s.draws := rfl

@[simp] theorem State.softReset_irqEn (s : State) : s.softReset.irqEn = State.reset.irqEn := rfl
@[simp] theorem State.softReset_status (s : State) : s.softReset.status = State.reset.status := rfl
@[simp] theorem State.softReset_cmd (s : State) : s.softReset.cmd = State.reset.cmd := rfl
@[simp] theorem State.softReset_inLen (s : State) : s.softReset.inLen = State.reset.inLen := rfl
@[simp] theorem State.softReset_outLen (s : State) : s.softReset.outLen = State.reset.outLen := rfl
@[simp] theorem State.softReset_bitLen (s : State) : s.softReset.bitLen = State.reset.bitLen := rfl
@[simp] theorem State.softReset_symCount (s : State) : s.softReset.symCount = State.reset.symCount := rfl
@[simp] theorem State.softReset_root (s : State) : s.softReset.root = State.reset.root := rfl
@[simp] theorem State.softReset_freq (s : State) : s.softReset.freq = State.reset.freq := rfl
@[simp] theorem State.softReset_codeLen (s : State) : s.softReset.codeLen = State.reset.codeLen := rfl
@[simp] theorem State.softReset_codeBits (s : State) : s.softReset.codeBits = State.reset.codeBits := rfl
@[simp] theorem State.softReset_nodes (s : State) : s.softReset.nodes = State.reset.nodes := rfl
@[simp] theorem State.softReset_inBuf (s : State) : s.softReset.inBuf = s.inBuf := rfl
@[simp] theorem State.softReset_outBuf (s : State) : s.softReset.outBuf = s.outBuf := rfl
@[simp] theorem State.softReset_cfg (s : State) : s.softReset.cfg = s.cfg := rfl
@[simp] theorem State.softReset_inputs (s : State) : s.softReset.inputs = s.inputs := rfl
@[simp] theorem State.softReset_readData (s : State) : s.softReset.readData = s.readData := rfl
@[simp] theorem State.softReset_draws (s : State) : s.softReset.draws = s.draws := rfl

@[simp] theorem State.powerOn_irqEn (s : State) : s.powerOn.irqEn = State.reset.irqEn := rfl
@[simp] theorem State.powerOn_status (s : State) : s.powerOn.status = State.reset.status := rfl
@[simp] theorem State.powerOn_cmd (s : State) : s.powerOn.cmd = State.reset.cmd := rfl
@[simp] theorem State.powerOn_inLen (s : State) : s.powerOn.inLen = State.reset.inLen := rfl
@[simp] theorem State.powerOn_outLen (s : State) : s.powerOn.outLen = State.reset.outLen := rfl
@[simp] theorem State.powerOn_bitLen (s : State) : s.powerOn.bitLen = State.reset.bitLen := rfl
@[simp] theorem State.powerOn_symCount (s : State) : s.powerOn.symCount = State.reset.symCount := rfl
@[simp] theorem State.powerOn_root (s : State) : s.powerOn.root = State.reset.root := rfl
@[simp] theorem State.powerOn_freq (s : State) : s.powerOn.freq = State.reset.freq := rfl
@[simp] theorem State.powerOn_codeLen (s : State) : s.powerOn.codeLen = State.reset.codeLen := rfl
@[simp] theorem State.powerOn_codeBits (s : State) : s.powerOn.codeBits = State.reset.codeBits := rfl
@[simp] theorem State.powerOn_nodes (s : State) : s.powerOn.nodes = State.reset.nodes := rfl
@[simp] theorem State.powerOn_inBuf (s : State) : s.powerOn.inBuf = Memory.drawn s.draws := rfl
@[simp] theorem State.powerOn_outBuf (s : State) : s.powerOn.outBuf = Memory.drawn (s.draws + 1) := rfl
@[simp] theorem State.powerOn_cfg (s : State) : s.powerOn.cfg = s.cfg := rfl
@[simp] theorem State.powerOn_inputs (s : State) : s.powerOn.inputs = s.inputs := rfl
@[simp] theorem State.powerOn_readData (s : State) : s.powerOn.readData = s.readData := rfl
@[simp] theorem State.powerOn_draws (s : State) : s.powerOn.draws = s.draws + 2 := rfl

end Sys2Proof.Machine
end

