-- ==== Sys2Proof/Laws/Ops.lean ====
section
/-! SUPPORT. What each shared operation can do, said once: the end of a command, each command's body, the decoder loop and
the packer loop, the bus, and one step. -/

namespace Sys2Proof.Machine

/-! ## Phases -/

@[simp] theorem Phase.finish_done (s : State) : (Phase.done s).finish = .next s.complete := rfl
@[simp] theorem Phase.finish_error (c : ErrCode) (s : State) : (Phase.error c s).finish = .next (s.raise c) := rfl
@[simp] theorem Phase.finish_endless : Phase.endless.finish = .fault .walkNeverEnds := rfl
@[simp] theorem Phase.andThen_done (s : State) (f : State → Phase) : (Phase.done s).andThen f = f s := rfl
@[simp] theorem Phase.andThen_error (c : ErrCode) (s : State) (f : State → Phase) :
    (Phase.error c s).andThen f = .error c s := rfl
@[simp] theorem Phase.andThen_endless (f : State → Phase) : Phase.endless.andThen f = .endless := rfl

/-- A command that answers a next state ended with exactly one of success and an error (R120). -/
theorem Phase.finish_next {p : Phase} {t : State} (h : p.finish = .next t) :
    (∃ s, p = .done s ∧ t = s.complete) ∨ ∃ c s, p = .error c s ∧ t = s.raise c := by
  cases p with
  | done s => exact .inl ⟨s, rfl, by simpa using h.symm⟩
  | error c s => exact .inr ⟨c, s, rfl, by simpa using h.symm⟩
  | endless => simp at h

/-- Where the second of two phases ran, the first had succeeded; where it did not, the first's end is the end (R205). -/
theorem Phase.andThen_cases (p : Phase) (f : State → Phase) :
    (∃ s, p = .done s ∧ p.andThen f = f s) ∨ ((∀ s, p ≠ .done s) ∧ p.andThen f = p) := by
  cases p with
  | done s => exact .inl ⟨s, rfl, rfl⟩
  | error c s => exact .inr ⟨fun _ h => (by simp at h), rfl⟩
  | endless => exact .inr ⟨fun _ h => (by simp at h), rfl⟩

/-! ## Bodies -/

theorem countBody_cases (s : State) :
    (s.cfg.inBytes < s.inLen.toNat ∧ countBody s = .error .lenRange s) ∨
    (s.inLen.toNat ≤ s.cfg.inBytes ∧
      countBody s = .done { s with freq := countBytes s.inputBytes, status := s.status.freqChanged }) := by
  by_cases h : s.cfg.inBytes < s.inLen.toNat
  · exact .inl ⟨h, by simp [countBody, h]⟩
  · exact .inr ⟨by omega, by simp [countBody, h]⟩

theorem genCodesBody_cases (s : State) :
    (s.status.treeValid = false ∧ genCodesBody s = .error .noTree s) ∨
    (s.status.treeValid = true ∧ codesOf s.tree = none ∧ genCodesBody s = .endless) ∨
    ∃ t, s.status.treeValid = true ∧ codesOf s.tree = some t ∧
      genCodesBody s = .done { s with codeLen := t.len, codeBits := t.bits, status := s.status.codesMade } := by
  cases h : s.status.treeValid with
  | false => exact .inl ⟨rfl, by simp [genCodesBody, h]⟩
  | true =>
    cases hc : codesOf s.tree with
    | none => exact .inr (.inl ⟨rfl, rfl, by simp [genCodesBody, h, hc]⟩)
    | some t => exact .inr (.inr ⟨t, rfl, rfl, by simp [genCodesBody, h, hc]⟩)

theorem encodeBody_cases (s : State) :
    (s.status.codesValid = false ∧ encodeBody s = .error .noCodes s) ∨
    (s.status.codesValid = true ∧ s.cfg.inBytes < s.inLen.toNat ∧ encodeBody s = .error .lenRange s) ∨
    (s.status.codesValid = true ∧ s.inLen.toNat ≤ s.cfg.inBytes ∧
      ((∃ e, emitCodes s.codes s.cfg.outBytes s.inputBytes 0 = .error e ∧ encodeBody s = .error e s.loseEncode) ∨
        ∃ bits, emitCodes s.codes s.cfg.outBytes s.inputBytes 0 = .ok bits ∧
          encodeBody s = .done (s.storePayload bits))) := by
  cases hv : s.status.codesValid with
  | false => exact .inl ⟨rfl, by simp [encodeBody, hv]⟩
  | true =>
    by_cases hl : s.cfg.inBytes < s.inLen.toNat
    · exact .inr (.inl ⟨rfl, hl, by simp [encodeBody, hv, hl]⟩)
    · refine .inr (.inr ⟨rfl, by omega, ?_⟩)
      cases he : emitCodes s.codes s.cfg.outBytes s.inputBytes 0 with
      | error e => exact .inl ⟨e, rfl, by simp [encodeBody, hv, hl, he]⟩
      | ok bits => exact .inr ⟨bits, rfl, by simp [encodeBody, hv, hl, he]⟩

theorem decodeBody_cases (s : State) :
    (∃ e, e ∈ [ErrCode.noTree, .lenRange, .bitLenRange, .emptyTree] ∧ decodeBody s = .error e s) ∨
    (s.symCount.toNat = 0 ∧ s.bitLen.toNat = 0 ∧
      decodeBody s = .done { s with outLen := 0#32, status := s.status.truncated false }) ∨
    (s.symCount.toNat ≠ 0 ∧ s.inLen.toNat ≤ s.cfg.inBytes ∧ s.bitLen.toNat ≤ 8 * s.inLen.toNat ∧
      ((∃ e, decodeBits s.tree s.cfg.outBytes (s.inBuf.stream s.bitLen.toNat) s.root 0 = .error e ∧
          decodeBody s = .error e s.loseDecode) ∨
        ∃ d, decodeBits s.tree s.cfg.outBytes (s.inBuf.stream s.bitLen.toNat) s.root 0 = .ok d ∧
          decodeBody s = .done (s.storeDecoded d))) := by
  unfold decodeBody
  cases hv : s.status.treeValid with
  | false => exact .inl ⟨.noTree, by simp⟩
  | true =>
    by_cases hl : s.cfg.inBytes < s.inLen.toNat
    · exact .inl ⟨.lenRange, by simp [hl]⟩
    by_cases hb : 8 * s.inLen.toNat < s.bitLen.toNat
    · exact .inl ⟨.bitLenRange, by simp [hl, hb]⟩
    by_cases hn : s.symCount.toNat = 0
    · by_cases hz : s.bitLen.toNat = 0
      · exact .inr (.inl ⟨hn, hz, by simp [hl, hn, hz]⟩)
      · exact .inl ⟨.emptyTree, by simp [hl, hb, hn, hz]⟩
    · refine .inr (.inr ⟨hn, by omega, by omega, ?_⟩)
      cases hd : decodeBits s.tree s.cfg.outBytes (s.inBuf.stream s.bitLen.toNat) s.root 0 with
      | error e => exact .inl ⟨e, rfl, by simp [hl, hb, hn]⟩
      | ok d => exact .inr ⟨d, rfl, by simp [hl, hb, hn]⟩

/-! ## The loops -/

/-- The packer loop: where it ends with a stream, every byte has a code, the stream is the codes one after another, and it
fits. -/
theorem emitCodes_ok {t : CodeTable} {size : Nat} {bs : List Byte} {b : Nat} {bits : List Bool}
    (h : emitCodes t size bs b = .ok bits) :
    (∀ c ∈ bs, (SymTable.at t.len c).toNat ≠ 0) ∧
    bits = (bs.flatMap fun c => codeBitList (SymTable.at t.bits c) (SymTable.at t.len c).toNat) ∧
    (bs ≠ [] → ceil8 (b + bits.length) ≤ size) := by
  induction bs generalizing b bits with
  | nil => simp [emitCodes] at h; simp [← h]
  | cons c rest ih =>
    unfold emitCodes at h
    split at h
    · simp at h
    · rename_i h₀
      split at h
      · simp at h
      · rename_i h₁
        split at h
        · simp at h
        · rename_i bits' he
          obtain ⟨i₁, i₂, i₃⟩ := ih he
          injection h with h
          subst h
          refine ⟨?_, by simp [i₂], fun _ => ?_⟩
          · intro x hx
            rcases List.mem_cons.mp hx with rfl | hx
            · exact h₀
            · exact i₁ x hx
          · by_cases hr : rest = []
            · subst hr; simp at i₂; subst i₂; simp; omega
            · have := i₃ hr
              simpa [Nat.add_assoc] using this

/-- The decoder loop never emits more bytes than fit. -/
theorem decodeBits_ok {t : Tree} {size : Nat} {l : List Bool} {node : NodeIdx} {m : Nat} {d : Decoded} (hm : m ≤ size)
    (h : decodeBits t size l node m = .ok d) : m + d.bytes.length ≤ size := by
  induction l generalizing node m d with
  | nil => simp [decodeBits] at h; subst h; simpa using hm
  | cons bit rest ih =>
    have cons_case : ∀ {b : Byte} {r : Except ErrCode Decoded} {d : Decoded}, Decoded.cons b r = .ok d →
        ∃ d', r = .ok d' ∧ d.bytes.length = d'.bytes.length + 1 := by
      intro b r d hd
      cases r with
      | error e => simp [Decoded.cons] at hd
      | ok d' => simp [Decoded.cons] at hd; exact ⟨d', rfl, by simp [← hd]⟩
    unfold decodeBits at h
    split at h
    · split at h
      · simp at h
      · split at h
        · simp at h
        · obtain ⟨d', hd, hl⟩ := cons_case h
          have := ih (by omega) hd
          omega
    · split at h
      · split at h
        · simp at h
        · obtain ⟨d', hd, hl⟩ := cons_case h
          have := ih (by omega) hd
          omega
      · exact ih hm h

/-! ## The bus and the step -/

/-- A HOST read records a value, and while busy may use up one draw; it changes nothing else (R85, R93). -/
theorem State.hostRead_cases (s : State) (off : Offset) :
    (s.status.busy = true ∧ (locOf s.cfg off).inW = true ∧
      s.hostRead off = { s with readData := some (Config.freeWord s.draws), draws := s.draws + 1 }) ∨
    ((s.status.busy = false ∨ (locOf s.cfg off).inW = false) ∧
      s.hostRead off = { s with readData := some (s.wordAt (locOf s.cfg off)) }) := by
  cases hb : s.status.busy <;> cases hw : (locOf s.cfg off).inW <;> simp [State.hostRead, hb, hw]

/-- A plain HOST write is dropped with HAZ set, or done (R251). -/
theorem State.plainWrite_cases (s : State) (off : Offset) (v : Word) :
    (s.status.busy = true ∧ (locOf s.cfg off).heldWhileBusy = true ∧ s.plainWrite off v = s.dropped) ∨
    ((s.status.busy = false ∨ (locOf s.cfg off).heldWhileBusy = false) ∧
      s.plainWrite off v = s.writeLoc v (locOf s.cfg off)) := by
  cases hb : s.status.busy <;> cases hw : (locOf s.cfg off).heldWhileBusy <;> simp [State.plainWrite, hb, hw]

/-- A HOST write is SOFT_RESET (CTRL with bit 1 set) or plain (R104). -/
theorem hostWrite_cases (off : Offset) (v : Word) (s : State) :
    (locOf s.cfg off = .ctrl ∧ v.getLsbD 1 = true ∧ hostWrite off v s = exec (.softReset v) s) ∨
    ((locOf s.cfg off ≠ .ctrl ∨ v.getLsbD 1 = false) ∧ hostWrite off v s = .next (s.plainWrite off v)) := by
  by_cases hl : locOf s.cfg off = .ctrl
  · cases hv : v.getLsbD 1 with
    | true =>
      have hd : decodeCtrl v = .ok (.softReset v) := by unfold decodeCtrl; rw [hv]; rfl
      exact .inl ⟨hl, rfl, by simp [hostWrite, writtenInstr, hl, hd, decoded]⟩
    | false =>
      have hd : decodeCtrl v = .error .noSoftReset := by unfold decodeCtrl; rw [hv]; rfl
      exact .inr ⟨.inr rfl, by simp [hostWrite, writtenInstr, hl, hd, decoded]⟩
  · exact .inr ⟨.inl hl, by simp [hostWrite, writtenInstr, hl]⟩

/-- The CORE step runs the decoded command, or reports ILLEGAL_CMD (R120, R102). -/
theorem coreStep_cases (s : State) :
    (∃ i, decodeCmd s.cmd = .ok i ∧ coreStep s = exec i s) ∨
    ((∃ e, decodeCmd s.cmd = .error e) ∧ coreStep s = .next (s.raise .illegalCmd)) := by
  unfold coreStep
  cases h : decodeCmd s.cmd with
  | ok i => exact .inl ⟨i, rfl, rfl⟩
  | error e => exact .inr ⟨⟨e, rfl⟩, rfl⟩

@[simp] theorem step_nil (s : State) (h : s.inputs = []) : step s = coreTurn s := by simp [step, h]

theorem step_cons (s : State) (e : Event) (rest : List Event) (h : s.inputs = e :: rest) :
    step s = handle e { s with inputs := rest } := by simp [step, h]

end Sys2Proof.Machine
end

