-- ==== Sys2Proof/Laws/PerInstr.lean ====
section
/-! SUPPORT. A statement about every instruction, one lemma per constructor: its encoding is a word of its row of the opcode
table (spec/30_encoding.md R101, R104). -/

namespace Sys2Proof.Laws.TableWord

/-- The encoding of a well-formed instruction goes to its row's port and meets its row's mask and match. -/
def Statement (i : Instr) : Prop :=
  i.wellFormed = true →
    (Sys2Proof.encode i).1 = (tableRow i).1 ∧ (Sys2Proof.encode i).2 &&& (tableRow i).2.1 = (tableRow i).2.2

theorem nop : Statement .nop := by intro _; decide
theorem clearFreq : Statement .clearFreq := by intro _; decide
theorem count : Statement .count := by intro _; decide
theorem buildTree : Statement .buildTree := by intro _; decide
theorem genCodes : Statement .genCodes := by intro _; decide
theorem encode : Statement .encode := by intro _; decide
theorem decode : Statement .decode := by intro _; decide
theorem compress : Statement .compress := by intro _; decide
theorem decompress : Statement .decompress := by intro _; decide

theorem softReset (v : Word) : Statement (.softReset v) := by
  intro h
  refine ⟨rfl, ?_⟩
  have h' : v.getLsbD 1 = true := h
  show v &&& 0x00000002#32 = 0x00000002#32
  apply BitVec.eq_of_getLsbD_eq
  intro i hi
  by_cases h₁ : i = 1
  · subst h₁; simp [h']
  · have : (0x00000002#32).getLsbD i = false := by
      have : (0x00000002#32) = BitVec.twoPow 32 1 := by decide
      rw [this, BitVec.getLsbD_twoPow]; simp; omega
    simp [BitVec.getLsbD_and, this]

end Sys2Proof.Laws.TableWord
end

