-- ==== Sys2Proof/Tests/Slice0.lean ====
section
/-! SUPPORT. The model's own tests: words written out from spec/30_encoding.md, one-step vectors of spec/95_test_vectors.md
(V<n> in a test's comment), and for every statement with hypotheses a witness that meets them. -/

set_option Elab.async false

namespace Sys2Proof.Tests

open Sys2Proof Sys2Proof.Machine

/-! ## Helpers -/

def isNext (o : Host.Outcome State Fault Refusal) : Bool :=
  match o with
  | .next _ => true
  | .fault _ => false
  | .refused _ => false

/-- The next state, where there is one. -/
def after (o : Host.Outcome State Fault Refusal) : State :=
  match o with
  | .next t => t
  | .fault _ => State.reset
  | .refused _ => State.reset

theorem next_after {o : Host.Outcome State Fault Refusal} (h : isNext o = true) : o = .next (after o) := by
  cases o <;> simp_all [isNext, after]

def withFreq (l : List (Byte × Word)) : State :=
  { State.reset with freq := l.foldl (fun f p => SymTable.put f p.1 p.2) (Vector.replicate 256 0#32) }

def withIn (s : State) (bs : List Byte) : State :=
  { s with inBuf := s.inBuf.writeBytes 0 bs, inLen := BitVec.ofNat 32 bs.length }

/-- The tree of FREQ, valid. -/
def withTree (s : State) : State :=
  { s.setTree (treeOf s.freq) with status := { s.status with treeValid := true } }

/-- The codes of the tree, valid. -/
def withCodes (s : State) : State :=
  match codesOf s.tree with
  | some t => { s with codeLen := t.len, codeBits := t.bits, status := { s.status with codesValid := true } }
  | none => s

def withOutBytes (s : State) (n : Nat) : State := { s with cfg := { s.cfg with outBytes := n } }

def withBits (s : State) (n : Nat) : State := { s with bitLen := BitVec.ofNat 64 n }

def busy (s : State) : State := { s with status := { s.status with busy := true } }

/-- FREQ of "abracadabra", "ab", the tie of V14, and "aaaaaaaaaa". -/
def abra : State := withFreq [(0x61, 5), (0x62, 2), (0x63, 1), (0x64, 1), (0x72, 2)]
def ab : State := withFreq [(0x61, 1), (0x62, 1)]
def abc : State := withFreq [(0x61, 1), (0x62, 1), (0x63, 2)]
def aaa : State := withFreq [(0x61, 10)]
def abraBytes : List Byte := [0x61, 0x62, 0x72, 0x61, 0x63, 0x61, 0x64, 0x61, 0x62, 0x72, 0x61]

def outBytes (s : State) (n : Nat) : List Byte := (List.range n).map s.outBuf.read

theorem withCodes_tree (s : State) : (withCodes s).tree = s.tree := by
  unfold withCodes; split <;> rfl

theorem withCodes_freq (s : State) : (withCodes s).freq = s.freq := by
  unfold withCodes; split <;> rfl

theorem withCodes_codes {s : State} (h : (codesOf s.tree).isSome = true) :
    codesOf (withCodes s).tree = some (withCodes s).codes := by
  obtain ⟨t, ht⟩ := Option.isSome_iff_exists.mp h
  rw [withCodes_tree, ht]
  simp [withCodes, ht, State.codes]

/-! ## Well-formedness and decoding -/

theorem test_wellFormed_refuses_softReset_without_bit_1 : (Instr.softReset 0xFFFFFFFD#32).wellFormed = false := by decide

theorem test_decode_nop : decodeCmd 0b00000000000000000000000000000000#32 = .ok .nop := by decide
theorem test_decode_clearFreq : decodeCmd 0b00000000000000000000000000000001#32 = .ok .clearFreq := by decide
theorem test_decode_count : decodeCmd 0b00000000000000000000000000000010#32 = .ok .count := by decide
theorem test_decode_buildTree : decodeCmd 0b00000000000000000000000000000011#32 = .ok .buildTree := by decide
theorem test_decode_genCodes : decodeCmd 0b00000000000000000000000000000100#32 = .ok .genCodes := by decide
theorem test_decode_encode : decodeCmd 0b00000000000000000000000000000101#32 = .ok .encode := by decide
theorem test_decode_decode : decodeCmd 0b00000000000000000000000000000110#32 = .ok .decode := by decide
theorem test_decode_compress : decodeCmd 0b00000000000000000000000000000111#32 = .ok .compress := by decide
theorem test_decode_decompress : decodeCmd 0b00000000000000000000000000001000#32 = .ok .decompress := by decide
/-- CTRL32: bits 0 and 31:2 do not matter (R104). -/
theorem test_decode_softReset :
    decodeCtrl 0b10000000000000000000000000000011#32 = .ok (.softReset 0x80000003#32) := by decide
/-- V69 and V70's words, and a plain CTRL write. -/
theorem test_decode_rejects :
    decodeCmd 0x00000009#32 = .error .unassignedOpcode ∧ decodeCmd 0x00000103#32 = .error .mbzNotZero ∧
      decodeCtrl 0x00000001#32 = .error .noSoftReset := by decide
/-- The two formats share the table's numbering (log 10). -/
theorem test_decodeTableWord_ports :
    decodeTableWord 32 2 = some .count ∧ decodeTableWord 8 2 = some (.softReset 0x00000002#32) ∧
      decodeTableWord 32 0xFFFFFFFE = some (.softReset 0xFFFFFFFE#32) ∧ decodeTableWord 32 9 = none := by decide
/-- No two rows of one port overlap. -/
theorem test_rows_disjoint :
    ([Instr.nop, .clearFreq, .count, .buildTree, .genCodes, .encode, .decode, .compress, .decompress].map
      fun i => (tableRow i).2.2).Nodup := by decide

/-! ## One step each -/

/-- V1 through the fetch word: the step runs NOP from reset. -/
theorem test_fetch_nop : (after (step (State.reset.withFetchWord 32 0))).status.word = 0x00000002#32 := by decide +kernel
/-- V78's SOFT_RESET word, as the very next step. -/
theorem test_fetch_softReset :
    (after (step ((aaa.dropped).withFetchWord 8 2))).status.word = 0#32 ∧
      SymTable.at (after (step ((aaa.dropped).withFetchWord 8 2))).freq 0x61 = 0#32 := by decide +kernel
/-- V2. -/
theorem test_nop_keeps_valid_flags :
    (after (exec .nop (withCodes (withTree ab)))).status.word = 0x00000032#32 := by decide +kernel
/-- V3. -/
theorem test_clearFreq :
    (after (exec .clearFreq (withTree aaa))).status.word = 0x00000002#32 ∧
      SymTable.at (after (exec .clearFreq (withTree aaa))).freq 0x61 = 0#32 ∧
      (after (exec .clearFreq (withTree aaa))).symCount = 1#9 := by decide +kernel
/-- V5: COUNT replaces, it does not accumulate. -/
theorem test_count_replaces :
    [0x00, 0x61, 0x62, 0x63, 0x64, 0x72].map
      (SymTable.at (after (exec .count (withIn (withFreq [(0x00, 9)]) abraBytes))).freq) =
      [0, 5, 2, 1, 1, 2] := by decide +kernel
/-- V8. -/
theorem test_count_lenRange :
    (after (exec .count { aaa with inLen := 65540#32 })).status.word = 0x00000206#32 ∧
      SymTable.at (after (exec .count { aaa with inLen := 65540#32 })).freq 0x61 = 10#32 := by decide +kernel
/-- V14: a leaf beats an internal node of equal weight. -/
theorem test_buildTree_tie :
    (after (exec .buildTree abc)).root = 4#9 ∧
      (NodeStore.at (after (exec .buildTree abc)).nodes 3).info = 0x80020000#32 ∧
      (NodeStore.at (after (exec .buildTree abc)).nodes 4).info = 0x80060200#32 := by decide +kernel
/-- V13: the "abracadabra" tree. -/
theorem test_buildTree_abracadabra :
    [5, 6, 7, 8].map (fun i => (NodeStore.at (after (exec .buildTree abra)).nodes i).info) =
      [0x80060200#32, 0x80080100#32, 0x800C0500#32, 0x800E0000#32] := by decide +kernel
/-- V19. -/
theorem test_genCodes_abracadabra :
    [0x61, 0x62, 0x63, 0x64, 0x72].map (SymTable.at (after (exec .genCodes (withTree abra))).codeBits) =
      [0, 6, 4, 5, 7] := by decide +kernel
/-- V21: the one-leaf code is "0", not empty. -/
theorem test_genCodes_single :
    SymTable.at (after (exec .genCodes (withTree aaa))).codeLen 0x61 = 1#8 := by decide +kernel
/-- V30. -/
theorem test_encode_abracadabra :
    outBytes (after (exec .encode (withIn (withCodes (withTree abra)) abraBytes))) 3 = [0x6E, 0x8A, 0xDC] ∧
      (after (exec .encode (withIn (withCodes (withTree abra)) abraBytes))).bitLen = 23#64 := by decide +kernel
/-- V35. -/
theorem test_encode_symAbsent :
    (after (exec .encode (withIn (withCodes (withTree ab)) [0x61, 0x62, 0x63]))).status.word = 0x00000536#32 := by
  decide +kernel
/-- V46: truncation. -/
theorem test_decode_truncated :
    (after (exec .decode (withBits (withIn (withTree abra) [0x6E, 0x8A, 0xDC]) 21))).status.word = 0x0000001A#32 ∧
      (after (exec .decode (withBits (withIn (withTree abra) [0x6E, 0x8A, 0xDC]) 21))).outLen = 9#32 := by
  decide +kernel
/-- V54. -/
theorem test_decode_badPath :
    (after (exec .decode (withBits (withIn (withTree aaa) [0x20]) 3))).status.word = 0x00000816#32 := by decide +kernel
/-- V61. -/
theorem test_compress_abracadabra :
    outBytes (after (exec .compress (withIn State.reset abraBytes))) 3 = [0x6E, 0x8A, 0xDC] ∧
      (after (exec .compress (withIn State.reset abraBytes))).status.word = 0x00000032#32 := by decide +kernel
/-- V62. -/
theorem test_compress_empty :
    (after (exec .compress (withIn State.reset []))).status.word = 0x00000032#32 ∧
      (after (exec .compress (withIn State.reset []))).root = 0x1FF#9 := by decide +kernel
/-- V66. -/
theorem test_decompress_abracadabra :
    outBytes (after (exec .decompress (withBits (withIn abra [0x6E, 0x8A, 0xDC]) 23))) 11 = abraBytes ∧
      (after (exec .decompress (withBits (withIn abra [0x6E, 0x8A, 0xDC]) 23))).status.word = 0x00000012#32 := by
  decide +kernel
/-- V68: the tree is rebuilt before BITLEN_RANGE. -/
theorem test_decompress_bitLenRange :
    (after (exec .decompress (withBits (withIn abra [0x6E, 0x8A]) 23))).status.word = 0x00000716#32 ∧
      (after (exec .decompress (withBits (withIn abra [0x6E, 0x8A]) 23))).root = 8#9 := by decide +kernel
/-- V75: SOFT_RESET while busy is dropped whole. -/
theorem test_softReset_busy :
    (after (exec (.softReset 3#32) (busy aaa))).status.word = 0x00000041#32 ∧
      SymTable.at (after (exec (.softReset 3#32) (busy aaa))).freq 0x61 = 10#32 := by decide +kernel
/-- V81. -/
theorem test_read_ignores_low_bits :
    (after (step { State.reset with inputs := [.read 0x3#22] })).readData = some 0x00465048#32 := by decide +kernel

/-- R39, I19: the reserved fourth word of a NODE slot reads 0 while busy too, here of a valid slot. -/
theorem test_busy_read_of_reserved_node_word :
    (after (step { busy (withTree aaa) with inputs := [.read 0x400C#22] })).readData = some 0#32 := by decide +kernel

/-! ## Witnesses: for each statement with hypotheses, a state and operands that meet them, clause by clause -/

theorem witness_IllegalWord_idle :
    (0x00000009#32).extractLsb' 8 24 = 0 ∧ 0x09 ≤ ((0x00000009#32).extractLsb' 0 8).toNat ∧
      State.reset.status.busy = false := by decide

theorem witness_IllegalWord_busy :
    (0x00000100#32).extractLsb' 8 24 ≠ 0 ∧ (State.reset.accept 0x00000100#32).status.busy = true ∧
      (State.reset.accept 0x00000100#32).cmd = 0x00000100#32 := by decide

theorem witness_StepRuns_core :
    (State.reset.accept 0x00000008#32).status.busy = true ∧
      decodeWord .cmd (State.reset.accept 0x00000008#32).cmd = .ok .decompress := by decide

theorem witness_StepRuns_ctrl :
    (0x00B#22 : Offset).toNat / 4 = 2 ∧ (0x00000002#32 : Word).getLsbD 1 = true := by decide

theorem witness_CoreStepIsEnabledOnlyWhileBusy : State.reset.status.busy = false := by decide

theorem witness_ClearFreq_empty : ∀ b, SymTable.at State.reset.freq b = 0#32 := by
  intro b; simp [SymTable.at, State.reset]

theorem witness_Count_lenRange :
    State.reset.cfg.wf = true ∧ State.reset.cfg.inBytes < ({ State.reset with inLen := 65537#32 } : State).inLen.toNat := by
  decide

theorem witness_Count_fits :
    State.reset.cfg.wf = true ∧ ({ State.reset with inLen := 65536#32 } : State).inLen.toNat ≤ State.reset.cfg.inBytes := by
  decide

theorem witness_RootWeight_and_Depth : 1 ≤ presentCount aaa.freq := by decide +kernel

/-- An internal node exists (BuildTreeLaysOutTheNodeStore, BuildTreeJoinsTheTwoLowestKeys), the lowest and the highest. -/
theorem witness_BuildTree_internal :
    presentCount ab.freq ≤ 2 ∧ 2 < 2 * presentCount ab.freq - 1 ∧ presentCount abra.freq ≤ 8 ∧
      8 < 2 * presentCount abra.freq - 1 := by decide +kernel

theorem treeOk_withTree (s : State) : (withTree s).treeOk := fun _ => rfl

theorem treeOk_accept (s : State) (v : Word) : ((withTree s).accept v).treeOk := fun _ => rfl

theorem witness_AbsentSymbols :
    (withTree State.reset).status.treeValid = true ∧ (withTree State.reset).treeOk ∧
      (withTree State.reset).symCount.toNat = 0 ∧ SymTable.at State.reset.freq 0xFF = 0#32 :=
  ⟨rfl, treeOk_withTree _, by decide +kernel, by decide⟩

/-- The clause about ENCODE: the emptied code table, and one input byte. -/
theorem witness_AbsentSymbols_encode :
    (withIn (withCodes (withTree State.reset)) [0xFF]).status.codesValid = true ∧
      (withIn (withCodes (withTree State.reset)) [0xFF]).inLen.toNat = 1 ∧
      (withIn (withCodes (withTree State.reset)) [0xFF]).codeLen = (after (exec .genCodes (withTree State.reset))).codeLen ∧
      (withIn (withCodes (withTree State.reset)) [0xFF]).inBuf.read 0 = 0xFF := by decide +kernel

theorem witness_SingleLeafCode :
    (withTree aaa).status.treeValid = true ∧ (withTree aaa).symCount.toNat = 1 ∧ (withTree aaa).treeOk ∧
      SymTable.at (withTree aaa).freq 0x61 ≠ 0#32 :=
  ⟨rfl, by decide +kernel, treeOk_withTree _, by decide +kernel⟩

/-- CodesAreRootToLeafPaths, CodesArePrefixFree, KraftSumIsOne. -/
theorem witness_Codes :
    (withTree ab).status.treeValid = true ∧ (withTree ab).treeOk ∧ 2 ≤ presentCount (withTree ab).freq ∧
      SymTable.at (withTree ab).freq 0x61 ≠ 0#32 ∧ SymTable.at (withTree ab).freq 0x62 ≠ 0#32 :=
  ⟨rfl, treeOk_withTree _, by decide +kernel, by decide +kernel, by decide +kernel⟩

theorem witness_PreconditionErrors_invalid :
    State.reset.status.treeValid = false ∧ State.reset.status.codesValid = false := by decide

theorem witness_PreconditionErrors_encode_lenRange :
    ({ withCodes (withTree ab) with inLen := 65537#32 } : State).status.codesValid = true ∧
      ({ withCodes (withTree ab) with inLen := 65537#32 } : State).cfg.inBytes < 65537 := by decide +kernel

theorem witness_PreconditionErrors_decode_lenRange :
    (withTree ab).status.treeValid = true ∧ (withTree ab).cfg.inBytes < 65537 := by decide +kernel

theorem witness_PreconditionErrors_decode_bitLenRange :
    (withBits (withIn (withTree ab) [0x40]) 9).status.treeValid = true ∧
      (withBits (withIn (withTree ab) [0x40]) 9).inLen.toNat ≤ (withTree ab).cfg.inBytes ∧
      8 * (withBits (withIn (withTree ab) [0x40]) 9).inLen.toNat < (withBits (withIn (withTree ab) [0x40]) 9).bitLen.toNat :=
  by decide +kernel

/-- An exact fit (V38): 32 one-bit codes in 4 bytes. -/
def packFit : State := withOutBytes (withIn (withCodes (withTree aaa)) (List.replicate 32 0x61)) 4

theorem witness_EncodePacks :
    packFit.cfg.wf = true ∧ packFit.status.codesValid = true ∧ packFit.inLen.toNat ≤ packFit.cfg.inBytes ∧
      (∀ b ∈ packFit.inputBytes, SymTable.at packFit.codeLen b ≠ 0#8) ∧
      ceil8 (packFit.codes.streamOf packFit.inputBytes).length ≤ packFit.cfg.outBytes := by decide +kernel

/-- V35: SYM_ABSENT at i = 2. -/
def packAbsent : State := withIn (withCodes (withTree ab)) [0x61, 0x62, 0x63]

theorem witness_EncodeStreamError_symAbsent :
    packAbsent.status.codesValid = true ∧ packAbsent.inLen.toNat ≤ packAbsent.cfg.inBytes ∧ 2 < packAbsent.inLen.toNat ∧
      (∀ b ∈ packAbsent.inputBytes.take 2, SymTable.at packAbsent.codeLen b ≠ 0#8) ∧
      ceil8 (packAbsent.codes.streamOf (packAbsent.inputBytes.take 2)).length ≤ packAbsent.cfg.outBytes ∧
      SymTable.at packAbsent.codeLen (packAbsent.inBuf.read 2) = 0#8 := by decide +kernel

/-- V39: OUT_OVERFLOW at i = 32. -/
def packOver : State := withOutBytes (withIn (withCodes (withTree aaa)) (List.replicate 33 0x61)) 4

theorem witness_EncodeStreamError_outOverflow :
    packOver.status.codesValid = true ∧ packOver.inLen.toNat ≤ packOver.cfg.inBytes ∧ 32 < packOver.inLen.toNat ∧
      (∀ b ∈ packOver.inputBytes.take 32, SymTable.at packOver.codeLen b ≠ 0#8) ∧
      ceil8 (packOver.codes.streamOf (packOver.inputBytes.take 32)).length ≤ packOver.cfg.outBytes ∧
      SymTable.at packOver.codeLen (packOver.inBuf.read 32) ≠ 0#8 ∧
      packOver.cfg.outBytes <
        ceil8 ((packOver.codes.streamOf (packOver.inputBytes.take 32)).length +
          (SymTable.at packOver.codeLen (packOver.inBuf.read 32)).toNat) := by decide +kernel

theorem witness_EmptyTree_decodes :
    (withTree State.reset).status.treeValid = true ∧ (withTree State.reset).symCount.toNat = 0 ∧
      (withTree State.reset).inLen.toNat ≤ (withTree State.reset).cfg.inBytes ∧
      (withTree State.reset).bitLen.toNat = 0 := by decide +kernel

/-- V57. -/
theorem witness_EmptyTree_fails :
    (withBits (withIn (withTree State.reset) [0x00]) 1).status.treeValid = true ∧
      (withBits (withIn (withTree State.reset) [0x00]) 1).symCount.toNat = 0 ∧
      (withBits (withIn (withTree State.reset) [0x00]) 1).inLen.toNat ≤ 65536 ∧
      (withBits (withIn (withTree State.reset) [0x00]) 1).bitLen.toNat ≤ 8 ∧
      0 < (withBits (withIn (withTree State.reset) [0x00]) 1).bitLen.toNat := by decide +kernel

/-- Four symbols into OUT_BYTES = 4. -/
def oneLeaf : State := withOutBytes (withBits (withIn (withTree aaa) [0x08]) 4) 4

theorem witness_SingleLeaf_zeros :
    oneLeaf.cfg.wf = true ∧ oneLeaf.status.treeValid = true ∧ oneLeaf.symCount.toNat = 1 ∧
      oneLeaf.inLen.toNat ≤ oneLeaf.cfg.inBytes ∧ oneLeaf.bitLen.toNat ≤ 8 * oneLeaf.inLen.toNat ∧
      (∀ k, k < oneLeaf.bitLen.toNat → oneLeaf.inBuf.streamBit k = false) ∧ oneLeaf.bitLen.toNat ≤ oneLeaf.cfg.outBytes := by
  decide +kernel

/-- A 1 bit where OUT is already full: BAD_PATH, not OUT_OVERFLOW (R218). -/
theorem witness_SingleLeaf_badPath :
    (withBits oneLeaf 5).bitLen.toNat ≤ 8 * (withBits oneLeaf 5).inLen.toNat ∧ 4 < (withBits oneLeaf 5).bitLen.toNat ∧
      4 ≤ oneLeaf.cfg.outBytes ∧ (∀ j, j < 4 → oneLeaf.inBuf.streamBit j = false) ∧ oneLeaf.inBuf.streamBit 4 = true := by
  decide +kernel

/-- Five 0 bits into OUT_BYTES = 4. -/
def oneLeafOver : State := withOutBytes (withBits (withIn (withTree aaa) [0x00]) 5) 4

theorem witness_SingleLeaf_overflow :
    oneLeafOver.cfg.wf = true ∧ oneLeafOver.symCount.toNat = 1 ∧
      oneLeafOver.bitLen.toNat ≤ 8 * oneLeafOver.inLen.toNat ∧ oneLeafOver.cfg.outBytes < oneLeafOver.bitLen.toNat ∧
      ∀ k, k < 5 → oneLeafOver.inBuf.streamBit k = false := by decide +kernel

/-- The codes of the tie tree (V24): 'c' "0", 'a' "10", 'b' "11"; the stream "0 10 1": two symbols and a rest. -/
def walkState : State := withBits (withIn (withTree abc) [0x50]) 4

theorem staysInside_of_decide {st : NodeStore} {i : NodeIdx} {p : List Bool} {n : Nat}
    (h : ∀ k, k < n → 0 < k → k ≤ p.length → (NodeStore.at st (pathFrom st i (p.take k)).toNat).leaf = false) :
    StaysInside st i p n := fun k h₀ h₁ h₂ => h k h₁ h₀ h₂

theorem witness_DecodeWalks_fits :
    walkState.cfg.wf = true ∧ walkState.status.treeValid = true ∧ 2 ≤ walkState.symCount.toNat ∧
      walkState.inLen.toNat ≤ walkState.cfg.inBytes ∧ walkState.bitLen.toNat ≤ 8 * walkState.inLen.toNat ∧
      walkState.inBuf.stream walkState.bitLen.toNat = ([[false], [true, false]]).flatten ++ [true] ∧
      LeadsToLeaf walkState.nodes walkState.root [false] 0x63 ∧
      LeadsToLeaf walkState.nodes walkState.root [true, false] 0x61 ∧
      StaysInside walkState.nodes walkState.root [true] 2 ∧ 2 ≤ walkState.cfg.outBytes :=
  ⟨by decide +kernel, by decide +kernel, by decide +kernel, by decide +kernel, by decide +kernel, by decide +kernel,
    ⟨by decide, staysInside_of_decide (by decide +kernel), by decide +kernel, by decide +kernel⟩,
    ⟨by decide, staysInside_of_decide (by decide +kernel), by decide +kernel, by decide +kernel⟩,
    staysInside_of_decide (by decide +kernel), by decide +kernel⟩

/-- Five symbols into OUT_BYTES = 4. -/
def walkOver : State := withOutBytes (withBits (withIn (withTree abc) [0x00]) 5) 4

theorem witness_DecodeWalks_overflow :
    walkOver.cfg.wf = true ∧ 2 ≤ walkOver.symCount.toNat ∧ walkOver.bitLen.toNat ≤ 8 * walkOver.inLen.toNat ∧
      walkOver.inBuf.stream walkOver.bitLen.toNat = (List.replicate 5 [false]).flatten ++ [] ∧
      LeadsToLeaf walkOver.nodes walkOver.root [false] 0x63 ∧ StaysInside walkOver.nodes walkOver.root [] 1 ∧
      walkOver.cfg.outBytes < 5 :=
  ⟨by decide +kernel, by decide +kernel, by decide +kernel, by decide +kernel,
    ⟨by decide, staysInside_of_decide (by decide +kernel), by decide +kernel, by decide +kernel⟩,
    staysInside_of_decide (by decide +kernel), by decide +kernel⟩

/-- V51's idea: the padding after the second bit differs. -/
theorem witness_DecodeNeverReadsPadding :
    ∀ k, k < (withBits (withIn (withTree ab) [0x40]) 2).bitLen.toNat →
      (State.reset.inBuf.writeBytes 0 [0x7F]).streamBit k =
        (withBits (withIn (withTree ab) [0x40]) 2).inBuf.streamBit k := by decide +kernel

def encIn : State := withIn (withCodes (withTree ab)) [0x61, 0x62]
def encOut : State := after (exec .encode encIn)
def decIn : State := { encIn with inBuf := encOut.outBuf, inLen := encOut.outLen, bitLen := encOut.bitLen }

theorem coded_tree (s : State) (bs : List Byte) :
    (withIn (withCodes (withTree s)) bs).tree = treeOf (withIn (withCodes (withTree s)) bs).freq := by
  show (withCodes (withTree s)).tree = treeOf (withCodes (withTree s)).freq
  rw [withCodes_tree, withCodes_freq]
  rfl

theorem coded_codes (s : State) (bs : List Byte) (h : (codesOf (withTree s).tree).isSome = true) :
    codesOf (withIn (withCodes (withTree s)) bs).tree = some (withIn (withCodes (withTree s)) bs).codes :=
  withCodes_codes h

theorem encIn_tree : encIn.tree = treeOf encIn.freq := coded_tree ab _

theorem encIn_codes : codesOf encIn.tree = some encIn.codes := coded_codes ab _ (by decide +kernel)

theorem treeOk_of_tree {s : State} (h : s.tree = treeOf s.freq) (v : Word) : (s.accept v).treeOk := fun _ => h

theorem codesOk_of_codes {s : State} (h : codesOf s.tree = some s.codes) (v : Word) : (s.accept v).codesOk := fun _ => h

theorem decIn_reads :
    decIn.cfg = encIn.cfg ∧ decIn.tree = encIn.tree ∧ decIn.inLen = encOut.outLen ∧ decIn.bitLen = encOut.bitLen ∧
      decIn.inBuf = encOut.outBuf := by
  simp [decIn, State.tree]

theorem witness_DecodeUndoesEncode :
    encIn.cfg.wf = true ∧ encIn.status.codesValid = true ∧ encIn.status.treeValid = true ∧
      encIn.tree = treeOf encIn.freq ∧ codesOf encIn.tree = some encIn.codes ∧
      exec .encode encIn = .next encOut ∧ encOut.status.err = false ∧ encIn.inLen.toNat ≤ encIn.cfg.outBytes ∧
      encOut.outLen.toNat ≤ encIn.cfg.inBytes ∧ decIn.cfg = encIn.cfg ∧ decIn.status.treeValid = true ∧
      decIn.tree = treeOf encIn.freq ∧ decIn.inLen = encOut.outLen ∧ decIn.bitLen = encOut.bitLen ∧
      decIn.inBuf = encOut.outBuf :=
  ⟨by decide +kernel, by decide +kernel, by decide +kernel, encIn_tree, encIn_codes, next_after (by decide +kernel),
    by decide +kernel, by decide +kernel, by decide +kernel, decIn_reads.1, by decide +kernel,
    decIn_reads.2.1.trans encIn_tree, decIn_reads.2.2.1, decIn_reads.2.2.2.1, decIn_reads.2.2.2.2⟩

theorem witness_Compress_lenRange :
    State.reset.cfg.wf = true ∧ State.reset.cfg.inBytes < ({ State.reset with inLen := 0xFFFFFFFF#32 } : State).inLen.toNat :=
  by decide

/-- The exact fit and one symbol more. -/
def compIn (n : Nat) : State := withOutBytes (withIn State.reset (List.replicate n 0x61)) 4

def payloadBytes (s : State) : Option Nat :=
  (codesOf (treeOf (countBytes s.inputBytes))).map fun t => ceil8 (t.streamOf s.inputBytes).length

theorem witness_Compress_fits_and_overflows :
    (compIn 32).cfg.wf = true ∧ (compIn 32).inLen.toNat ≤ (compIn 32).cfg.inBytes ∧
      payloadBytes (compIn 32) = some 4 ∧ payloadBytes (compIn 33) = some 5 ∧ (compIn 33).cfg.outBytes = 4 := by
  decide +kernel

def decompIn : State := withBits (withIn abc [0x50]) 4

theorem witness_DecompressWalks :
    decompIn.cfg.wf = true ∧ 2 ≤ presentCount decompIn.freq ∧ decompIn.inLen.toNat ≤ decompIn.cfg.inBytes ∧
      decompIn.bitLen.toNat ≤ 8 * decompIn.inLen.toNat ∧
      decompIn.inBuf.stream decompIn.bitLen.toNat = ([[false], [true, false]]).flatten ++ [true] ∧
      LeadsToLeaf (treeOf decompIn.freq).nodes (treeOf decompIn.freq).root [false] 0x63 ∧
      LeadsToLeaf (treeOf decompIn.freq).nodes (treeOf decompIn.freq).root [true, false] 0x61 ∧
      StaysInside (treeOf decompIn.freq).nodes (treeOf decompIn.freq).root [true] 2 ∧ 2 ≤ decompIn.cfg.outBytes :=
  ⟨by decide +kernel, by decide +kernel, by decide +kernel, by decide +kernel, by decide +kernel,
    ⟨by decide, staysInside_of_decide (by decide +kernel), by decide +kernel, by decide +kernel⟩,
    ⟨by decide, staysInside_of_decide (by decide +kernel), by decide +kernel, by decide +kernel⟩,
    staysInside_of_decide (by decide +kernel), by decide +kernel⟩

def sep₀ : State := withIn State.reset [0x61, 0x62]
def sep₁ : State := after (exec .count sep₀)
def sep₂ : State := after (exec .buildTree (sep₁.accept 3#32))
def sep₃ : State := after (exec .genCodes (sep₂.accept 4#32))
def sep₄ : State := after (exec .encode (sep₃.accept 5#32))

theorem witness_SeparateCommands_compress :
    exec .count sep₀ = .next sep₁ ∧ sep₁.status.err = false ∧ exec .buildTree (sep₁.accept 3#32) = .next sep₂ ∧
      exec .genCodes (sep₂.accept 4#32) = .next sep₃ ∧ sep₃.status.err = false ∧
      exec .encode (sep₃.accept 5#32) = .next sep₄ ∧ sep₄.status.err = false :=
  ⟨next_after (by decide +kernel), by decide +kernel, next_after (by decide +kernel), next_after (by decide +kernel),
    by decide +kernel, next_after (by decide +kernel), by decide +kernel⟩

def sepTree : State := after (exec .buildTree decompIn)
def sepDecoded : State := after (exec .decode (sepTree.accept 6#32))

theorem witness_SeparateCommands_decompress :
    exec .buildTree decompIn = .next sepTree ∧ exec .decode (sepTree.accept 6#32) = .next sepDecoded ∧
      sepDecoded.status.err = false :=
  ⟨next_after (by decide +kernel), next_after (by decide +kernel), by decide +kernel⟩

theorem witness_MoveOut :
    encOut.cfg.wf = true ∧ encOut.status.busy = false ∧ encOut.outLen.toNat ≤ encOut.cfg.outBytes ∧
      encOut.outLen.toNat ≤ encOut.cfg.inBytes ∧ 0 < encOut.outLen.toNat := by decide +kernel

def compOut : State := after (exec .compress sep₀)

theorem witness_DecompressUndoesCompress :
    sep₀.cfg.wf = true ∧ exec .compress sep₀ = .next compOut ∧ compOut.status.err = false ∧
      sep₀.inLen.toNat ≤ sep₀.cfg.outBytes ∧ compOut.outLen.toNat ≤ sep₀.cfg.inBytes ∧ sep₀.inLen = 2#32 :=
  ⟨by decide +kernel, next_after (by decide +kernel), by decide +kernel, by decide +kernel, by decide +kernel,
    by decide +kernel⟩

theorem witness_SoftReset :
    (Instr.softReset 0x00000002#32).wellFormed = true ∧ State.reset.status.busy = false ∧
      (busy State.reset).status.busy = true := by decide

/-- CtrlWriteSetsIrqEnOrResets: a word for each clause. -/
theorem witness_CtrlWrite :
    (0x00000001#32 : Word).getLsbD 1 = false ∧ (0x00000003#32 : Word).getLsbD 1 = true ∧
      State.reset.status.busy = false ∧ (busy State.reset).status.busy = true := by decide

/-- CmdWriteIsAcceptedWhileIdle, RegistersReadAsTheyStand, LengthWritesReplaceTheirWord, FreqWriteInvalidatesTheTree,
CodeWindowsReadTheTable: an idle and a busy state, and the last word of a code. -/
theorem witness_idle_and_busy :
    State.reset.status.busy = false ∧ (busy State.reset).status.busy = true ∧ (7 : Nat) < 8 := by decide

theorem witness_NodeWindow_valid :
    (0 : Nat) < 512 ∧ (withTree aaa).status.busy = false ∧ (NodeStore.at (withTree aaa).nodes 0).valid = true := by
  decide +kernel

theorem witness_NodeWindow_invalid :
    (511 : Nat) < 512 ∧ State.reset.status.busy = false ∧ (NodeStore.at State.reset.nodes 511).valid = false ∧
      (3 : Nat) < 4 := by decide +kernel

/-- The last word inside IN and the first beyond it; likewise OUT. -/
theorem witness_InWindow_and_OutWindow :
    State.reset.cfg.wf = true ∧ 4 * 16383 < State.reset.cfg.inBytes ∧ State.reset.cfg.inBytes ≤ 4 * 16384 ∧
      4 * 16384 < 0x100000 ∧ 4 * 16383 < State.reset.cfg.outBytes ∧ State.reset.cfg.outBytes ≤ 4 * 16384 := by decide

/-- BusyReadsOfWAreDraws: both ends of the ranges of W, and locations next to them outside W. -/
theorem witness_BusyReads :
    State.reset.cfg.wf = true ∧ (busy State.reset).status.busy = true ∧
      [0x018, 0x028, 0x400, 0xBFC, 0x2000, 0x3FFC, 0x4000, 0x5FF8, 0x200000, 0x20FFFC].map
        (fun o => (locOf State.reset.cfg (offsetAt o)).inW) = List.replicate 10 true ∧
      [0x014, 0x02C, 0x3FC, 0xC00, 0x1FFC, 0x400C, 0x5FFC, 0x6000, 0x100000, 0x210000].map
        (fun o => (locOf State.reset.cfg (offsetAt o)).inW) = List.replicate 10 false := by decide +kernel

/-- WritesWhileBusyAreDropped: both ends of the ranges that are held, and locations next to them that are not. -/
theorem witness_WritesWhileBusy :
    State.reset.cfg.wf = true ∧ (busy State.reset).status.busy = true ∧
      [0x010, 0x014, 0x01C, 0x020, 0x400, 0x7FC, 0x100000, 0x10FFFC].map
        (fun o => (locOf State.reset.cfg (offsetAt o)).heldWhileBusy) = List.replicate 8 true ∧
      [0x000, 0x018, 0x024, 0x3FC, 0x800, 0x110000, 0x200000].map
        (fun o => (locOf State.reset.cfg (offsetAt o)).heldWhileBusy) = List.replicate 7 false := by decide +kernel

/-- A STATUS write of its read-only bits alone. -/
theorem witness_ReservedAndReadOnly_status :
    (0x00F#22 : Offset).toNat / 4 * 4 = 0x00C ∧ (0xFFFFFFB9#32 : Word).getLsbD 1 = false ∧
      (0xFFFFFFB9#32 : Word).getLsbD 2 = false ∧ (0xFFFFFFB9#32 : Word).getLsbD 6 = false := by decide

/-- ReservedAndReadOnlyWritesAreIgnored: the ends of the reserved ranges. -/
theorem witness_Reserved :
    [0x034, 0x3FC, 0xC00, 0x1FFC, 0x6000, 0xFFFFC, 0x300000, 0x3FFFFC].map (fun o => locOf State.reset.cfg (offsetAt o)) =
      List.replicate 8 .reserved := by decide +kernel

theorem witness_Irq_completion :
    coreStep (State.reset.accept 0#32) = .next (State.reset.accept 0#32).complete ∧ State.reset.irqEn = false :=
  ⟨rfl, rfl⟩

theorem witness_Irq_enable :
    ∀ rest, step { State.reset.complete with inputs := .write 0x008#22 0x00000001#32 :: rest } =
      .next { { State.reset.complete with irqEn := true } with inputs := rest } := fun _ => rfl

theorem witness_Irq_acknowledge :
    (0x00000046#32 : Word).getLsbD 1 = true ∧
      State.reset.complete.WriteLeaves 0x00C#22 0x00000046#32 (State.reset.complete.acknowledge 0x00000046#32) :=
  ⟨by decide, fun _ => rfl⟩

theorem witness_Irq_newCommand :
    State.reset.complete.status.busy = false ∧
      State.reset.complete.WriteLeaves 0x010#22 0#32 (State.reset.complete.accept 0#32) :=
  ⟨rfl, fun _ => rfl⟩

/-- CoreStepEndsOnceAndLeavesItsInputs, MachineNeverStops, BusyPeriodEnds, with a command pending on a valid tree. -/
theorem witness_treeOk_busy :
    ((withTree ab).accept 4#32).treeOk ∧ ((withTree ab).accept 4#32).status.treeValid = true ∧
      ((withTree ab).accept 4#32).status.busy = true :=
  ⟨treeOk_accept _ _, by decide +kernel, by decide +kernel⟩

theorem witness_OnlyTheNamedCommands : exec .encode encIn = .next encOut := next_after (by decide +kernel)

theorem encode_step_isNext : isNext (step (encIn.accept 5#32)) = true := by decide +kernel

theorem genCodes_step_isNext : isNext (step ((withTree ab).accept 4#32)) = true := by decide +kernel

/-- StepKeepsBuffersCanonical, StepKeepsStatusLegal, StepKeepsTreeAndCodesMeaning, StepKeepsTheStoresShape: a busy ENCODE. -/
theorem witness_StepKeeps :
    (encIn.accept 5#32).buffersOk = true ∧ (encIn.accept 5#32).drawsOk = true ∧ (encIn.accept 5#32).status.ok = true ∧
      (encIn.accept 5#32).treeOk ∧ (encIn.accept 5#32).codesOk ∧
      step (encIn.accept 5#32) = .next (after (step (encIn.accept 5#32))) :=
  ⟨by decide +kernel, by decide +kernel, by decide +kernel, treeOk_of_tree encIn_tree _,
    codesOk_of_codes encIn_codes _,
    next_after encode_step_isNext⟩

/-- A busy GEN_CODES on a valid tree. -/
theorem witness_StepKeepsTheStoresShape :
    ((withTree ab).accept 4#32).treeOk ∧ ((withTree ab).accept 4#32).storeOk ∧
      step ((withTree ab).accept 4#32) = .next (after (step ((withTree ab).accept 4#32))) :=
  ⟨treeOk_accept _ _,
    ⟨by decide +kernel, fun b => (by simp [withTree, State.setTree, State.accept, ab, withFreq, State.reset, SymTable.at]),
      by decide +kernel, by decide +kernel⟩,
    next_after genCodes_step_isNext⟩

end Sys2Proof.Tests
end

section
/-! PROOFS. The bus, one rule per kind of HOST access (spec/20_memory.md R72, R93, spec/70_reset_and_hazards.md R251), and
what the CORE step leaves alone; then the statements of spec/10_state.md: constant registers, CTRL, STATUS, CMD, FREQ, IRQ. -/

namespace Sys2Proof.Machine

/-! ## The address map -/

@[simp] theorem locOf_id (c : Config) : locOf c 0x000#22 = .id := rfl
@[simp] theorem locOf_version (c : Config) : locOf c 0x004#22 = .version := rfl
@[simp] theorem locOf_ctrl (c : Config) : locOf c 0x008#22 = .ctrl := rfl
@[simp] theorem locOf_status (c : Config) : locOf c 0x00C#22 = .status := rfl
@[simp] theorem locOf_cmd (c : Config) : locOf c 0x010#22 = .cmd := rfl
@[simp] theorem locOf_capIn (c : Config) : locOf c 0x02C#22 = .capIn := rfl
@[simp] theorem locOf_capOut (c : Config) : locOf c 0x030#22 = .capOut := rfl

/-- A word's own offset inside the register space is not moved by dropping bits 1:0 (R73). -/
theorem alignedOffset_offsetAt {o : Nat} (hfit : o < 2 ^ 22) (haligned : o % 4 = 0) :
    alignedOffset (offsetAt o) = o := by
  have hnat : (offsetAt o).toNat = o := by
    rw [offsetAt, BitVec.toNat_ofNat, Nat.mod_eq_of_lt hfit]
  rw [alignedOffset, hnat, Nat.div_mul_cancel (Nat.dvd_of_mod_eq_zero haligned)]

/-- The FREQ window at 0x400 has one word per symbol (R71, R78). -/
@[simp] theorem locOf_freq (c : Config) (b : Byte) : locOf c (offsetAt (0x400 + 4 * b.toNat)) = .freq b := by
  have hb := b.isLt
  have ho := alignedOffset_offsetAt (o := 0x400 + 4 * b.toNat) (by omega) (by omega)
  have hindex : (0x400 + 4 * b.toNat - 0x400) / 4 = b.toNat := by omega
  rw [locOf, ho, if_neg (by omega), if_pos (by omega), hindex, BitVec.ofNat_toNat, BitVec.setWidth_eq]

/-! ## HOST accesses as steps -/

/-- What a location holds does not depend on the events to come. -/
@[simp] theorem State.wordAt_inputs (s : State) (rest : List Event) (l : Loc) :
    State.wordAt { s with inputs := rest } l = s.wordAt l := by
  cases l <;> rfl

/-- What a write does to the state does not depend on the events to come. -/
@[simp] theorem State.writeLoc_inputs (s : State) (rest : List Event) (v : Word) (l : Loc) :
    State.writeLoc { s with inputs := rest } v l = { s.writeLoc v l with inputs := rest } := by
  cases l <;> rfl

theorem Loc.ne_ctrl_of_heldWhileBusy {l : Loc} (h : l.heldWhileBusy = true) : l ≠ .ctrl := by
  rintro rfl
  simp [Loc.heldWhileBusy] at h

section HostAccess

variable {s : State} {off : Offset} {v : Word} {l : Loc}

/-- A read while idle, or outside W at any time, returns what the location holds (R72, R93). -/
theorem State.readsAs_wordAt (hl : locOf s.cfg off = l) (h : s.status.busy = false ∨ l.inW = false) :
    s.ReadsAs off (s.wordAt l) := by
  subst hl
  intro rest
  obtain ⟨hbusy, hW, -⟩ | ⟨-, hread⟩ := State.hostRead_cases { s with inputs := rest } off
  · simp_all
  · rw [step_cons _ _ _ rfl, handle, hread, State.wordAt_inputs]

/-- A step whose event is a write that is no SOFT_RESET does the plain write (R72, R104). -/
theorem step_plainWrite (hl : locOf s.cfg off = l) (hplain : l ≠ .ctrl ∨ v.getLsbD 1 = false) (rest : List Event) :
    step { s with inputs := .write off v :: rest } = .next (State.plainWrite { s with inputs := rest } off v) := by
  subst hl
  rw [step_cons _ _ _ rfl]
  obtain ⟨hctrl, hv, -⟩ | ⟨-, hwrite⟩ := hostWrite_cases off v { s with inputs := rest }
  · simp_all
  · exact hwrite

/-- A plain write while idle, or to a location that is not held while busy, is done (R251). -/
theorem State.writeLeaves_writeLoc (hl : locOf s.cfg off = l) (hplain : l ≠ .ctrl ∨ v.getLsbD 1 = false)
    (h : s.status.busy = false ∨ l.heldWhileBusy = false) : s.WriteLeaves off v (s.writeLoc v l) := by
  intro rest
  rw [step_plainWrite hl hplain]
  subst hl
  obtain ⟨hbusy, hheld, -⟩ | ⟨-, hwrite⟩ := State.plainWrite_cases { s with inputs := rest } off v
  · simp_all
  · rw [hwrite, State.writeLoc_inputs]

/-- A write to a location that takes none, and that is not held while busy, changes nothing at any time (R76). -/
theorem State.writeLeaves_ignored (hl : locOf s.cfg off = l) (hctrl : l ≠ .ctrl) (hheld : l.heldWhileBusy = false)
    (hsame : s.writeLoc v l = s) : s.WriteLeaves off v s := by
  have hwrite := State.writeLeaves_writeLoc (v := v) hl (.inl hctrl) (.inr hheld)
  rwa [hsame] at hwrite

/-- A write while busy to a location that is held then sets HAZ and does nothing else (R251). -/
theorem State.writeLeaves_dropped (hl : locOf s.cfg off = l) (hbusy : s.status.busy = true)
    (hheld : l.heldWhileBusy = true) : s.WriteLeaves off v s.dropped := by
  intro rest
  rw [step_plainWrite hl (.inl (Loc.ne_ctrl_of_heldWhileBusy hheld))]
  subst hl
  obtain ⟨-, -, hdrop⟩ | ⟨h, -⟩ := State.plainWrite_cases { s with inputs := rest } off v
  · rw [hdrop]; rfl
  · simp_all

/-- A step whose event is a CTRL write with bit 1 set is the SOFT_RESET (R104). -/
theorem step_softReset (hl : locOf s.cfg off = .ctrl) (hv : v.getLsbD 1 = true) (rest : List Event) :
    step { s with inputs := .write off v :: rest } = execSoftReset v { s with inputs := rest } := by
  rw [step_cons _ _ _ rfl]
  obtain ⟨-, -, hexec⟩ | ⟨h, -⟩ := hostWrite_cases off v { s with inputs := rest }
  · exact hexec
  · simp_all

/-- SOFT_RESET while idle is performed (R249). -/
theorem State.writeLeaves_softReset (hl : locOf s.cfg off = .ctrl) (hv : v.getLsbD 1 = true)
    (hidle : s.status.busy = false) : s.WriteLeaves off v s.softReset := by
  intro rest
  rw [step_softReset hl hv, execSoftReset, if_neg (by simp [hidle])]
  rfl

/-- SOFT_RESET while busy is dropped with HAZ set (R249, R251). -/
theorem State.writeLeaves_softReset_dropped (hl : locOf s.cfg off = .ctrl) (hv : v.getLsbD 1 = true)
    (hbusy : s.status.busy = true) : s.WriteLeaves off v s.dropped := by
  intro rest
  rw [step_softReset hl hv, execSoftReset, if_pos hbusy]
  rfl

/-- What a write leaves is determined, so IRQ after it is. -/
theorem State.WriteLeaves.irq_eq {t t' : State} (h : s.WriteLeaves off v t) (h' : s.WriteLeaves off v t') :
    t.irq = t'.irq := by
  have hsame := Host.Outcome.next.inj ((h []).symm.trans (h' []))
  exact (congrArg State.irq hsame :)

end HostAccess

/-! ## Writes to STATUS and CMD -/

/-- A STATUS write acknowledges, busy or not (R28). -/
theorem State.writeLeaves_status (s : State) (v : Word) : s.WriteLeaves 0x00C#22 v (s.acknowledge v) :=
  State.writeLeaves_writeLoc (locOf_status _) (.inl Loc.noConfusion) (.inr rfl)

/-- A CMD write while idle is accepted (R29). -/
theorem State.writeLeaves_cmd {s : State} (hidle : s.status.busy = false) (v : Word) :
    s.WriteLeaves 0x010#22 v (s.accept v) :=
  State.writeLeaves_writeLoc (locOf_cmd _) (.inl Loc.noConfusion) (.inl hidle)

/-- A CTRL write with bit 1 clear sets IRQ_EN, busy or not (R26). -/
theorem State.writeLeaves_irqEn (s : State) {v : Word} (hv : v.getLsbD 1 = false) :
    s.WriteLeaves 0x008#22 v { s with irqEn := v.getLsbD 0 } :=
  State.writeLeaves_writeLoc (locOf_ctrl _) (.inr hv) (.inr rfl)

/-- A flag written with 1 is cleared, a flag written with 0 stays (R28). -/
theorem and_not_eq_ite (flag bit : Bool) : (flag && !bit) = if bit then false else flag := by
  cases bit <;> simp

/-- The CTRL word is 1 or 0 as IRQ_EN is set or not (R26). -/
theorem State.ctrlWord_eq_ite (s : State) : s.ctrlWord = if s.irqEn then 1#32 else 0#32 := by
  rw [State.ctrlWord]
  cases s.irqEn <;> rfl

/-! ## What the CORE step leaves alone -/

/-- What no command writes: CTRL, CMD, IN and IN_LEN, HAZ (R26, R29, R30, R43, R251), and of the model's own fields the
parameters, the events to come and the last word read. -/
structure CommandFrame (s t : State) : Prop where
  irqEn : t.irqEn = s.irqEn
  cmd : t.cmd = s.cmd
  inLen : t.inLen = s.inLen
  inBuf : t.inBuf = s.inBuf
  haz : t.status.haz = s.status.haz
  cfg : t.cfg = s.cfg
  inputs : t.inputs = s.inputs
  readData : t.readData = s.readData

theorem CommandFrame.refl (s : State) : CommandFrame s s := by constructor <;> rfl

theorem CommandFrame.trans {s t u : State} (h : CommandFrame s t) (h' : CommandFrame t u) : CommandFrame s u where
  irqEn := h'.irqEn.trans h.irqEn
  cmd := h'.cmd.trans h.cmd
  inLen := h'.inLen.trans h.inLen
  inBuf := h'.inBuf.trans h.inBuf
  haz := h'.haz.trans h.haz
  cfg := h'.cfg.trans h.cfg
  inputs := h'.inputs.trans h.inputs
  readData := h'.readData.trans h.readData

theorem State.complete_frame (s : State) : CommandFrame s s.complete := by constructor <;> rfl

theorem State.raise_frame (s : State) (c : ErrCode) : CommandFrame s (s.raise c) := by constructor <;> rfl

/-- The state a phase ends in, where it ends, satisfies `P`. -/
def Phase.Ends (P : State → Prop) : Phase → Prop
  | .done s => P s
  | .error _ s => P s
  | .endless => True

theorem Phase.Ends.mono {P Q : State → Prop} {p : Phase} (h : p.Ends P) (hPQ : ∀ t, P t → Q t) : p.Ends Q := by
  cases p with
  | done t => exact hPQ t h
  | error c t => exact hPQ t h
  | endless => trivial

/-- Two phases in turn keep the frame where each does (R205). -/
theorem Phase.ends_andThen {s : State} {p : Phase} {f : State → Phase} (hp : p.Ends (CommandFrame s))
    (hf : ∀ t, (f t).Ends (CommandFrame t)) : (p.andThen f).Ends (CommandFrame s) := by
  cases p with
  | done t => exact (hf t).mono fun _ hu => CommandFrame.trans hp hu
  | error c t => exact hp
  | endless => trivial

theorem countBody_frame (s : State) : (countBody s).Ends (CommandFrame s) := by
  obtain ⟨-, h⟩ | ⟨-, h⟩ := countBody_cases s <;> rw [h] <;> constructor <;> rfl

theorem buildTreeBody_frame (s : State) : (buildTreeBody s).Ends (CommandFrame s) := by
  constructor <;> rfl

theorem genCodesBody_frame (s : State) : (genCodesBody s).Ends (CommandFrame s) := by
  obtain ⟨-, h⟩ | ⟨-, -, h⟩ | ⟨t, -, -, h⟩ := genCodesBody_cases s <;> rw [h]
  · exact CommandFrame.refl s
  · trivial
  · constructor <;> rfl

theorem encodeBody_frame (s : State) : (encodeBody s).Ends (CommandFrame s) := by
  obtain ⟨-, h⟩ | ⟨-, -, h⟩ | ⟨-, -, ⟨e, -, h⟩ | ⟨bits, -, h⟩⟩ := encodeBody_cases s <;> rw [h] <;> constructor <;> rfl

theorem decodeBody_frame (s : State) : (decodeBody s).Ends (CommandFrame s) := by
  obtain ⟨e, -, h⟩ | ⟨-, -, h⟩ | ⟨-, -, -, ⟨e, -, h⟩ | ⟨d, -, h⟩⟩ := decodeBody_cases s <;> rw [h] <;> constructor <;> rfl

/-- No word of CMD is a SOFT_RESET (R101, R104). -/
theorem decodeCmd_ne_softReset (w v : Word) : decodeCmd w ≠ .ok (.softReset v) := by
  unfold decodeCmd
  split
  · simp
  · split <;> simp

/-- Every command is a phase that keeps the frame, and its end. -/
theorem exec_eq_finish {w : Word} {i : Instr} (h : decodeCmd w = .ok i) (s : State) :
    ∃ p, exec i s = Phase.finish p ∧ p.Ends (CommandFrame s) := by
  cases i with
  | nop => exact ⟨.done s, rfl, CommandFrame.refl s⟩
  | clearFreq =>
    exact ⟨.done { s with freq := freqZero, status := s.status.freqChanged }, rfl, by constructor <;> rfl⟩
  | count => exact ⟨_, rfl, countBody_frame s⟩
  | buildTree => exact ⟨_, rfl, buildTreeBody_frame s⟩
  | genCodes => exact ⟨_, rfl, genCodesBody_frame s⟩
  | encode => exact ⟨_, rfl, encodeBody_frame s⟩
  | decode => exact ⟨_, rfl, decodeBody_frame s⟩
  | compress =>
    have hbuilt := Phase.ends_andThen (countBody_frame s) buildTreeBody_frame
    exact ⟨_, rfl, Phase.ends_andThen (Phase.ends_andThen hbuilt genCodesBody_frame) encodeBody_frame⟩
  | decompress => exact ⟨_, rfl, Phase.ends_andThen (buildTreeBody_frame s) decodeBody_frame⟩
  | softReset v => exact absurd h (decodeCmd_ne_softReset w v)

/-- The CORE step is a phase that keeps the frame, and its end (R120, R102). -/
theorem coreStep_eq_finish (s : State) : ∃ p, coreStep s = Phase.finish p ∧ p.Ends (CommandFrame s) := by
  obtain ⟨i, hi, h⟩ | ⟨-, h⟩ := coreStep_cases s
  · rw [h]; exact exec_eq_finish hi s
  · exact ⟨.error .illegalCmd s, h, CommandFrame.refl s⟩

/-- A CORE step that answers a next state has set DONE, cleared BUSY, and left alone what no command writes (R215, R216). -/
theorem coreStep_next {s t : State} (h : coreStep s = .next t) :
    t.status.done = true ∧ t.status.busy = false ∧ CommandFrame s t := by
  obtain ⟨p, hp, hframe⟩ := coreStep_eq_finish s
  obtain ⟨u, rfl, rfl⟩ | ⟨c, u, rfl, rfl⟩ := Phase.finish_next (hp.symm.trans h)
  · exact ⟨rfl, rfl, CommandFrame.trans hframe u.complete_frame⟩
  · exact ⟨rfl, rfl, CommandFrame.trans hframe (u.raise_frame c)⟩

/-! ## The statements -/

/-- Settles O50: a CORE step sets DONE and keeps IRQ_EN; each write named leaves one known state, whose IRQ is read off. -/
theorem irqFollowsDoneAndEnable : Obligations.IrqFollowsDoneAndEnable := by
  refine ⟨fun _ => rfl, fun s t h => ?_, fun s h => ?_, fun s t h => ?_, fun s t v hv h => ?_, fun s t v hidle h => ?_⟩
  · obtain ⟨hdone, -, hframe⟩ := coreStep_next h
    simp [State.irq, hdone, hframe.irqEn]
  · simp [State.irq, h]
  · rw [State.WriteLeaves.irq_eq h (s.writeLeaves_irqEn (by decide))]
    exact Bool.true_and _
  · rw [h.irq_eq (s.writeLeaves_status v), State.irq, State.acknowledge_status, hv]
    simp
  · rw [h.irq_eq (State.writeLeaves_cmd hidle v), State.irq, State.accept_status]
    simp

/-- Settles O35: none of the four registers is in W, and a write to any of them does nothing. -/
theorem constantRegistersAreConstant : Obligations.ConstantRegistersAreConstant := by
  intro s
  refine ⟨State.readsAs_wordAt (locOf_id _) (.inr rfl), State.readsAs_wordAt (locOf_version _) (.inr rfl),
    State.readsAs_wordAt (locOf_capIn _) (.inr rfl), State.readsAs_wordAt (locOf_capOut _) (.inr rfl), fun v => ?_⟩
  exact ⟨State.writeLeaves_ignored (locOf_id _) Loc.noConfusion rfl rfl,
    State.writeLeaves_ignored (locOf_version _) Loc.noConfusion rfl rfl,
    State.writeLeaves_ignored (locOf_capIn _) Loc.noConfusion rfl rfl,
    State.writeLeaves_ignored (locOf_capOut _) Loc.noConfusion rfl rfl⟩

/-- Settles O36: the two plain cases by the bus rules, the other two by what SOFT_RESET does idle and busy. -/
theorem ctrlWriteSetsIrqEnOrResets : Obligations.CtrlWriteSetsIrqEnOrResets := by
  intro s v
  refine ⟨?_, s.writeLeaves_irqEn, State.writeLeaves_softReset (locOf_ctrl _),
    State.writeLeaves_softReset_dropped (locOf_ctrl _)⟩
  rw [← State.ctrlWord_eq_ite]
  exact State.readsAs_wordAt (locOf_ctrl _) (.inr rfl)

/-- Settles O37: the write is the acknowledgement, whose flags are the ones stated. -/
theorem statusWriteClearsWhereOne : Obligations.StatusWriteClearsWhereOne := by
  intro s v
  simp only [← and_not_eq_ite]
  exact s.writeLeaves_status v

/-- Settles O38: CMD is held while busy, and is not in W. -/
theorem cmdWriteIsAcceptedWhileIdle : Obligations.CmdWriteIsAcceptedWhileIdle := by
  intro s v
  exact ⟨fun hidle => State.writeLeaves_cmd hidle v, fun hbusy => State.writeLeaves_dropped (locOf_cmd _) hbusy rfl,
    State.readsAs_wordAt (locOf_cmd _) (.inr rfl)⟩

/-- Settles O41: the table after the write is FREQ with the one entry put. -/
theorem freqWriteInvalidatesTheTree : Obligations.FreqWriteInvalidatesTheTree := by
  refine ⟨fun s b v => ⟨fun hidle => ⟨?_, SymTable.put s.freq b v, ?_, ?_, ?_⟩, fun hbusy => ?_⟩, fun b => ?_⟩
  · exact State.readsAs_wordAt (locOf_freq _ b) (.inl hidle)
  · exact State.writeLeaves_writeLoc (locOf_freq _ b) (.inl Loc.noConfusion) (.inl hidle)
  · exact SymTable.at_put_same _ _ _
  · exact fun c hc => SymTable.at_put_other _ _ hc
  · exact State.writeLeaves_dropped (locOf_freq _ b) hbusy rfl
  · exact SymTable.at_replicate _ _

end Sys2Proof.Machine
end

section
/-! PROOFS. The statements of spec/20_memory.md: what lies at each offset (R71, R73), and the reserved, read-only, code
table and NODE windows (R75, R76, R79, R80). -/

namespace Sys2Proof.Machine

/-! ## Aligned offsets -/

/-- The address map sees an offset only with its bits 1:0 dropped (R73). -/
theorem locOf_congr {off off' : Offset} (h : alignedOffset off = alignedOffset off') (c : Config) :
    locOf c off = locOf c off' := by
  rw [locOf, locOf, h]

/-- Clearing an offset's bits 1:0 does not move it to another word (R73). -/
theorem alignedOffset_offsetAt_sub_mod (off : Offset) :
    alignedOffset (offsetAt (off.toNat - off.toNat % 4)) = alignedOffset off := by
  have hoff := off.isLt
  rw [alignedOffset_offsetAt (by omega) (by omega), alignedOffset]
  omega

/-! ## Accesses see the location alone -/

/-- A step whose event is a read is the read (R72). -/
theorem step_read (s : State) (off : Offset) (rest : List Event) :
    step { s with inputs := .read off :: rest } = .next (State.hostRead { s with inputs := rest } off) := rfl

/-- A step whose event is a write is the write (R72). -/
theorem step_write (s : State) (off : Offset) (v : Word) (rest : List Event) :
    step { s with inputs := .write off v :: rest } = hostWrite off v { s with inputs := rest } := rfl

theorem State.hostRead_congr {s : State} {off off' : Offset} (h : locOf s.cfg off = locOf s.cfg off') :
    s.hostRead off = s.hostRead off' := by
  rw [State.hostRead, State.hostRead, h]

theorem State.plainWrite_congr {s : State} {off off' : Offset} (h : locOf s.cfg off = locOf s.cfg off') (v : Word) :
    s.plainWrite off v = s.plainWrite off' v := by
  rw [State.plainWrite, State.plainWrite, h]

theorem hostWrite_congr {s : State} {off off' : Offset} (h : locOf s.cfg off = locOf s.cfg off') (v : Word) :
    hostWrite off v s = hostWrite off' v s := by
  rw [hostWrite, hostWrite, writtenInstr, writtenInstr, h, State.plainWrite_congr h]

/-- SOFT_RESET is performed or dropped; it never stops the machine (R249). -/
theorem execSoftReset_isNext (v : Word) (s : State) : ∃ t, execSoftReset v s = .next t := by
  rw [execSoftReset]
  split <;> exact ⟨_, rfl⟩

/-- No HOST write faults (R73). -/
theorem hostWrite_isNext (off : Offset) (v : Word) (s : State) : ∃ t, hostWrite off v s = .next t := by
  obtain ⟨-, -, hexec⟩ | ⟨-, hwrite⟩ := hostWrite_cases off v s
  · rw [hexec]
    exact execSoftReset_isNext v s
  · exact ⟨_, hwrite⟩

/-! ## The address map, range by range -/

section AddressMap

variable (c : Config) {off : Offset} {o : Nat} (ho : alignedOffset off = o)

section Ranges

include ho

theorem locOf_of_lt_0x400 (h : o < 0x400) : locOf c off = controlLoc o := by
  rw [locOf, ho, if_pos h]

theorem locOf_of_codeLenWindow (hlo : 0x800 ≤ o) (hhi : o < 0xC00) :
    locOf c off = .codeLen (BitVec.ofNat 8 ((o - 0x800) / 4)) := by
  rw [locOf, ho, if_neg (by omega), if_neg (by omega), if_pos hhi]

theorem locOf_of_codeBitsWindow (hlo : 0x2000 ≤ o) (hhi : o < 0x4000) :
    locOf c off = .codeBits (BitVec.ofNat 8 ((o - 0x2000) / 32)) ((o - 0x2000) % 32 / 4) := by
  rw [locOf, ho]
  iterate 4 rw [if_neg (by omega)]
  rw [if_pos hhi]

theorem locOf_of_nodeWindow (hlo : 0x4000 ≤ o) (hhi : o < 0x6000) :
    locOf c off = .node ((o - 0x4000) / 16) ((o - 0x4000) % 16 / 4) := by
  rw [locOf, ho]
  iterate 5 rw [if_neg (by omega)]
  rw [if_pos hhi]

theorem locOf_of_outWindow (hlo : 0x200000 ≤ o) (hhi : o < 0x300000) :
    locOf c off = if o - 0x200000 < c.outBytes then .outWord (o - 0x200000) else .reserved := by
  rw [locOf, ho]
  iterate 8 rw [if_neg (by omega)]
  rw [if_pos hhi]

omit ho in
/-- No control register lies above CAP_OUT (R23, R71). -/
theorem controlLoc_of_0x034_le (h : 0x034 ≤ o) : controlLoc o = .reserved := by
  obtain ⟨k, hk⟩ : ∃ k, o / 4 = k + 13 := ⟨o / 4 - 13, by omega⟩
  simp [controlLoc, hk]

/-- The ranges that hold no location (R71, R75). -/
theorem locOf_reserved
    (h : (0x034 ≤ o ∧ o < 0x400) ∨ (0xC00 ≤ o ∧ o < 0x2000) ∨ (0x6000 ≤ o ∧ o < 0x100000) ∨ 0x300000 ≤ o) :
    locOf c off = .reserved := by
  obtain ⟨hlo, hhi⟩ | ⟨hlo, hhi⟩ | ⟨hlo, hhi⟩ | hlo := h
  · rw [locOf_of_lt_0x400 c ho hhi, controlLoc_of_0x034_le hlo]
  · rw [locOf, ho]
    iterate 3 rw [if_neg (by omega)]
    rw [if_pos hhi]
  · rw [locOf, ho]
    iterate 6 rw [if_neg (by omega)]
    rw [if_pos hhi]
  · rw [locOf, ho]
    iterate 9 rw [if_neg (by omega)]

end Ranges

/-- The CODE_LEN window at 0x800 has one word per symbol (R71, R79). -/
@[simp] theorem locOf_codeLen (b : Byte) : locOf c (offsetAt (0x800 + 4 * b.toNat)) = .codeLen b := by
  have hb := b.isLt
  have hoff := alignedOffset_offsetAt (o := 0x800 + 4 * b.toNat) (by omega) (by omega)
  have hindex : (0x800 + 4 * b.toNat - 0x800) / 4 = b.toNat := by omega
  rw [locOf_of_codeLenWindow c hoff (by omega) (by omega), hindex, BitVec.ofNat_toNat, BitVec.setWidth_eq]

/-- The CODE_BITS window at 0x2000 has eight words per symbol (R71, R79). -/
theorem locOf_codeBits (b : Byte) {w : Nat} (hw : w < 8) :
    locOf c (offsetAt (0x2000 + 32 * b.toNat + 4 * w)) = .codeBits b w := by
  have hb := b.isLt
  have hoff := alignedOffset_offsetAt (o := 0x2000 + 32 * b.toNat + 4 * w) (by omega) (by omega)
  have hindex : (0x2000 + 32 * b.toNat + 4 * w - 0x2000) / 32 = b.toNat := by omega
  have hword : (0x2000 + 32 * b.toNat + 4 * w - 0x2000) % 32 / 4 = w := by omega
  rw [locOf_of_codeBitsWindow c hoff (by omega) (by omega), hindex, hword, BitVec.ofNat_toNat, BitVec.setWidth_eq]

/-- The NODE window at 0x4000 has four words per slot (R71, R80). -/
theorem locOf_node {i k : Nat} (hi : i < 512) (hk : k < 4) :
    locOf c (offsetAt (0x4000 + 16 * i + 4 * k)) = .node i k := by
  have hoff := alignedOffset_offsetAt (o := 0x4000 + 16 * i + 4 * k) (by omega) (by omega)
  have hindex : (0x4000 + 16 * i + 4 * k - 0x4000) / 16 = i := by omega
  have hword : (0x4000 + 16 * i + 4 * k - 0x4000) % 16 / 4 = k := by omega
  rw [locOf_of_nodeWindow c hoff (by omega) (by omega), hindex, hword]

end AddressMap

/-! ## Locations that take no write -/

/-- The locations whose every write is ignored, busy or not: the read-only ones and the reserved offsets (R75, R76). -/
def Loc.takesNoWrite : Loc → Bool
  | .id | .version | .outLen | .symCount | .root | .capIn | .capOut | .codeLen _ | .codeBits _ _ | .node _ _
  | .outWord _ | .reserved => true
  | .ctrl | .status | .cmd | .inLen | .bitLenLo | .bitLenHi | .freq _ | .inWord _ => false

/-- A write to a location that takes none changes nothing, busy or not (R76). -/
theorem State.writeLeaves_of_takesNoWrite {s : State} {off : Offset} (h : (locOf s.cfg off).takesNoWrite = true)
    (v : Word) : s.WriteLeaves off v s := by
  cases hl : locOf s.cfg off <;> rw [hl] at h
  case ctrl | status | cmd | inLen | bitLenLo | bitLenHi | freq | inWord => cases h
  all_goals exact State.writeLeaves_ignored hl Loc.noConfusion rfl rfl

/-- The read-only registers (R76). -/
theorem controlLoc_takesNoWrite {o : Nat} (haligned : o % 4 = 0)
    (h : o = 0x000 ∨ o = 0x004 ∨ o = 0x018 ∨ (0x024 ≤ o ∧ o ≤ 0x030)) : (controlLoc o).takesNoWrite = true := by
  obtain rfl | rfl | rfl | rfl | rfl | rfl | rfl :
      o = 0x000 ∨ o = 0x004 ∨ o = 0x018 ∨ o = 0x024 ∨ o = 0x028 ∨ o = 0x02C ∨ o = 0x030 := by omega
  all_goals rfl

/-- The read-only registers and windows (R71, R76). -/
theorem locOf_takesNoWrite (c : Config) {off : Offset} {o : Nat} (ho : alignedOffset off = o)
    (h : o = 0x000 ∨ o = 0x004 ∨ o = 0x018 ∨ (0x024 ≤ o ∧ o ≤ 0x030) ∨ (0x800 ≤ o ∧ o < 0xC00) ∨
      (0x2000 ≤ o ∧ o < 0x6000) ∨ (0x200000 ≤ o ∧ o < 0x300000)) :
    (locOf c off).takesNoWrite = true := by
  by_cases hreg : o < 0x400
  · rw [locOf_of_lt_0x400 c ho hreg]
    exact controlLoc_takesNoWrite (by rw [← ho, alignedOffset, Nat.mul_mod_left]) (by omega)
  obtain ⟨hlo, hhi⟩ | ⟨hlo, hhi⟩ | ⟨hlo, hhi⟩ | ⟨hlo, hhi⟩ : (0x800 ≤ o ∧ o < 0xC00) ∨ (0x2000 ≤ o ∧ o < 0x4000) ∨
      (0x4000 ≤ o ∧ o < 0x6000) ∨ (0x200000 ≤ o ∧ o < 0x300000) := by omega
  · rw [locOf_of_codeLenWindow c ho hlo hhi]
    rfl
  · rw [locOf_of_codeBitsWindow c ho hlo hhi]
    rfl
  · rw [locOf_of_nodeWindow c ho hlo hhi]
    rfl
  · rw [locOf_of_outWindow c ho hlo hhi]
    split <;> rfl

/-- An acknowledgement with bits 1, 2 and 6 clear changes nothing (R28). -/
theorem State.acknowledge_eq_self (s : State) {v : Word} (h1 : v.getLsbD 1 = false) (h2 : v.getLsbD 2 = false)
    (h6 : v.getLsbD 6 = false) : s.acknowledge v = s := by
  simp only [State.acknowledge, h1, h2, h6, Bool.not_false, Bool.and_true]

/-! ## The fields of a slot's INFO word (R39) -/

theorem Node.info_valid (nd : Node) : nd.info.getLsbD 31 = nd.valid := by
  simp only [Node.info, BitVec.getLsbD_append, BitVec.getLsbD_ofBool]
  simp

theorem Node.info_leaf (nd : Node) : nd.info.getLsbD 30 = nd.leaf := by
  simp only [Node.info, BitVec.getLsbD_append, BitVec.getLsbD_ofBool]
  simp

theorem Node.info_mbz (nd : Node) : nd.info.extractLsb' 26 4 = 0#4 := by
  rw [Node.info, BitVec.extractLsb'_append_eq_of_le (by decide), BitVec.extractLsb'_append_eq_of_le (by decide),
    BitVec.extractLsb'_append_eq_of_le (by decide), BitVec.extractLsb'_append_eq_of_add_le (by decide)]
  rfl

theorem Node.info_right (nd : Node) : nd.info.extractLsb' 17 9 = nd.right := by
  rw [Node.info, BitVec.extractLsb'_append_eq_of_le (by decide), BitVec.extractLsb'_append_eq_of_le (by decide),
    BitVec.extractLsb'_append_eq_of_add_le (by decide), BitVec.extractLsb'_eq_self]

theorem Node.info_left (nd : Node) : nd.info.extractLsb' 8 9 = nd.left := by
  rw [Node.info, BitVec.extractLsb'_append_eq_of_le (by decide),
    BitVec.extractLsb'_append_eq_of_add_le (by decide), BitVec.extractLsb'_eq_self]

theorem Node.info_sym (nd : Node) : nd.info.extractLsb' 0 8 = nd.sym := by
  rw [Node.info, BitVec.extractLsb'_append_eq_of_add_le (by decide), BitVec.extractLsb'_eq_self]

/-! ## The words of a slot (R80) -/

theorem Node.word_of_invalid {nd : Node} (h : nd.valid = false) (k : Nat) : nd.word k = 0#32 :=
  if_neg (by simp [h])

/-- While idle, word `k` of a slot reads as the store has it. -/
theorem State.readsAs_node {s : State} (hidle : s.status.busy = false) {i k : Nat} (hi : i < 512) (hk : k < 4) :
    s.ReadsAs (offsetAt (0x4000 + 16 * i + 4 * k)) ((NodeStore.at s.nodes i).word k) :=
  State.readsAs_wordAt (locOf_node s.cfg hi hk) (.inl hidle)

section ValidSlot

variable {nd : Node} (h : nd.valid = true)
include h

theorem Node.word_zero : nd.word 0 = nd.weight.extractLsb' 0 32 := if_pos h
theorem Node.word_one : nd.word 1 = nd.weight.extractLsb' 32 32 := if_pos h
theorem Node.word_two : nd.word 2 = nd.info := if_pos h
theorem Node.word_three : nd.word 3 = 0#32 := if_pos h

end ValidSlot

/-! ## The statements -/

/-- Settles O47: an access is a function of the location at its offset, and every HOST access has a next state. -/
theorem lowOffsetBitsAreIgnored : Obligations.LowOffsetBitsAreIgnored := by
  intro s off v rest
  have hloc := locOf_congr (alignedOffset_offsetAt_sub_mod off).symm
  simp only [step_read, step_write]
  exact ⟨congrArg _ (State.hostRead_congr (hloc _)), hostWrite_congr (hloc _) v, ⟨_, rfl⟩, hostWrite_isNext off v _⟩

/-- Settles O42: while idle the windows read the table, and neither takes a write. -/
theorem codeWindowsReadTheTable : Obligations.CodeWindowsReadTheTable := by
  intro s b
  refine ⟨fun hidle => ?_, fun v => ?_, fun w hw => ⟨fun hidle => ?_, fun v => ?_⟩⟩
  · exact State.readsAs_wordAt (locOf_codeLen _ b) (.inl hidle)
  · exact State.writeLeaves_ignored (locOf_codeLen _ b) Loc.noConfusion rfl rfl
  · exact State.readsAs_wordAt (locOf_codeBits _ b hw) (.inl hidle)
  · exact State.writeLeaves_ignored (locOf_codeBits _ b hw) Loc.noConfusion rfl rfl

/-- Settles O43: the four words of a valid slot one by one, INFO field by field; an invalid slot's words are 0. -/
theorem nodeWindowReadsTheSlot : Obligations.NodeWindowReadsTheSlot := by
  intro s i hi
  refine ⟨fun hidle hvalid => ⟨?_, ?_, ⟨(NodeStore.at s.nodes i).info, ?_, ?_⟩, ?_⟩, fun hidle hinvalid k hk => ?_,
    fun k v hk => ?_⟩
  · exact Node.word_zero hvalid ▸ State.readsAs_node hidle hi (k := 0) (by decide)
  · exact Node.word_one hvalid ▸ State.readsAs_node hidle hi (k := 1) (by decide)
  · exact Node.word_two hvalid ▸ State.readsAs_node hidle hi (k := 2) (by decide)
  · exact ⟨(Node.info_valid _).trans hvalid, Node.info_leaf _, Node.info_mbz _, Node.info_right _, Node.info_left _,
      Node.info_sym _⟩
  · exact Node.word_three hvalid ▸ State.readsAs_node hidle hi (k := 3) (by decide)
  · exact Node.word_of_invalid hinvalid k ▸ State.readsAs_node hidle hi hk
  · exact State.writeLeaves_ignored (locOf_node _ hi hk) Loc.noConfusion rfl rfl

/-- Settles O49: the ranges hold locations that take no write, and STATUS writes act through bits 1, 2 and 6 alone. -/
theorem reservedAndReadOnlyWritesAreIgnored : Obligations.ReservedAndReadOnlyWritesAreIgnored := by
  intro s off
  refine ⟨fun hres => ?_, fun h v => State.writeLeaves_of_takesNoWrite ?_ v, fun v ho h1 h2 h6 => ?_⟩
  · exact State.readsAs_wordAt (locOf_reserved s.cfg rfl hres) (.inr rfl)
  · obtain hres | hro := h
    · rw [locOf_reserved s.cfg rfl hres]
      rfl
    · exact locOf_takesNoWrite s.cfg rfl hro
  · have hl : locOf s.cfg off = .status := locOf_congr (off' := 0x00C#22) ho s.cfg
    exact State.writeLeaves_ignored hl Loc.noConfusion rfl (State.acknowledge_eq_self s h1 h2 h6)

end Sys2Proof.Machine
end

section
/-! PROOFS. The statements of spec/30_encoding.md: illegal command words (R102). -/

namespace Sys2Proof.Machine

/-! ## Illegal command words -/

/-- A command word with bits 31:8 nonzero or with OP in 0x09..0xFF decodes to no command (R102). -/
theorem decodeCmd_error_of_illegal {v : Word}
    (h : v.extractLsb' 8 24 ≠ 0 ∨ 0x09 ≤ (v.extractLsb' 0 8).toNat) : ∃ e, decodeCmd v = .error e := by
  by_cases hmbz : v.extractLsb' 8 24 = 0
  · have hop := h.resolve_left (not_not_intro hmbz)
    refine ⟨.unassignedOpcode, ?_⟩
    rw [decodeCmd, if_neg (not_not_intro hmbz)]
    split
    case h_10 => rfl
    all_goals omega
  · exact ⟨.mbzNotZero, if_pos hmbz⟩

/-- The CORE step on a word that decodes to no command raises ILLEGAL_CMD (R102, R120). -/
theorem coreStep_of_decodeCmd_error {s : State} {e : Reject} (h : decodeCmd s.cmd = .error e) :
    coreStep s = .next (s.raise .illegalCmd) := by
  rw [coreStep, h]

/-- While busy, a step whose event is the CORE's turn is the CORE step (R120). -/
theorem step_core {s : State} (hbusy : s.status.busy = true) (rest : List Event) :
    step { s with inputs := .core :: rest } = coreStep { s with inputs := rest } := by
  rw [step_cons _ _ _ rfl]
  exact if_pos hbusy

/-! ## The statements -/

/-- Settles O3: the write is accepted as every CMD write is; the word decodes to no command, so the CORE step raises
ILLEGAL_CMD, whose code is 0x01. -/
theorem illegalWordCompletesWithIllegalCmd : Obligations.IllegalWordCompletesWithIllegalCmd := by
  intro s v hillegal
  refine ⟨fun hidle => State.writeLeaves_cmd hidle v, ?_⟩
  rintro hbusy rfl rest
  obtain ⟨e, he⟩ := decodeCmd_error_of_illegal hillegal
  exact (step_core hbusy rest).trans (coreStep_of_decodeCmd_error he)

end Sys2Proof.Machine
end

section
/-! PROOFS. The statements of spec/40_tree_builder.md: NOP, CLEAR_FREQ, COUNT and BUILD_TREE (R121 to R127). -/

namespace Sys2Proof.Machine

/-! ## Counting -/

/-- Counting the bytes `bs` adds to each entry how often its symbol occurs (R123). -/
theorem at_foldl_count (f : SymTable Word) (bs : List Byte) (b : Byte) :
    SymTable.at (bs.foldl (fun f c => SymTable.put f c (SymTable.at f c + 1#32)) f) b =
      SymTable.at f b + BitVec.ofNat 32 (bs.count b) := by
  induction bs generalizing f with
  | nil => simp
  | cons c rest ih =>
    rw [List.foldl_cons, ih]
    by_cases h : b = c
    · subst h
      rw [SymTable.at_put_same, List.count_cons_self, BitVec.ofNat_add, BitVec.add_assoc, BitVec.add_comm 1#32]
    · rw [SymTable.at_put_other _ _ h, List.count_cons_of_ne (Ne.symm h)]

/-- The count of a byte string that is shorter than 2^32 bytes is exact (R123). -/
theorem countBytes_toNat {bs : List Byte} (h : bs.length < 2 ^ 32) (b : Byte) :
    (SymTable.at (countBytes bs) b).toNat = bs.count b := by
  have hcount : bs.count b < 2 ^ 32 := Nat.lt_of_le_of_lt List.count_le_length h
  rw [countBytes, at_foldl_count, freqZero, SymTable.at_replicate, BitVec.zero_add, BitVec.toNat_ofNat,
    Nat.mod_eq_of_lt hcount]

/-- Numbers below `n` are each counted once over `0 .. n-1`. -/
theorem sum_count_range {l : List Nat} {n : Nat} (h : ∀ x ∈ l, x < n) :
    ((List.range n).map l.count).sum = l.length := by
  have hsum := Multiset.sum_count_eq_card (s := Finset.range n) (m := l) fun x hx => Finset.mem_range.mpr (h x hx)
  simpa [Finset.sum, Multiset.range] using hsum

/-- Every byte of a string is one of the 256 symbols, so the counts add up to its length (R123). -/
theorem sum_count_symbols (bs : List Byte) :
    ((List.range 256).map fun k => bs.count (BitVec.ofNat 8 k)).sum = bs.length := by
  have hcount : ∀ k ∈ List.range 256, bs.count (BitVec.ofNat 8 k) = (bs.map BitVec.toNat).count k := fun k hk => by
    have hnat : (BitVec.ofNat 8 k).toNat = k := Nat.mod_eq_of_lt (List.mem_range.mp hk)
    rw [← List.count_map_of_injective bs BitVec.toNat (fun _ _ => BitVec.eq_of_toNat_eq), hnat]
  rw [List.map_congr_left hcount, sum_count_range (by simpa using fun b _ => BitVec.isLt b), List.length_map]

/-- The sum of the counts is the length of the input (R123). -/
theorem freqTotal_countBytes {bs : List Byte} (h : bs.length < 2 ^ 32) : freqTotal (countBytes bs) = bs.length := by
  simp only [freqTotal, countBytes_toNat h, sum_count_symbols]

/-- How often a symbol occurs in the input, by index (R123). -/
theorem State.count_inputBytes (s : State) (b : Byte) :
    s.inputBytes.count b = ((List.range s.inLen.toNat).filter fun i => s.inBuf.read i == b).length := by
  rw [State.inputBytes, List.count, List.countP_map, List.countP_eq_length_filter]
  rfl

/-- IN has at most 2^20 bytes (R6). -/
theorem Config.inBytes_le {c : Config} (h : c.wf = true) : c.inBytes ≤ 2 ^ 20 := by
  simp only [Config.wf, Config.sizeOk, Bool.and_eq_true, decide_eq_true_eq] at h
  exact h.1.2

/-! ## The statements about NOP and COUNT -/

/-- Settles O6: NOP's body leaves the state as it is; CMD's reset value is the NOP word, and BUSY is clear after reset. -/
theorem nopOnlyCompletes : Obligations.NopOnlyCompletes :=
  ⟨fun _ => rfl, rfl, rfl⟩

/-- Settles O8: the fold over the input counts each symbol, and 32 bits hold every count of at most 2^20 bytes. -/
theorem countCountsTheInput : Obligations.CountCountsTheInput := by
  intro s hwf
  have hsize := Config.inBytes_le hwf
  obtain ⟨hlong, hbody⟩ | ⟨hfits, hbody⟩ := countBody_cases s
  · exact ⟨fun _ => congrArg Phase.finish hbody, fun hfits => absurd hlong (Nat.not_lt.mpr hfits)⟩
  · have hlt : s.inputBytes.length < 2 ^ 32 := by rw [State.inputBytes_length]; omega
    refine ⟨fun hlong => absurd hfits (Nat.not_le.mpr hlong), fun _ => ⟨countBytes s.inputBytes,
      congrArg Phase.finish hbody, fun b => ?_, ?_, fun b => ?_⟩⟩
    · rw [countBytes_toNat hlt, State.count_inputBytes]
    · rw [freqTotal_countBytes hlt, State.inputBytes_length]
    · have hcount : s.inputBytes.count b ≤ s.inputBytes.length := List.count_le_length
      rw [State.inputBytes_length] at hcount
      rw [countBytes_toNat hlt]
      omega

/-! ## The present symbols (R9, R38) -/

theorem presentCount_le (f : SymTable Word) : presentCount f ≤ 256 :=
  (presentFrom_length_le f.toList 0).trans_eq f.length_toList

theorem mem_presentSymbols {f : SymTable Word} {b : Byte} : b ∈ presentSymbols f ↔ SymTable.at f b ≠ 0#32 := by
  have hentry : f.toList[b.toNat]? = some (SymTable.at f b) := by
    simp [SymTable.at]
  rw [presentSymbols, mem_presentFrom]
  constructor
  · rintro ⟨j, c, hc, hne, rfl⟩
    have hj : j < 256 := by simpa using (List.getElem?_eq_some_iff.mp hc).1
    rw [Nat.zero_add, BitVec.toNat_ofNat, Nat.mod_eq_of_lt hj, hc] at hentry
    rwa [Nat.zero_add, ← Option.some.inj hentry]
  · exact fun hne => ⟨b.toNat, _, hentry, hne, by simp⟩

/-- The loop over the counts meets the symbols in ascending order (R124). -/
theorem presentFrom_pairwise {l : List Word} {k : Nat} (h : k + l.length ≤ 256) :
    (presentFrom l k).Pairwise fun a b => a.toNat < b.toNat := by
  induction l generalizing k with
  | nil => exact List.Pairwise.nil
  | cons c rest ih =>
    rw [List.length_cons] at h
    have hrest := ih (k := k + 1) (by omega)
    rw [presentFrom]
    split
    · exact hrest
    · refine List.pairwise_cons.mpr ⟨fun b hb => ?_, hrest⟩
      obtain ⟨j, d, hd, -, rfl⟩ := mem_presentFrom.mp hb
      have hj := (List.getElem?_eq_some_iff.mp hd).1
      simp only [BitVec.toNat_ofNat]
      omega

theorem presentSymbols_pairwise (f : SymTable Word) : (presentSymbols f).Pairwise fun a b => a.toNat < b.toNat :=
  presentFrom_pairwise (by simp)

/-! ## The leaves (R124) -/

/-- A slot outside the placed range is as before. -/
theorem at_placeLeaves_outside (f : SymTable Word) (st : NodeStore) (i : Nat) (bs : List Byte) {j : Nat}
    (h : j < i ∨ i + bs.length ≤ j) : NodeStore.at (placeLeaves f st i bs) j = NodeStore.at st j := by
  induction bs generalizing st i with
  | nil => rfl
  | cons b rest ih =>
    rw [List.length_cons] at h
    rw [placeLeaves, ih _ _ (by omega), NodeStore.at_put_other _ _ (by omega)]

/-- A slot inside the placed range holds its symbol's leaf. -/
theorem at_placeLeaves_inside (f : SymTable Word) (st : NodeStore) (i : Nat) (bs : List Byte)
    (hfit : i + bs.length ≤ 512) {k : Nat} (h : k < bs.length) :
    NodeStore.at (placeLeaves f st i bs) (i + k) = Node.ofLeaf bs[k] (SymTable.at f bs[k]) := by
  induction bs generalizing st i k with
  | nil => simp at h
  | cons b rest ih =>
    rw [List.length_cons] at hfit h
    rw [placeLeaves]
    cases k with
    | zero =>
      rw [at_placeLeaves_outside _ _ _ _ (by omega), Nat.add_zero, NodeStore.at_put_same _ _ (by omega),
        List.getElem_cons_zero]
    | succ k =>
      have hslot : i + (k + 1) = i + 1 + k := by omega
      rw [hslot, ih _ _ (by omega) (by omega), List.getElem_cons_succ]

/-- The node store after stage 1 of BUILD_TREE (R124). -/
def leafStore (f : SymTable Word) : NodeStore := placeLeaves f NodeStore.empty 0 (presentSymbols f)

theorem at_leafStore (f : SymTable Word) {k : Nat} (h : k < (presentSymbols f).length) :
    NodeStore.at (leafStore f) k = Node.ofLeaf (presentSymbols f)[k] (SymTable.at f (presentSymbols f)[k]) := by
  have hn : (presentSymbols f).length ≤ 256 := presentCount_le f
  simpa only [leafStore, Nat.zero_add] using at_placeLeaves_inside f NodeStore.empty 0 (presentSymbols f) (by omega) h

theorem at_leafStore_unused (f : SymTable Word) {k : Nat} (h : presentCount f ≤ k) :
    NodeStore.at (leafStore f) k = Node.invalid := by
  rw [leafStore, at_placeLeaves_outside _ _ _ _ (.inr (by rwa [Nat.zero_add])), NodeStore.at_empty]

/-- The sum of the weights of the slots in a list. -/
def weightSum (st : NodeStore) (l : List Nat) : Nat := (l.map fun j => (NodeStore.at st j).weight.toNat).sum

/-- 256 counts of 32 bits add up to less than 2^40 (R125). -/
theorem weightSum_leafStore_lt (f : SymTable Word) :
    weightSum (leafStore f) (List.range (presentCount f)) < 2 ^ 40 := by
  have hleaf : ∀ w ∈ (List.range (presentCount f)).map fun j => (NodeStore.at (leafStore f) j).weight.toNat,
      w ≤ 2 ^ 32 - 1 := by
    simp only [List.mem_map, List.mem_range]
    rintro _ ⟨j, hj, rfl⟩
    have hcount := (SymTable.at f (presentSymbols f)[j]).isLt
    rw [at_leafStore f hj, Node.ofLeaf, BitVec.toNat_setWidth]
    omega
  have hsum := List.sum_le_card_nsmul _ _ hleaf
  have hn := presentCount_le f
  rw [List.length_map, List.length_range, smul_eq_mul] at hsum
  rw [weightSum]
  omega

/-! ## The selection key (R125) -/

section Key

variable {st st' : NodeStore} {i j k n : Nat}

theorem keyLess_iff : keyLess st i j = true ↔ KeyBefore st i j := by
  simp [keyLess, KeyBefore, BitVec.lt_def, BitVec.toNat_inj]

theorem KeyBefore.ne (h : KeyBefore st i j) : i ≠ j := by
  rintro rfl
  simp [KeyBefore] at h

theorem KeyBefore.trans (h : KeyBefore st i j) (h' : KeyBefore st j k) : KeyBefore st i k := by
  unfold KeyBefore at *
  omega

theorem KeyBefore.of_not_of_ne (h : ¬ KeyBefore st j i) (hne : i ≠ j) : KeyBefore st i j := by
  unfold KeyBefore at *
  omega

theorem KeyBefore.congr (hi : NodeStore.at st' i = NodeStore.at st i) (hj : NodeStore.at st' j = NodeStore.at st j)
    (h : KeyBefore st i j) : KeyBefore st' i j := by
  rwa [KeyBefore, hi, hj]

theorem argmin_eq_none_iff {l : List Nat} : argmin st l = none ↔ l = [] := by
  cases l with
  | nil => simp [argmin]
  | cons i rest =>
    rw [argmin]
    split
    · simp
    · split <;> simp

/-- `argmin` finds the index of lowest key (R125). -/
theorem argmin_spec {l : List Nat} {a : Nat} (h : argmin st l = some a) :
    a ∈ l ∧ ∀ j ∈ l, j ≠ a → KeyBefore st a j := by
  induction l generalizing a with
  | nil => simp [argmin] at h
  | cons i rest ih =>
    rw [argmin] at h
    split at h
    next hrest =>
      obtain rfl := Option.some.inj h
      simp [argmin_eq_none_iff.mp hrest]
    next c hrest =>
      obtain ⟨hmem, hlow⟩ := ih hrest
      split at h
      next hless =>
        obtain rfl := Option.some.inj h
        refine ⟨List.mem_cons_of_mem _ hmem, List.forall_mem_cons.mpr ⟨fun _ => keyLess_iff.mp hless, hlow⟩⟩
      next hless =>
        obtain rfl := Option.some.inj h
        have hhead : i ≠ c → KeyBefore st i c := KeyBefore.of_not_of_ne (mt keyLess_iff.mpr hless)
        refine ⟨List.mem_cons_self, List.forall_mem_cons.mpr ⟨fun hne => absurd rfl hne, fun j hj hne => ?_⟩⟩
        by_cases hjc : j = c
        · exact hjc ▸ hhead (hjc ▸ hne.symm)
        · by_cases hic : i = c
          · exact hic ▸ hlow j hj hjc
          · exact (hhead hic).trans (hlow j hj hjc)

end Key

/-! ## One merge (R125) -/

/-- The merge of the slots `a` and `b`. -/
def Merge.join (m : Merge) (a b : Nat) : Merge :=
  { nodes := NodeStore.put m.nodes m.next (Node.ofChildren m.nodes a b)
    active := (m.active.erase a).erase b ++ [m.next]
    next := m.next + 1 }

@[simp] theorem Merge.join_nodes (m : Merge) (a b : Nat) :
    (m.join a b).nodes = NodeStore.put m.nodes m.next (Node.ofChildren m.nodes a b) := rfl
@[simp] theorem Merge.join_active (m : Merge) (a b : Nat) :
    (m.join a b).active = (m.active.erase a).erase b ++ [m.next] := rfl
@[simp] theorem Merge.join_next (m : Merge) (a b : Nat) : (m.join a b).next = m.next + 1 := rfl

/-- `a` and `b` are the two active slots of lowest key, in that order. -/
structure Merge.Lowest (m : Merge) (a b : Nat) : Prop where
  left_mem : a ∈ m.active
  right_mem : b ∈ m.active
  before : KeyBefore m.nodes a b
  lowest : ∀ j ∈ m.active, j ≠ a → j ≠ b → KeyBefore m.nodes b j

/-- An iteration merges the two active slots of lowest key, where there are two. -/
theorem Merge.iterate_cases (m : Merge) (hnodup : m.active.Nodup) :
    (m.active.length ≤ 1 ∧ m.iterate = none) ∨ ∃ a b, m.Lowest a b ∧ m.iterate = some (m.join a b) := by
  cases ha : argmin m.nodes m.active with
  | none => exact .inl ⟨by simp [argmin_eq_none_iff.mp ha], by simp [Merge.iterate, ha]⟩
  | some a =>
    obtain ⟨hamem, halow⟩ := argmin_spec ha
    cases hb : argmin m.nodes (m.active.erase a) with
    | none =>
      have hlen := List.length_erase_of_mem hamem
      rw [argmin_eq_none_iff.mp hb, List.length_nil] at hlen
      exact .inl ⟨by omega, by simp [Merge.iterate, ha, hb]⟩
    | some b =>
      obtain ⟨hbmem, hblow⟩ := argmin_spec hb
      obtain ⟨hne, hbmem⟩ := hnodup.mem_erase_iff.mp hbmem
      exact .inr ⟨a, b, ⟨hamem, hbmem, halow b hbmem hne,
        fun j hj hja hjb => hblow j (hnodup.mem_erase_iff.mpr ⟨hja, hj⟩) hjb⟩,
        by simp [Merge.iterate, ha, hb, Merge.join]⟩

/-- The active slots are the two to merge and the others. -/
theorem Merge.Lowest.perm {m : Merge} {a b : Nat} (h : m.Lowest a b) :
    m.active.Perm (a :: b :: (m.active.erase a).erase b) :=
  (List.perm_cons_erase h.left_mem).trans
    ((List.perm_cons_erase ((List.mem_erase_of_ne h.before.ne.symm).mpr h.right_mem)).cons a)

theorem weightSum_perm {st : NodeStore} {l l' : List Nat} (h : l.Perm l') : weightSum st l = weightSum st l' :=
  (h.map _).sum_nat

theorem weightSum_congr {st st' : NodeStore} {l : List Nat} (h : ∀ j ∈ l, NodeStore.at st' j = NodeStore.at st j) :
    weightSum st' l = weightSum st l :=
  congrArg List.sum (List.map_congr_left fun j hj => by rw [h j hj])

/-! ## What was popped (R125) -/

section Popped

variable {st st' : NodeStore} {n i j : Nat}

theorem PoppedBefore.congr (hst : ∀ p, p < i → NodeStore.at st' p = NodeStore.at st p) :
    PoppedBefore st' n i j ↔ PoppedBefore st n i j := by
  refine exists_congr fun p => and_congr_right fun _ => and_congr_right fun hp => ?_
  rw [hst p hp]

/-- The merge that made slot `i` popped its two children. -/
theorem poppedBefore_succ (hi : n ≤ i) :
    PoppedBefore st n (i + 1) j ↔
      PoppedBefore st n i j ∨ (NodeStore.at st i).left.toNat = j ∨ (NodeStore.at st i).right.toNat = j := by
  constructor
  · rintro ⟨p, hnp, hpi, hchild⟩
    obtain hlt | rfl := Nat.lt_succ_iff_lt_or_eq.mp hpi
    · exact .inl ⟨p, hnp, hlt, hchild⟩
    · exact .inr hchild
  · rintro (⟨p, hnp, hpi, hchild⟩ | hchild)
    · exact ⟨p, hnp, Nat.lt_succ_of_lt hpi, hchild⟩
    · exact ⟨i, hi, Nat.lt_succ_self i, hchild⟩

end Popped

/-- Slot `i` joins the slots `a` and `b`, the two of lowest key among those made and not yet popped, and the sum of their
weights is exact (R125, R126). -/
structure JoinsLowest (st : NodeStore) (n i a b : Nat) : Prop where
  node : NodeStore.at st i = Node.ofChildren st a b
  left_lt : a < i
  right_lt : b < i
  before : KeyBefore st a b
  left_unpopped : ¬ PoppedBefore st n i a
  right_unpopped : ¬ PoppedBefore st n i b
  weight_lt : (NodeStore.at st a).weight.toNat + (NodeStore.at st b).weight.toNat < 2 ^ 40
  lowest : ∀ j, j < i → j ≠ a → j ≠ b → ¬ PoppedBefore st n i j → KeyBefore st b j

theorem Node.ofChildren_congr {st st' : NodeStore} {a b : Nat} (ha : NodeStore.at st' a = NodeStore.at st a)
    (hb : NodeStore.at st' b = NodeStore.at st b) : Node.ofChildren st' a b = Node.ofChildren st a b := by
  rw [Node.ofChildren, Node.ofChildren, ha, hb]

section Joins

variable {st st' : NodeStore} {n i a b : Nat}

/-- What slot `i` joins is a matter of the slots up to `i`. -/
theorem JoinsLowest.congr (hst : ∀ j, j ≤ i → NodeStore.at st' j = NodeStore.at st j) (h : JoinsLowest st n i a b) :
    JoinsLowest st' n i a b := by
  have ha := hst a h.left_lt.le
  have hb := hst b h.right_lt.le
  have hpopped {j : Nat} : PoppedBefore st' n i j ↔ PoppedBefore st n i j := PoppedBefore.congr fun p hp => hst p hp.le
  exact {
    node := by rw [hst i le_rfl, h.node, Node.ofChildren_congr ha hb]
    left_lt := h.left_lt
    right_lt := h.right_lt
    before := h.before.congr ha hb
    left_unpopped := mt hpopped.mp h.left_unpopped
    right_unpopped := mt hpopped.mp h.right_unpopped
    weight_lt := by rw [ha, hb]; exact h.weight_lt
    lowest := fun j hj hja hjb hun => (h.lowest j hj hja hjb (mt hpopped.mpr hun)).congr hb (hst j hj.le) }

variable (h : JoinsLowest st n i a b)
include h

theorem JoinsLowest.left_eq (hi : i < 512) : (NodeStore.at st i).left.toNat = a := by
  rw [h.node]
  exact Nat.mod_eq_of_lt (h.left_lt.trans hi)

theorem JoinsLowest.right_eq (hi : i < 512) : (NodeStore.at st i).right.toNat = b := by
  rw [h.node]
  exact Nat.mod_eq_of_lt (h.right_lt.trans hi)

theorem JoinsLowest.weight_eq :
    (NodeStore.at st i).weight.toNat = (NodeStore.at st a).weight.toNat + (NodeStore.at st b).weight.toNat := by
  have hlt := h.weight_lt
  rw [h.node, Node.ofChildren, BitVec.toNat_add]
  exact Nat.mod_eq_of_lt (by omega)

end Joins

/-! ## The merge loop (R125) -/

/-- What every round of the merge loop over the leaf store `st` of `n` leaves keeps. -/
structure Merge.Inv (st : NodeStore) (n : Nat) (m : Merge) : Prop where
  le_next : n ≤ m.next
  next_le : m.next ≤ 2 * n - 1
  length_add_next : m.active.length + m.next = 2 * n
  nodup : m.active.Nodup
  mem_active : ∀ j, j ∈ m.active ↔ j < m.next ∧ ¬ PoppedBefore m.nodes n m.next j
  leaf : ∀ k, k < n → NodeStore.at m.nodes k = NodeStore.at st k
  joins : ∀ i, n ≤ i → i < m.next → ∃ a b, JoinsLowest m.nodes n i a b
  unused : ∀ i, m.next ≤ i → NodeStore.at m.nodes i = Node.invalid
  weight : weightSum m.nodes m.active = weightSum st (List.range n)

section Loop

variable {st : NodeStore} {n : Nat} {m : Merge}

/-- Before the first round every leaf is active and nothing is popped. -/
theorem Merge.inv_start (hunused : ∀ i, n ≤ i → NodeStore.at st i = Node.invalid) :
    Merge.Inv st n { nodes := st, active := List.range n, next := n } where
  le_next := le_rfl
  next_le := by dsimp only; omega
  length_add_next := by simp; omega
  nodup := List.nodup_range
  mem_active j := by
    have hnone : ¬ PoppedBefore st n n j := fun ⟨p, hnp, hpn, _⟩ => absurd hpn (Nat.not_lt.mpr hnp)
    simp [hnone]
  leaf _ _ := rfl
  joins i hni hi := absurd hi (Nat.not_lt.mpr hni)
  unused := hunused
  weight := rfl

/-- A child is an older slot, so the newest slots are not popped. -/
theorem Merge.Inv.not_popped (h : Merge.Inv st n m) (hn : n ≤ 256) {j : Nat} (hj : m.next ≤ j + 1) :
    ¬ PoppedBefore m.nodes n m.next j := by
  rintro ⟨p, hnp, hp, hchild⟩
  obtain ⟨a, b, hjoin⟩ := h.joins p hnp hp
  have hnext := h.next_le
  have ha := hjoin.left_lt
  have hb := hjoin.right_lt
  rw [hjoin.left_eq (by omega), hjoin.right_eq (by omega)] at hchild
  omega

/-- The children of the next slot are the two unpopped slots of lowest key, and their weights add up exactly. -/
theorem Merge.Inv.joinsLowest (h : Merge.Inv st n m) (hweight : weightSum st (List.range n) < 2 ^ 40)
    {a b : Nat} (hlow : m.Lowest a b) (hnext : m.next < 512) :
    JoinsLowest (m.join a b).nodes n m.next a b := by
  obtain ⟨ha, haun⟩ := (h.mem_active a).mp hlow.left_mem
  obtain ⟨hb, hbun⟩ := (h.mem_active b).mp hlow.right_mem
  have hold {j : Nat} (hj : j < m.next) : NodeStore.at (m.join a b).nodes j = NodeStore.at m.nodes j :=
    NodeStore.at_put_other _ _ hj.ne
  have hpopped {j : Nat} : PoppedBefore (m.join a b).nodes n m.next j ↔ PoppedBefore m.nodes n m.next j :=
    PoppedBefore.congr fun p hp => hold hp
  have hsum := h.weight
  rw [weightSum_perm hlow.perm] at hsum
  simp only [weightSum, List.map_cons, List.sum_cons] at hsum hweight
  exact {
    node := (NodeStore.at_put_same _ _ hnext).trans (Node.ofChildren_congr (hold ha) (hold hb)).symm
    left_lt := ha
    right_lt := hb
    before := hlow.before.congr (hold ha) (hold hb)
    left_unpopped := mt hpopped.mp haun
    right_unpopped := mt hpopped.mp hbun
    weight_lt := by rw [hold ha, hold hb]; omega
    lowest := fun j hj hja hjb hun =>
      (hlow.lowest j ((h.mem_active j).mpr ⟨hj, mt hpopped.mpr hun⟩) hja hjb).congr (hold hb) (hold hj) }

/-- After a round the active slots are again the unpopped ones. -/
theorem Merge.Inv.mem_active_join (h : Merge.Inv st n m) (hn : n ≤ 256) {a b : Nat}
    (hjoin : JoinsLowest (m.join a b).nodes n m.next a b) (hnext : m.next < 512) (j : Nat) :
    j ∈ (m.join a b).active ↔ j < m.next + 1 ∧ ¬ PoppedBefore (m.join a b).nodes n (m.next + 1) j := by
  have hpopped : PoppedBefore (m.join a b).nodes n m.next j ↔ PoppedBefore m.nodes n m.next j :=
    PoppedBefore.congr fun p hp => NodeStore.at_put_other _ _ hp.ne
  have hrest : j ∈ (m.active.erase a).erase b ↔ j ≠ b ∧ j ≠ a ∧ j ∈ m.active := by
    rw [(h.nodup.erase a).mem_erase_iff, h.nodup.mem_erase_iff]
  have hleft := hjoin.left_lt
  have hright := hjoin.right_lt
  rw [poppedBefore_succ h.le_next, hpopped, hjoin.left_eq hnext, hjoin.right_eq hnext, Merge.join_active, List.mem_append,
    List.mem_singleton, hrest, h.mem_active]
  by_cases hun : PoppedBefore m.nodes n m.next j
  · have hj : j ≠ m.next := fun hj => h.not_popped hn (by omega) hun
    simp only [hun, hj, not_true, and_false, or_self, true_or]
  · simp only [hun, not_false_eq_true, and_true, false_or]
    omega

/-- The parent's weight is the sum of its children's, so the active weights keep their sum. -/
theorem Merge.weightSum_join {a b : Nat} (hlow : m.Lowest a b) (hlt : ∀ j ∈ m.active, j < m.next)
    (hjoin : JoinsLowest (m.join a b).nodes n m.next a b) :
    weightSum (m.join a b).nodes (m.join a b).active = weightSum m.nodes m.active := by
  have hold : ∀ j ∈ m.active, NodeStore.at (m.join a b).nodes j = NodeStore.at m.nodes j :=
    fun j hj => NodeStore.at_put_other _ _ (hlt j hj).ne
  calc weightSum (m.join a b).nodes (m.join a b).active
      = weightSum (m.join a b).nodes (a :: b :: (m.active.erase a).erase b) := by
        simp only [weightSum, Merge.join_active, List.map_append, List.sum_append, List.map_cons, List.sum_cons,
          List.map_nil, List.sum_nil, hjoin.weight_eq]
        omega
    _ = weightSum (m.join a b).nodes m.active := (weightSum_perm hlow.perm).symm
    _ = weightSum m.nodes m.active := weightSum_congr hold

/-- A round keeps the invariant. -/
theorem Merge.Inv.join (h : Merge.Inv st n m) (hn : n ≤ 256) (hweight : weightSum st (List.range n) < 2 ^ 40)
    {a b : Nat} (hlow : m.Lowest a b) : Merge.Inv st n (m.join a b) := by
  have hlt : ∀ j ∈ m.active, j < m.next := fun j hj => ((h.mem_active j).mp hj).1
  have hperm := hlow.perm
  have hnodup := hperm.nodup_iff.mp h.nodup
  have hlen := hperm.length_eq
  have hle := h.le_next
  have hcount := h.length_add_next
  simp only [List.length_cons] at hlen
  have hnext : m.next < 512 := by omega
  have hjoin := h.joinsLowest hweight hlow hnext
  have hold {j : Nat} (hj : j ≠ m.next) : NodeStore.at (m.join a b).nodes j = NodeStore.at m.nodes j :=
    NodeStore.at_put_other _ _ hj
  exact {
    le_next := Nat.le_succ_of_le hle
    next_le := by rw [Merge.join_next]; omega
    length_add_next := by simp only [Merge.join_active, Merge.join_next, List.length_append, List.length_singleton]; omega
    nodup := by
      refine hnodup.of_cons.of_cons.append (List.nodup_singleton _) (List.disjoint_singleton.mpr fun hmem => ?_)
      exact (hlt m.next (List.mem_of_mem_erase (List.mem_of_mem_erase hmem))).false
    mem_active := h.mem_active_join hn hjoin hnext
    leaf := fun k hk => (hold (hk.trans_le hle).ne).trans (h.leaf k hk)
    joins := fun i hni hi => by
      obtain hlt | rfl := Nat.lt_succ_iff_lt_or_eq.mp hi
      · obtain ⟨c, d, hcd⟩ := h.joins i hni hlt
        exact ⟨c, d, hcd.congr fun j hj => hold (hj.trans_lt hlt).ne⟩
      · exact ⟨a, b, hjoin⟩
    unused := fun i hi => (hold (Nat.ne_of_gt hi)).trans (h.unused i (Nat.le_of_succ_le hi))
    weight := (Merge.weightSum_join hlow hlt hjoin).trans h.weight }

/-- The loop keeps the invariant, and with enough rounds it makes every slot up to 2n-2. -/
theorem Merge.Inv.loop (hn : n ≤ 256) (hweight : weightSum st (List.range n) < 2 ^ 40) (k : Nat)
    (h : Merge.Inv st n m) (hk : 2 * n ≤ m.next + k + 1) :
    Merge.Inv st n (Merge.loop k m) ∧ (Merge.loop k m).next = 2 * n - 1 := by
  induction k generalizing m with
  | zero => exact ⟨h, le_antisymm h.next_le (by rw [Merge.loop]; omega)⟩
  | succ k ih =>
    obtain ⟨hlen, hstop⟩ | ⟨a, b, hlow, hgo⟩ := m.iterate_cases h.nodup
    · have hcount := h.length_add_next
      simp only [Merge.loop, hstop]
      exact ⟨h, le_antisymm h.next_le (by omega)⟩
    · simp only [Merge.loop, hgo]
      exact ih (h.join hn hweight hlow) (by rw [Merge.join_next]; omega)

/-- When all slots are made, the last one alone is active. -/
theorem Merge.Inv.active_eq (h : Merge.Inv st n m) (hn : n ≤ 256) (hpos : 1 ≤ n) (hnext : m.next = 2 * n - 1) :
    m.active = [2 * n - 2] := by
  have hcount := h.length_add_next
  obtain ⟨r, hr⟩ := List.length_eq_one_iff.mp (show m.active.length = 1 by omega)
  have hlast : 2 * n - 2 ∈ m.active := (h.mem_active _).mpr ⟨by omega, h.not_popped hn (by omega)⟩
  rw [hr, List.mem_singleton] at hlast
  rw [hr, hlast]

end Loop

/-! ## The tree of a frequency table (R124 to R127) -/

section TreeOf

variable (f : SymTable Word)

/-- The local variables at the end of BUILD_TREE's merge loop (R125). -/
def merged : Merge :=
  Merge.loop (presentCount f)
    { nodes := leafStore f, active := List.range (presentCount f), next := presentCount f }

theorem merged_inv :
    Merge.Inv (leafStore f) (presentCount f) (merged f) ∧ (merged f).next = 2 * presentCount f - 1 :=
  Merge.Inv.loop (presentCount_le f) (weightSum_leafStore_lt f) _
    (Merge.inv_start fun _ hi => at_leafStore_unused f hi) (by dsimp only; omega)

@[simp] theorem treeOf_symCount : (treeOf f).symCount = BitVec.ofNat 9 (presentCount f) := rfl

/-- The root is the slot made last, or NONE where there is none (R127). -/
theorem treeOf_root :
    (treeOf f).root = if presentCount f = 0 then 0x1FF#9 else BitVec.ofNat 9 (2 * presentCount f - 2) := by
  obtain ⟨hinv, hnext⟩ := merged_inv f
  have hroot : (treeOf f).root = match (merged f).active with
    | [] => NodeIdx.none
    | r :: _ => BitVec.ofNat 9 r := rfl
  rw [hroot]
  split_ifs with hn
  · have hcount := hinv.length_add_next
    rw [List.length_eq_zero_iff.mp (show (merged f).active.length = 0 by omega)]
  · rw [hinv.active_eq (presentCount_le f) (by omega) hnext]

variable {f}

theorem treeOf_leaf {k : Nat} (h : k < (presentSymbols f).length) :
    NodeStore.at (treeOf f).nodes k = Node.ofLeaf (presentSymbols f)[k] (SymTable.at f (presentSymbols f)[k]) :=
  ((merged_inv f).1.leaf k h).trans (at_leafStore f h)

theorem treeOf_joins {i : Nat} (hni : presentCount f ≤ i) (hi : i < 2 * presentCount f - 1) :
    ∃ a b, JoinsLowest (treeOf f).nodes (presentCount f) i a b := by
  obtain ⟨hinv, hnext⟩ := merged_inv f
  exact hinv.joins i hni (by omega)

theorem treeOf_unused {i : Nat} (h : 2 * presentCount f - 1 ≤ i) :
    NodeStore.at (treeOf f).nodes i = Node.invalid := by
  obtain ⟨hinv, hnext⟩ := merged_inv f
  exact hinv.unused i (by omega)

/-- Every slot up to the root is a leaf or an internal node, so it is valid (R40). -/
theorem treeOf_valid {i : Nat} (h : i < 2 * presentCount f - 1) : (NodeStore.at (treeOf f).nodes i).valid = true := by
  obtain hleaf | hinternal := Nat.lt_or_ge i (presentCount f)
  · rw [treeOf_leaf hleaf, Node.ofLeaf]
  · obtain ⟨a, b, hjoin⟩ := treeOf_joins hinternal h
    rw [hjoin.node, Node.ofChildren]

end TreeOf

/-- BUILD_TREE answers the state with the tree of FREQ, and never fails (R124, R127). -/
theorem exec_buildTree (s : State) :
    exec .buildTree s =
      .next { s.setTree (treeOf s.freq) with
        status := { s.status.success with treeValid := true, codesValid := false } } := rfl

/-! ## The statements about CLEAR_FREQ and BUILD_TREE -/

/-- Settles O7: CLEAR_FREQ stores the zero table; a table of zeros has no present symbol, hence no root. -/
theorem clearFreqEmptiesTheTable : Obligations.ClearFreqEmptiesTheTable := by
  refine ⟨fun s => ⟨freqZero, rfl, SymTable.at_replicate 0#32⟩, fun s hzero => ⟨_, exec_buildTree s, ?_⟩⟩
  have hnone : presentCount s.freq = 0 :=
    List.length_eq_zero_iff.mpr (List.eq_nil_iff_forall_not_mem.mpr fun b hb => mem_presentSymbols.mp hb (hzero b))
  exact ⟨congrArg (BitVec.ofNat 9) hnone, (treeOf_root s.freq).trans (if_pos hnone)⟩

/-- Settles O9: the merge loop leaves the leaves where stage 1 put them, and each slot it makes joins two older ones. -/
theorem buildTreeLaysOutTheNodeStore : Obligations.BuildTreeLaysOutTheNodeStore := by
  intro s
  have hn := presentCount_le s.freq
  refine ⟨(treeOf s.freq).nodes, ?_, hn, presentSymbols_pairwise s.freq, fun _ => mem_presentSymbols,
    fun _ => treeOf_leaf, fun i hni hi => ?_, fun _ hi _ => treeOf_unused hi⟩
  · rw [exec_buildTree, State.setTree, treeOf_root, treeOf_symCount]
  · obtain ⟨a, b, hjoin⟩ := treeOf_joins hni hi
    have ha := hjoin.left_lt
    have hb := hjoin.right_lt
    rw [hjoin.left_eq (by omega), hjoin.right_eq (by omega)]
    refine ⟨treeOf_valid hi, ?_, ?_, ha, hb, treeOf_valid (by omega), treeOf_valid (by omega)⟩ <;>
      rw [hjoin.node, Node.ofChildren]

/-- Settles O10: each slot the merge loop makes joins the two unpopped slots of lowest key, and the last one is
the root. -/
theorem buildTreeJoinsTheTwoLowestKeys : Obligations.BuildTreeJoinsTheTwoLowestKeys := by
  intro s
  have hn := presentCount_le s.freq
  refine ⟨_, exec_buildTree s, fun hpos => ?_, fun i hi _ => ?_, fun i hni hi => ?_⟩
  · have hroot := (treeOf_root s.freq).trans (if_neg (Nat.ne_of_gt hpos))
    exact (congrArg BitVec.toNat hroot).trans (Nat.mod_eq_of_lt (by omega))
  · exact congrArg Node.valid (treeOf_unused hi)
  · obtain ⟨a, b, hjoin⟩ := treeOf_joins hni hi
    simp only [State.setTree_nodes, hjoin.left_eq (show i < 512 by omega), hjoin.right_eq (show i < 512 by omega)]
    refine ⟨treeOf_valid hi, ?_, ?_, hjoin.left_lt, hjoin.right_lt, hjoin.before, hjoin.left_unpopped,
      hjoin.right_unpopped, hjoin.weight_eq, hjoin.weight_eq.trans_lt hjoin.weight_lt, hjoin.lowest⟩ <;>
      rw [hjoin.node, Node.ofChildren]

end Sys2Proof.Machine
end

section
/-! PROOFS. The statements of spec/41_code_generator.md: the one-leaf tree, the empty tree and absent symbols (R150 to
R152). -/

namespace Sys2Proof.Machine

/-! ## Entering codes in a table (R150) -/

theorem CodeTable.at_enter_len (t : CodeTable) (c : LeafCode) (b : Byte) :
    SymTable.at (t.enter c).len b = if b = c.sym then BitVec.ofNat 8 c.len else SymTable.at t.len b := by
  split_ifs with h
  · rw [h]; exact SymTable.at_put_same _ _ _
  · exact SymTable.at_put_other _ _ h

theorem CodeTable.at_enter_bits (t : CodeTable) (c : LeafCode) (b : Byte) :
    SymTable.at (t.enter c).bits b = if b = c.sym then BitVec.ofNat 256 c.bits else SymTable.at t.bits b := by
  split_ifs with h
  · rw [h]; exact SymTable.at_put_same _ _ _
  · exact SymTable.at_put_other _ _ h

@[simp] theorem CodeTable.at_empty_len (b : Byte) : SymTable.at CodeTable.empty.len b = 0#8 := SymTable.at_replicate _ _
@[simp] theorem CodeTable.at_empty_bits (b : Byte) : SymTable.at CodeTable.empty.bits b = 0#256 :=
  SymTable.at_replicate _ _

/-- The entry of a symbol that has no code (R152). -/
def CodeTable.NoCode (t : CodeTable) (b : Byte) : Prop := SymTable.at t.len b = 0#8 ∧ SymTable.at t.bits b = 0#256

section NoCode

variable {t : CodeTable} {c : LeafCode} {b : Byte}

theorem CodeTable.noCode_empty (b : Byte) : CodeTable.empty.NoCode b := ⟨at_empty_len b, at_empty_bits b⟩

theorem CodeTable.NoCode.enter (h : t.NoCode b) (hne : b ≠ c.sym) : (t.enter c).NoCode b :=
  ⟨(at_enter_len t c b).trans ((if_neg hne).trans h.1), (at_enter_bits t c b).trans ((if_neg hne).trans h.2)⟩

theorem CodeTable.NoCode.foldl_enter {leaves : List LeafCode} (h : t.NoCode b) (hne : ∀ c ∈ leaves, b ≠ c.sym) :
    (leaves.foldl CodeTable.enter t).NoCode b :=
  List.foldlRecOn (motive := fun t => t.NoCode b) leaves CodeTable.enter h fun _ ht c hc => ht.enter (hne c hc)

end NoCode

/-! ## The code table of a tree, by the number of leaves (R150 to R152) -/

section CodesOf

variable {t : Tree}

theorem codesOf_of_no_leaf (h : t.symCount.toNat = 0) : codesOf t = some CodeTable.empty := if_pos h

theorem codesOf_of_one_leaf (h : t.symCount.toNat = 1) :
    codesOf t =
      some (CodeTable.empty.enter { sym := (NodeStore.at t.nodes t.root.toNat).sym, len := 1, bits := 0 }) := by
  rw [codesOf, if_neg (by omega), if_pos h]

theorem codesOf_of_walk (h : 2 ≤ t.symCount.toNat) {leaves : List LeafCode}
    (hwalk : walk t.nodes 512 t.root 0 0 = some leaves) :
    codesOf t = some (leaves.foldl CodeTable.enter CodeTable.empty) := by
  rw [codesOf, if_neg (by omega), if_neg (by omega), hwalk]

end CodesOf

/-! ## The walk (R150) -/

section Walk

variable {nodes : NodeStore} {fuel : Nat} {i : NodeIdx} {len bits : Nat}

theorem walk_leaf (h : (NodeStore.at nodes i.toNat).leaf = true) :
    walk nodes (fuel + 1) i len bits =
      some [{ sym := (NodeStore.at nodes i.toNat).sym, len := len, bits := bits }] := if_pos h

theorem walk_internal (h : (NodeStore.at nodes i.toNat).leaf = false) {l r : List LeafCode}
    (hleft : walk nodes fuel (NodeStore.at nodes i.toNat).left (len + 1) (2 * bits) = some l)
    (hright : walk nodes fuel (NodeStore.at nodes i.toNat).right (len + 1) (2 * bits + 1) = some r) :
    walk nodes (fuel + 1) i len bits = some (l ++ r) := by
  rw [walk, hleft, hright]
  simp [h]

end Walk

/-! ## The codes of the tree of a frequency table -/

theorem treeOf_symCount_toNat (f : SymTable Word) : (treeOf f).symCount.toNat = presentCount f :=
  Nat.mod_eq_of_lt ((presentCount_le f).trans_lt (by decide))

section TreeCodes

variable {f : SymTable Word}

theorem treeOf_root_toNat (h : 1 ≤ presentCount f) : (treeOf f).root.toNat = 2 * presentCount f - 2 := by
  have hn := presentCount_le f
  rw [treeOf_root, if_neg (by omega), BitVec.toNat_ofNat]
  omega

/-- Children stand in older slots, so more fuel than the slot's index is enough; each leaf met is a present symbol's. -/
theorem walk_treeOf (fuel : Nat) {i : NodeIdx} (hi : i.toNat < 2 * presentCount f - 1) (hfuel : i.toNat < fuel)
    (len bits : Nat) :
    ∃ leaves, walk (treeOf f).nodes fuel i len bits = some leaves ∧ ∀ c ∈ leaves, SymTable.at f c.sym ≠ 0#32 := by
  induction fuel generalizing i len bits with
  | zero => omega
  | succ fuel ih =>
    obtain hleaf | hinternal := Nat.lt_or_ge i.toNat (presentCount f)
    · have hnode := treeOf_leaf hleaf
      refine ⟨_, walk_leaf (by rw [hnode, Node.ofLeaf]), List.forall_mem_singleton.mpr ?_⟩
      rw [hnode]
      exact mem_presentSymbols.mp (List.getElem_mem hleaf)
    · obtain ⟨a, b, hjoin⟩ := treeOf_joins hinternal hi
      have ha := hjoin.left_lt
      have hb := hjoin.right_lt
      have hleft := hjoin.left_eq i.isLt
      have hright := hjoin.right_eq i.isLt
      obtain ⟨l, hl, hlpresent⟩ := ih (i := (NodeStore.at (treeOf f).nodes i.toNat).left) (by omega) (by omega)
        (len + 1) (2 * bits)
      obtain ⟨r, hr, hrpresent⟩ := ih (i := (NodeStore.at (treeOf f).nodes i.toNat).right) (by omega) (by omega)
        (len + 1) (2 * bits + 1)
      refine ⟨l ++ r, walk_internal (by rw [hjoin.node, Node.ofChildren]) hl hr, ?_⟩
      exact List.forall_mem_append.mpr ⟨hlpresent, hrpresent⟩

/-- The present symbol of a one-leaf tree is the root's (R151). -/
theorem present_iff_root_sym (h : presentCount f = 1) {b : Byte} :
    SymTable.at f b ≠ 0#32 ↔ b = (NodeStore.at (treeOf f).nodes (treeOf f).root.toNat).sym := by
  obtain ⟨x, hx⟩ := List.length_eq_one_iff.mp h
  have hroot : (treeOf f).root.toNat = 0 := by rw [treeOf_root_toNat (by omega), h]
  rw [hroot, treeOf_leaf (k := 0) (by simp [hx]), ← mem_presentSymbols]
  simp [hx, Node.ofLeaf]

/-- Every tree BUILD_TREE makes has a code table, and no absent symbol has a code in it (R150 to R152). -/
theorem codesOf_treeOf (f : SymTable Word) :
    ∃ t, codesOf (treeOf f) = some t ∧ ∀ b, SymTable.at f b = 0#32 → t.NoCode b := by
  have hcount := treeOf_symCount_toNat f
  obtain hzero | hone | htwo : presentCount f = 0 ∨ presentCount f = 1 ∨ 2 ≤ presentCount f := by omega
  · exact ⟨_, codesOf_of_no_leaf (by omega), fun b _ => CodeTable.noCode_empty b⟩
  · refine ⟨_, codesOf_of_one_leaf (by omega), fun b hb => (CodeTable.noCode_empty b).enter fun hsym => ?_⟩
    exact (present_iff_root_sym hone).mpr hsym hb
  · have hroot := treeOf_root_toNat (f := f) (by omega)
    obtain ⟨leaves, hwalk, hpresent⟩ := walk_treeOf (f := f) 512 (i := (treeOf f).root) (by omega) (by omega) 0 0
    refine ⟨_, codesOf_of_walk (by omega) hwalk, fun b hb => (CodeTable.noCode_empty b).foldl_enter fun c hc => ?_⟩
    rintro rfl
    exact hpresent c hc hb

end TreeCodes

/-! ## GEN_CODES and ENCODE as commands -/

/-- GEN_CODES answers the state with the tree's code table, where the tree has one (R150). -/
theorem exec_genCodes {s : State} {t : CodeTable} (hvalid : s.status.treeValid = true)
    (hcodes : codesOf s.tree = some t) :
    exec .genCodes s =
      .next { s with
        codeLen := t.len, codeBits := t.bits, status := { s.status.success with codesValid := true } } := by
  change (genCodesBody s).finish = _
  simp only [genCodesBody, hvalid, hcodes]
  rfl

theorem State.inputBytes_eq_cons {s : State} (h : 0 < s.inLen.toNat) :
    ∃ rest, s.inputBytes = s.inBuf.read 0 :: rest := by
  obtain ⟨k, hk⟩ := Nat.exists_eq_succ_of_ne_zero h.ne'
  exact ⟨_, by rw [State.inputBytes, hk, List.range_succ_eq_map, List.map_cons]⟩

/-- The packer loop refuses a byte that has no code before it looks at the space left (R168). -/
theorem emitCodes_symAbsent {t : CodeTable} {b : Byte} (h : SymTable.at t.len b = 0#8) (size : Nat) (rest : List Byte)
    (k : Nat) : emitCodes t size (b :: rest) k = .error .symAbsent := by
  rw [emitCodes, if_pos (by rw [h]; rfl)]

/-- ENCODE of an input whose first byte has no code raises SYM_ABSENT (R168, R219). -/
theorem exec_encode_symAbsent {s : State} (hvalid : s.status.codesValid = true) (hfit : s.inLen.toNat ≤ s.cfg.inBytes)
    (hpos : 0 < s.inLen.toNat) (hcode : SymTable.at s.codeLen (s.inBuf.read 0) = 0#8) :
    exec .encode s = .next (s.loseEncode.raise .symAbsent) := by
  obtain ⟨rest, hinput⟩ := State.inputBytes_eq_cons hpos
  have hemit : emitCodes s.codes s.cfg.outBytes s.inputBytes 0 = .error .symAbsent :=
    hinput ▸ emitCodes_symAbsent hcode _ _ _
  have hbody : encodeBody s = .error .symAbsent s.loseEncode := by
    simp [encodeBody, hvalid, Nat.not_lt.mpr hfit, hemit]
  exact congrArg Phase.finish hbody

/-! ## The statements -/

/-- Settles O13: the walk of a built tree ends and meets present symbols alone, so an absent symbol keeps the entry of
the emptied table, and a length of 0 is what ENCODE refuses. -/
theorem absentSymbolsGetNoCode : Obligations.AbsentSymbolsGetNoCode := by
  intro s hvalid hok
  have htree : s.tree = treeOf s.freq := hok hvalid
  obtain ⟨t, hcodes, habsent⟩ := codesOf_treeOf s.freq
  rw [← htree] at hcodes
  refine ⟨t.len, t.bits, exec_genCodes hvalid hcodes, fun hzero b => ?_, fun b hb => ?_⟩
  · obtain rfl : CodeTable.empty = t := Option.some.inj ((codesOf_of_no_leaf hzero).symm.trans hcodes)
    exact CodeTable.noCode_empty b
  · obtain ⟨hlen, hbits⟩ := habsent b hb
    refine ⟨hlen, hbits, fun u hu huvalid hfit hpos hread => ⟨_, exec_encode_symAbsent huvalid hfit hpos ?_, rfl, rfl⟩⟩
    rw [hu, hread, hlen]

/-- Settles O14: one code is entered in the emptied table, the code "0" of the root's symbol, and in a tree of FREQ
that is the present one. -/
theorem singleLeafGetsTheCodeZero : Obligations.SingleLeafGetsTheCodeZero := by
  intro s hvalid hone
  have hlen (b : Byte) := CodeTable.at_enter_len CodeTable.empty
    { sym := (NodeStore.at s.nodes s.root.toNat).sym, len := 1, bits := 0 } b
  simp only [CodeTable.at_empty_len] at hlen
  refine ⟨_, _, exec_genCodes hvalid (codesOf_of_one_leaf hone), hlen, fun b => ?_, fun hok b hb => ?_⟩
  · rw [CodeTable.at_enter_bits, CodeTable.at_empty_bits]
    exact ite_self _
  · have htree : s.tree = treeOf s.freq := hok hvalid
    have hcount : presentCount s.freq = 1 := by rw [← treeOf_symCount_toNat, ← htree]; exact hone
    have hroot := (present_iff_root_sym hcount).mp hb
    rw [← htree] at hroot
    exact (hlen b).trans (if_pos hroot)

end Sys2Proof.Machine
end

section
/-! PROOFS. The statements of spec/42_bit_packer.md: a successful ENCODE (R166, R167, R170). -/

namespace Sys2Proof.Machine

/-! ## The stream of the codes (R166, R167) -/

section Stream

variable {t : CodeTable}

@[simp] theorem CodeTable.codeOf_length (t : CodeTable) (b : Byte) :
    (t.codeOf b).length = (SymTable.at t.len b).toNat := codeBitList_length _ _

@[simp] theorem CodeTable.streamOf_cons (t : CodeTable) (b : Byte) (bs : List Byte) :
    t.streamOf (b :: bs) = t.codeOf b ++ t.streamOf bs := rfl

theorem CodeTable.streamOf_length (t : CodeTable) (bs : List Byte) :
    (t.streamOf bs).length = (bs.map fun b => (SymTable.at t.len b).toNat).sum := by
  simp [CodeTable.streamOf, List.length_flatMap]

/-- A code has at most 255 bits, the most that a CODE_LEN entry can say (R41). -/
theorem CodeTable.streamOf_length_le (t : CodeTable) (bs : List Byte) : (t.streamOf bs).length ≤ bs.length * 255 := by
  rw [CodeTable.streamOf_length, ← List.length_map (fun b => (SymTable.at t.len b).toNat)]
  refine List.sum_le_card_nsmul _ _ (List.forall_mem_map.mpr fun b _ => ?_)
  exact Nat.le_of_lt_succ (SymTable.at t.len b).isLt

/-- The packer loop ends with the codes one after another, where every byte has one and the whole of them fits after the
`k` bits emitted before (R165). -/
theorem emitCodes_eq_ok {size : Nat} {bs : List Byte} {k : Nat} (hcode : ∀ b ∈ bs, SymTable.at t.len b ≠ 0#8)
    (hfit : ceil8 (k + (t.streamOf bs).length) ≤ size) : emitCodes t size bs k = .ok (t.streamOf bs) := by
  induction bs generalizing k with
  | nil => rfl
  | cons b rest ih =>
    obtain ⟨hhead, hrest⟩ := List.forall_mem_cons.mp hcode
    rw [CodeTable.streamOf_cons, List.length_append, CodeTable.codeOf_length, ← Nat.add_assoc] at hfit
    have hlen : (SymTable.at t.len b).toNat ≠ 0 := fun h => hhead (BitVec.eq_of_toNat_eq h)
    have hspace : ¬ size < ceil8 (k + (SymTable.at t.len b).toNat) :=
      Nat.not_lt.mpr ((ceil8_le (Nat.le_add_right _ _)).trans hfit)
    rw [emitCodes, if_neg hlen, if_neg hspace, ih hrest hfit]
    rfl

end Stream

/-! ## The packed bytes in OUT (R84, R166, R170) -/

section Packed

variable {bits : List Bool}

/-- A byte of the payload is the stream bits from `8 * i` on, with zeros after the last one (R166). -/
theorem Memory.read_packed (m : Memory) {i : Nat} (h : i < ceil8 bits.length) :
    (m.writeBytes 0 (packBytes bits)).read i = byteOfBits fun j => bits.getD (8 * i + j) false := by
  have hread := m.read_writeBytes_inside 0 (packBytes bits) (k := i) (by rwa [packBytes_length])
  rw [Nat.zero_add] at hread
  exact hread.trans (by simp [packBytes])

/-- Stream bit `k` of the payload is bit `k` of the stream it was packed from, and 0 beyond its end (R84, R166). -/
theorem Memory.streamBit_packed (m : Memory) {k : Nat} (h : k < 8 * ceil8 bits.length) :
    (m.writeBytes 0 (packBytes bits)).streamBit k = bits.getD k false := by
  rw [Memory.streamBit, Memory.read_packed m (Nat.div_lt_of_lt_mul h),
    byteOfBits_bit _ _ (Nat.mod_lt k (by decide)), Nat.div_add_mod]

theorem Memory.holdsPayload_writeBytes (m : Memory) (bits : List Bool) :
    (m.writeBytes 0 (packBytes bits)).HoldsPayload m bits := by
  refine ⟨fun k hk => ?_, fun k hend hk => ?_, fun i hi => ?_⟩
  · rw [Memory.streamBit_packed m (hk.trans_le (le_eight_mul_ceil8 _)), List.getD_eq_getElem _ _ hk]
  · rw [Memory.streamBit_packed m hk, List.getD_eq_default _ _ hend]
  · exact Memory.read_writeBytes_outside m 0 _ (.inr (by rwa [packBytes_length, Nat.zero_add]))

end Packed

/-! ## ENCODE as a command -/

/-- ENCODE answers the state with the payload stored, where the codes are valid and the packer loop ends with a stream
(R165). -/
theorem exec_encode_ok {s : State} {bits : List Bool} (hvalid : s.status.codesValid = true)
    (hfit : s.inLen.toNat ≤ s.cfg.inBytes) (hemit : emitCodes s.codes s.cfg.outBytes s.inputBytes 0 = .ok bits) :
    exec .encode s = .next (s.storePayload bits).complete := by
  have hbody : encodeBody s = .done (s.storePayload bits) := by
    simp [encodeBody, hvalid, Nat.not_lt.mpr hfit, hemit]
  exact congrArg Phase.finish hbody

/-! ## The statements -/

/-- Settles O19: the packer loop ends with the codes of the input, whose packed bytes hold them bit by bit; at most 2^20
bytes of at most 255 code bits each stay below 2^28. -/
theorem encodePacksTheCodes : Obligations.EncodePacksTheCodes := by
  intro s hwf hvalid hlen hcode hfit
  have hemit : emitCodes s.codes s.cfg.outBytes s.inputBytes 0 = .ok (s.codes.streamOf s.inputBytes) :=
    emitCodes_eq_ok hcode (by rwa [Nat.zero_add])
  refine ⟨_, exec_encode_ok hvalid hlen hemit, Memory.holdsPayload_writeBytes _ _, CodeTable.streamOf_length _ _, ?_⟩
  have hbound := s.codes.streamOf_length_le s.inputBytes
  have hsize := Config.inBytes_le hwf
  rw [State.inputBytes_length] at hbound
  omega

end Sys2Proof.Machine
end

section
/-! PROOFS. The statements of spec/43_decoder.md: DECODE of the payload ENCODE made (R193). -/

namespace Sys2Proof.Machine

/-! ## Paths to leaves (R187) -/

/-- `p` leads from slot `i` to a leaf of symbol `b`, and is empty where slot `i` is that leaf itself. -/
def EndsAtLeaf (st : NodeStore) (i : NodeIdx) (p : List Bool) (b : Byte) : Prop :=
  (p = [] ∧ (NodeStore.at st i.toNat).leaf = true ∧ (NodeStore.at st i.toNat).sym = b) ∨
    ((NodeStore.at st i.toNat).leaf = false ∧ LeadsToLeaf st i p b)

section Paths

variable {st : NodeStore} {i : NodeIdx} {bit : Bool} {p : List Bool} {b : Byte}

theorem EndsAtLeaf.leadsToLeaf (h : EndsAtLeaf st i p b) (hinternal : (NodeStore.at st i.toNat).leaf = false) :
    LeadsToLeaf st i p b := by
  obtain ⟨_, hleaf, _⟩ | ⟨_, hleads⟩ := h
  · exact absurd (hleaf.symm.trans hinternal) (by decide)
  · exact hleads

theorem staysInside_cons {n : Nat} :
    StaysInside st i (bit :: p) (n + 1) ↔
      (0 < n → (NodeStore.at st (NodeStore.child st i bit).toNat).leaf = false) ∧
        StaysInside st (NodeStore.child st i bit) p n := by
  constructor
  · refine fun h => ⟨fun hn => h 1 one_pos (by omega) (by simp), fun k _ hk hlen => ?_⟩
    exact h (k + 1) k.succ_pos (by omega) (Nat.succ_le_succ hlen)
  · rintro ⟨hchild, hrest⟩ k hpos hk hlen
    obtain ⟨k, rfl⟩ := Nat.exists_eq_succ_of_ne_zero hpos.ne'
    obtain rfl | hk' := Nat.eq_zero_or_pos k
    · exact hchild (by omega)
    · exact hrest k hk' (by omega) (Nat.le_of_succ_le_succ hlen)

/-- The first bit of a path to a leaf leads to a child, and the others from there on. -/
theorem leadsToLeaf_cons : LeadsToLeaf st i (bit :: p) b ↔ EndsAtLeaf st (NodeStore.child st i bit) p b := by
  rw [LeadsToLeaf, EndsAtLeaf, LeadsToLeaf, List.length_cons, staysInside_cons]
  cases p with
  | nil =>
    have hstays : StaysInside st (NodeStore.child st i bit) [] 0 := fun k _ hk _ => absurd hk (Nat.not_lt_zero k)
    simp [hstays, pathFrom]
  | cons bit' p => simp [pathFrom, and_assoc]

end Paths

/-! ## The walk follows the paths (R150) -/

/-- The `len` low bits of a number, the highest one first (R42, R150). -/
def pathBits (len bits : Nat) : List Bool := (List.range len).map fun j => bits.testBit (len - 1 - j)

@[simp] theorem pathBits_length (len bits : Nat) : (pathBits len bits).length = len := by simp [pathBits]

/-- One bit more at the low end is one step more at the end of the path (R150). -/
theorem pathBits_bit (len bits : Nat) (bit : Bool) :
    pathBits (len + 1) (Nat.bit bit bits) = pathBits len bits ++ [bit] := by
  rw [pathBits, List.range_succ, List.map_append, List.map_singleton, pathBits]
  congr 1
  · refine List.map_congr_left fun j hj => ?_
    have hj := List.mem_range.mp hj
    rw [show len + 1 - 1 - j = (len - 1 - j) + 1 by omega, Nat.testBit_bit_succ]
  · simp

/-- A CODE_BITS entry holds every path of at most 256 bits (R42). -/
theorem codeBitList_ofNat {len : Nat} (h : len ≤ 256) (bits : Nat) :
    codeBitList (BitVec.ofNat 256 bits) len = pathBits len bits := by
  refine List.map_congr_left fun j hj => ?_
  have hj := List.mem_range.mp hj
  rw [BitVec.getLsbD_ofNat, decide_eq_true (by omega), Bool.true_and]

section Walk

variable {nodes : NodeStore} {fuel : Nat} {i : NodeIdx} {len bits : Nat} {leaves : List LeafCode} {c : LeafCode}

/-- A leaf the walk meets is the slot it starts at, or it is met below one of that slot's children (R150). -/
theorem mem_walk (h : walk nodes (fuel + 1) i len bits = some leaves) (hc : c ∈ leaves) :
    ((NodeStore.at nodes i.toNat).leaf = true ∧
      c = { sym := (NodeStore.at nodes i.toNat).sym, len := len, bits := bits }) ∨
    ((NodeStore.at nodes i.toNat).leaf = false ∧ ∃ bit below,
      walk nodes fuel (NodeStore.child nodes i bit) (len + 1) (Nat.bit bit bits) = some below ∧ c ∈ below) := by
  rw [walk] at h
  split at h
  case isTrue hleaf =>
    obtain rfl := Option.some.inj h
    exact .inl ⟨hleaf, List.mem_singleton.mp hc⟩
  case isFalse hleaf =>
    refine .inr ⟨Bool.eq_false_iff.mpr hleaf, ?_⟩
    split at h
    case h_1 l r hl hr =>
      obtain rfl := Option.some.inj h
      obtain hc | hc := List.mem_append.mp hc
      · exact ⟨false, l, hl, hc⟩
      · exact ⟨true, r, hr, hc⟩
    case h_2 => cases h

/-- What the walk writes at a leaf is the path to it (R150). -/
theorem walk_path (h : walk nodes fuel i len bits = some leaves) (hc : c ∈ leaves) :
    ∃ p, pathBits c.len c.bits = pathBits len bits ++ p ∧ EndsAtLeaf nodes i p c.sym := by
  induction fuel generalizing i len bits leaves with
  | zero => cases h
  | succ fuel ih =>
    obtain ⟨hleaf, rfl⟩ | ⟨hinternal, bit, below, hbelow, hc⟩ := mem_walk h hc
    · exact ⟨[], (List.append_nil _).symm, .inl ⟨rfl, hleaf, rfl⟩⟩
    · obtain ⟨p, hp, hend⟩ := ih hbelow hc
      refine ⟨bit :: p, ?_, .inr ⟨hinternal, leadsToLeaf_cons.mpr hend⟩⟩
      rw [hp, pathBits_bit, List.append_assoc, List.singleton_append]

end Walk

/-! ## The codes of a tree are paths to leaves (R150, R129) -/

/-- The table holds the code that is written at the leaf `c` (R150). -/
def CodeTable.HoldsCode (t : CodeTable) (c : LeafCode) : Prop :=
  SymTable.at t.len c.sym = BitVec.ofNat 8 c.len ∧ SymTable.at t.bits c.sym = BitVec.ofNat 256 c.bits

theorem CodeTable.holdsCode_enter (t : CodeTable) (c : LeafCode) : (t.enter c).HoldsCode c :=
  ⟨(at_enter_len t c c.sym).trans (if_pos rfl), (at_enter_bits t c c.sym).trans (if_pos rfl)⟩

theorem CodeTable.HoldsCode.enter {t : CodeTable} {c d : LeafCode} (h : t.HoldsCode c) (hne : c.sym ≠ d.sym) :
    (t.enter d).HoldsCode c :=
  ⟨(at_enter_len t d c.sym).trans ((if_neg hne).trans h.1), (at_enter_bits t d c.sym).trans ((if_neg hne).trans h.2)⟩

/-- A symbol has no code after the leaves' codes are entered in the empty table, or that of a leaf of it (R150). -/
theorem CodeTable.noCode_or_holdsCode (leaves : List LeafCode) (b : Byte) :
    (leaves.foldl CodeTable.enter CodeTable.empty).NoCode b ∨
      ∃ c ∈ leaves, c.sym = b ∧ (leaves.foldl CodeTable.enter CodeTable.empty).HoldsCode c := by
  refine List.foldlRecOn (motive := fun t => t.NoCode b ∨ ∃ c ∈ leaves, c.sym = b ∧ t.HoldsCode c) leaves
    CodeTable.enter (.inl (CodeTable.noCode_empty b)) fun t ht d hd => ?_
  by_cases hb : b = d.sym
  · exact .inr ⟨d, hd, hb.symm, t.holdsCode_enter d⟩
  · exact ht.imp (fun h => h.enter hb) fun ⟨c, hc, hsym, h⟩ => ⟨c, hc, hsym, h.enter (hsym ▸ hb)⟩

/-- The code of a leaf's symbol is the path the walk wrote there, where its length fits CODE_LEN (R41, R42). -/
theorem CodeTable.HoldsCode.codeOf_eq {t : CodeTable} {c : LeafCode} (h : t.HoldsCode c) (hlen : c.len < 256) :
    t.codeOf c.sym = pathBits c.len c.bits := by
  rw [CodeTable.codeOf, h.1, h.2, BitVec.toNat_ofNat, Nat.mod_eq_of_lt hlen, codeBitList_ofNat hlen.le]

/-- With a one-leaf tree the root's symbol alone has a code, the bit 0 (R151). -/
theorem codeOf_of_one_leaf {tree : Tree} {t : CodeTable} {b : Byte} (hone : tree.symCount.toNat = 1)
    (hcodes : codesOf tree = some t) (hcode : SymTable.at t.len b ≠ 0#8) :
    b = (NodeStore.at tree.nodes tree.root.toNat).sym ∧ t.codeOf b = [false] := by
  obtain rfl := Option.some.inj ((codesOf_of_one_leaf hone).symm.trans hcodes)
  by_cases hb : b = (NodeStore.at tree.nodes tree.root.toNat).sym
  · subst hb
    have hholds := CodeTable.empty.holdsCode_enter
      { sym := (NodeStore.at tree.nodes tree.root.toNat).sym, len := 1, bits := 0 }
    exact ⟨rfl, (hholds.codeOf_eq (show 1 < 256 by decide)).trans (pathBits_bit 0 0 false)⟩
  · exact absurd ((CodeTable.noCode_empty b).enter hb).1 hcode

section TreePaths

variable {f : SymTable Word} {i : NodeIdx} {p : List Bool} {b : Byte}

/-- Both children of an internal slot stand in older slots (R40). -/
theorem treeOf_child_lt (hni : presentCount f ≤ i.toNat) (hi : i.toNat < 2 * presentCount f - 1) (bit : Bool) :
    (NodeStore.child (treeOf f).nodes i bit).toNat < i.toNat := by
  obtain ⟨a, c, hjoin⟩ := treeOf_joins hni hi
  cases bit
  · exact (hjoin.left_eq i.isLt).trans_lt hjoin.left_lt
  · exact (hjoin.right_eq i.isLt).trans_lt hjoin.right_lt

/-- The slots from `n` to the root are internal (R40). -/
theorem treeOf_internal (hni : presentCount f ≤ i.toNat) (hi : i.toNat < 2 * presentCount f - 1) :
    (NodeStore.at (treeOf f).nodes i.toNat).leaf = false := by
  obtain ⟨a, c, hjoin⟩ := treeOf_joins hni hi
  rw [hjoin.node, Node.ofChildren]

/-- The slots below `n` are leaves (R40). -/
theorem le_of_treeOf_internal (h : (NodeStore.at (treeOf f).nodes i.toNat).leaf = false) :
    presentCount f ≤ i.toNat := by
  by_contra hlt
  rw [treeOf_leaf (Nat.not_le.mp hlt)] at h
  cases h

/-- The internal slots on a path are ever older ones, so it is no longer than there are of them (R129). -/
theorem LeadsToLeaf.length_le (h : LeadsToLeaf (treeOf f).nodes i p b) (hni : presentCount f ≤ i.toNat)
    (hi : i.toNat < 2 * presentCount f - 1) : p.length ≤ i.toNat + 1 - presentCount f := by
  induction p generalizing i with
  | nil => exact Nat.zero_le _
  | cons bit p ih =>
    have hlt := treeOf_child_lt hni hi bit
    obtain ⟨rfl, _⟩ | ⟨hinternal, hrest⟩ := leadsToLeaf_cons.mp h
    · rw [List.length_singleton]; omega
    · have hchild := le_of_treeOf_internal hinternal
      have hlen := ih hrest hchild (by omega)
      rw [List.length_cons]; omega

/-- For n >= 2 a symbol's code, where it has one, is the path from the root to a leaf of it (R150). -/
theorem codeOf_leadsToLeaf {t : CodeTable} (hn : 2 ≤ presentCount f) (hcodes : codesOf (treeOf f) = some t)
    (hcode : SymTable.at t.len b ≠ 0#8) : LeadsToLeaf (treeOf f).nodes (treeOf f).root (t.codeOf b) b := by
  have hcount := treeOf_symCount_toNat f
  have hle := presentCount_le f
  have hroot := treeOf_root_toNat (f := f) (by omega)
  obtain ⟨leaves, hwalk, _⟩ := walk_treeOf (f := f) 512 (i := (treeOf f).root) (by omega) (by omega) 0 0
  obtain rfl := Option.some.inj ((codesOf_of_walk (by omega) hwalk).symm.trans hcodes)
  obtain hnone | ⟨c, hc, rfl, hholds⟩ := CodeTable.noCode_or_holdsCode leaves b
  · exact absurd hnone.1 hcode
  obtain ⟨p, hp, hend⟩ := walk_path hwalk hc
  obtain rfl : pathBits c.len c.bits = p := hp
  have hleads := hend.leadsToLeaf (treeOf_internal (by omega) (by omega))
  have hlen := hleads.length_le (by omega) (by omega)
  rw [pathBits_length] at hlen
  rwa [hholds.codeOf_eq (by omega)]

end TreePaths

/-! ## The decoder loop (R187, R188) -/

/-- Where OUT has space left, the decoder loop reads `p` at the root as the byte `b`, and is at the root again. -/
def Tree.ReadsAs (t : Tree) (p : List Bool) (b : Byte) : Prop :=
  ∀ (size m : Nat) (rest : List Bool), m < size →
    decodeBits t size (p ++ rest) t.root m = Decoded.cons b (decodeBits t size rest t.root (m + 1))

section Loop

variable {t : Tree} {size m : Nat} {p : List Bool} {b : Byte}

/-- The walking decoder emits the symbol of the leaf a path leads to (R187). -/
theorem decodeBits_of_leadsToLeaf (hn : t.symCount.toNat ≠ 1) (hm : m < size) {i : NodeIdx}
    (h : LeadsToLeaf t.nodes i p b) (rest : List Bool) :
    decodeBits t size (p ++ rest) i m = Decoded.cons b (decodeBits t size rest t.root (m + 1)) := by
  induction p generalizing i with
  | nil => exact absurd rfl h.1
  | cons bit p ih =>
    rw [List.cons_append, decodeBits, if_neg hn]
    obtain ⟨rfl, hleaf, hsym⟩ | ⟨hinternal, hrest⟩ := leadsToLeaf_cons.mp h
    · rw [if_pos hleaf, if_neg hm.ne, hsym, List.nil_append]
    · rw [if_neg (Bool.eq_false_iff.mp hinternal), ih hrest]

/-- The decoder of a one-leaf tree emits the root's symbol for a bit 0 (R188). -/
theorem decodeBits_of_one_leaf (hn : t.symCount.toNat = 1) (hm : m < size) (i : NodeIdx) (rest : List Bool) :
    decodeBits t size (false :: rest) i m =
      Decoded.cons (NodeStore.at t.nodes t.root.toNat).sym (decodeBits t size rest i (m + 1)) := by
  rw [decodeBits, if_pos hn, if_neg Bool.false_ne_true, if_neg hm.ne]

/-- The code of a symbol of the tree reads as that symbol (R193). -/
theorem readsAs_codeOf {f : SymTable Word} {c : CodeTable} (hcodes : codesOf (treeOf f) = some c)
    (hcode : SymTable.at c.len b ≠ 0#8) : (treeOf f).ReadsAs (c.codeOf b) b := by
  intro size m rest hm
  have hcount := treeOf_symCount_toNat f
  obtain hzero | hone | htwo : presentCount f = 0 ∨ presentCount f = 1 ∨ 2 ≤ presentCount f := by omega
  · obtain rfl := Option.some.inj ((codesOf_of_no_leaf (by omega)).symm.trans hcodes)
    exact absurd (CodeTable.at_empty_len b) hcode
  · obtain ⟨rfl, hpath⟩ := codeOf_of_one_leaf (by omega) hcodes hcode
    rw [hpath]
    exact decodeBits_of_one_leaf (by omega) hm _ rest
  · exact decodeBits_of_leadsToLeaf (by omega) hm (codeOf_leadsToLeaf htwo hcodes hcode) rest

/-- The decoder loop turns the codes of bytes, one after another, back into the bytes, and ends at the root. -/
theorem decodeBits_streamOf {c : CodeTable} {bs : List Byte} (hcode : ∀ b ∈ bs, t.ReadsAs (c.codeOf b) b)
    (hfit : m + bs.length ≤ size) :
    decodeBits t size (c.streamOf bs) t.root m = .ok { bytes := bs, node := t.root } := by
  induction bs generalizing m with
  | nil => rfl
  | cons b rest ih =>
    obtain ⟨hhead, hrest⟩ := List.forall_mem_cons.mp hcode
    rw [List.length_cons] at hfit
    rw [CodeTable.streamOf_cons, hhead size m _ (by omega), ih hrest (by omega)]
    rfl

end Loop

/-! ## The buffers (R84, R191) -/

theorem Memory.holdsBytes_writeBytes (m : Memory) (bs : List Byte) : (m.writeBytes 0 bs).HoldsBytes m bs := by
  refine ⟨fun i hi => ?_, fun i hi => Memory.read_writeBytes_outside m 0 bs (.inr (by omega))⟩
  have hread := m.read_writeBytes_inside 0 bs hi
  rwa [Nat.zero_add] at hread

/-- A buffer that reads as `o` where `o` holds the payload of `bits` has them as its stream (R84, R166). -/
theorem Memory.HoldsPayload.stream_eq {o m n : Memory} {bits : List Bool} (h : o.HoldsPayload m bits)
    (hread : ∀ i, i < ceil8 bits.length → n.read i = o.read i) : n.stream bits.length = bits := by
  obtain ⟨hbits, _, _⟩ := h
  refine List.ext_getElem (Memory.stream_length _ _) fun k _ hk => ?_
  have hbyte : k / 8 < ceil8 bits.length := Nat.div_lt_of_lt_mul (hk.trans_le (le_eight_mul_ceil8 _))
  rw [← hbits k hk, Memory.streamBit, ← hread _ hbyte]
  simp [Memory.stream, Memory.streamBit]

/-! ## ENCODE and DECODE as commands -/

/-- The codes of an input that fits IN have fewer than 2^28 bits (R167). -/
theorem State.streamOf_inputBytes_length_lt (s : State) (hwf : s.cfg.wf = true)
    (hlen : s.inLen.toNat ≤ s.cfg.inBytes) : (s.codes.streamOf s.inputBytes).length < 2 ^ 28 := by
  have hbound := s.codes.streamOf_length_le s.inputBytes
  have hsize := Config.inBytes_le hwf
  rw [State.inputBytes_length] at hbound
  omega

/-- An ENCODE that reports no error found a length in range and stored what the packer loop ended with (R165, R216). -/
theorem exec_encode_success {s t : State} (h : exec .encode s = .next t) (herr : t.status.err = false) :
    s.inLen.toNat ≤ s.cfg.inBytes ∧ ∃ bits,
      emitCodes s.codes s.cfg.outBytes s.inputBytes 0 = .ok bits ∧ t = (s.storePayload bits).complete := by
  have hfinish : (encodeBody s).finish = .next t := h
  obtain ⟨w, hdone, rfl⟩ | ⟨e, w, _, rfl⟩ := Phase.finish_next hfinish
  · obtain ⟨_, hbody⟩ | ⟨_, _, hbody⟩ | ⟨_, hlen, ⟨e, _, hbody⟩ | ⟨bits, hemit, hbody⟩⟩ := encodeBody_cases s
    · cases hdone.symm.trans hbody
    · cases hdone.symm.trans hbody
    · cases hdone.symm.trans hbody
    · cases hdone.symm.trans hbody
      exact ⟨hlen, bits, hemit, rfl⟩
  · cases herr

section DecodeBody

variable {u : State}

/-- The empty tree decodes the empty stream to nothing (R189). -/
theorem decodeBody_of_no_leaf (hvalid : u.status.treeValid = true) (hin : u.inLen.toNat ≤ u.cfg.inBytes)
    (hnone : u.symCount.toNat = 0) (hempty : u.bitLen.toNat = 0) :
    decodeBody u = .done { u with outLen := 0#32, status := u.status.truncated false } := by
  simp [decodeBody, hvalid, Nat.not_lt.mpr hin, hnone, hempty]

/-- DECODE stores what the decoder loop ends with, where no precondition fails (R185). -/
theorem decodeBody_of_loop {d : Decoded} (hvalid : u.status.treeValid = true) (hin : u.inLen.toNat ≤ u.cfg.inBytes)
    (hlen : u.bitLen.toNat ≤ 8 * u.inLen.toNat) (hsome : u.symCount.toNat ≠ 0)
    (hloop : decodeBits u.tree u.cfg.outBytes (u.inBuf.stream u.bitLen.toNat) u.root 0 = .ok d) :
    decodeBody u = .done (u.storeDecoded d) := by
  simp [decodeBody, hvalid, Nat.not_lt.mpr hin, Nat.not_lt.mpr hlen, hsome, hloop]

/-- On the codes of bytes that fit in OUT, made from the tree it has, the body of DECODE ends with success, and leaves the
bytes, their number, and TRUNC = 0 (R190, R191, R193). -/
theorem decodeBody_streamOf {f : SymTable Word} {c : CodeTable} {bs : List Byte}
    (hvalid : u.status.treeValid = true) (htree : u.tree = treeOf f) (hcodes : codesOf (treeOf f) = some c)
    (hin : u.inLen.toNat ≤ u.cfg.inBytes) (hlen : u.bitLen.toNat ≤ 8 * u.inLen.toNat)
    (hstream : u.inBuf.stream u.bitLen.toNat = c.streamOf bs) (hcode : ∀ b ∈ bs, SymTable.at c.len b ≠ 0#8)
    (hfit : bs.length ≤ u.cfg.outBytes) :
    ∃ w, decodeBody u = .done w ∧ w.status.trunc = false ∧ w.outLen = BitVec.ofNat 32 bs.length ∧
      w.outBuf.HoldsBytes u.outBuf bs := by
  rw [← htree] at hcodes
  by_cases hnone : u.symCount.toNat = 0
  · obtain rfl := Option.some.inj ((codesOf_of_no_leaf hnone).symm.trans hcodes)
    obtain rfl : bs = [] := List.eq_nil_iff_forall_not_mem.mpr fun b hb => hcode b hb (CodeTable.at_empty_len b)
    have hempty : u.bitLen.toNat = 0 := by simpa [CodeTable.streamOf] using congrArg List.length hstream
    exact ⟨_, decodeBody_of_no_leaf hvalid hin hnone hempty, rfl, rfl, Memory.holdsBytes_writeBytes u.outBuf []⟩
  · have hloop : decodeBits u.tree u.cfg.outBytes (c.streamOf bs) u.root 0 = .ok { bytes := bs, node := u.root } :=
      decodeBits_streamOf (t := u.tree) (fun b hb => htree ▸ readsAs_codeOf (htree ▸ hcodes) (hcode b hb)) (by omega)
    rw [← hstream] at hloop
    exact ⟨_, decodeBody_of_loop hvalid hin hlen hnone hloop, by simp, rfl, Memory.holdsBytes_writeBytes u.outBuf bs⟩

end DecodeBody

/-! ## The statement -/

/-- Settles O26: the code of each input byte is a path to a leaf of it, which the decoder loop reads as that byte. -/
theorem decodeUndoesEncode : Obligations.DecodeUndoesEncode := by
  intro s t u hwf hcvalid htvalid htree hcodes hencode herr hfit hin hcfg huvalid hutree hulen hubits hread
  have hmade : codesOf (treeOf s.freq) = some s.codes := htree htvalid ▸ hcodes hcvalid
  obtain ⟨hlen, bits, hemit, rfl⟩ := exec_encode_success hencode herr
  obtain ⟨hcode, hbits, _⟩ := emitCodes_ok hemit
  obtain rfl : bits = s.codes.streamOf s.inputBytes := hbits
  have hlt := s.streamOf_inputBytes_length_lt hwf hlen
  have houtLen : u.inLen.toNat = ceil8 (s.codes.streamOf s.inputBytes).length :=
    (congrArg BitVec.toNat hulen).trans (Nat.mod_eq_of_lt (by unfold ceil8; omega))
  have hbitLen : u.bitLen.toNat = (s.codes.streamOf s.inputBytes).length :=
    (congrArg BitVec.toNat hubits).trans (Nat.mod_eq_of_lt (by omega))
  have hstream : u.inBuf.stream u.bitLen.toNat = s.codes.streamOf s.inputBytes := by
    rw [hbitLen]
    exact (Memory.holdsPayload_writeBytes _ _).stream_eq fun i hi => hread i (by rwa [← hulen, houtLen])
  obtain ⟨w, hdone, htrunc, hout, hholds, _⟩ := decodeBody_streamOf huvalid hutree hmade
    (by rwa [hulen, hcfg]) (by rw [hbitLen, houtLen]; exact le_eight_mul_ceil8 _) hstream
    (fun b hb h => hcode b hb (congrArg BitVec.toNat h)) (by rwa [State.inputBytes_length, hcfg])
  refine ⟨w.complete, congrArg Phase.finish hdone, rfl, htrunc, ?_, fun i hi => ?_⟩
  · rw [State.complete_outLen, hout, State.inputBytes_length, BitVec.ofNat_toNat, BitVec.setWidth_eq]
  · have hbyte := hholds i (by rwa [State.inputBytes_length])
    rw [State.complete_outBuf, hbyte]
    simp [State.inputBytes]

end Sys2Proof.Machine
end

section
/-! PROOFS. The statements of spec/44_compound.md: DECOMPRESS (R206), and the separate commands against the compound ones
(R208). -/

namespace Sys2Proof.Machine

/-! ## The decoder loop on whole paths and a rest (R187, R190) -/

section Walked

variable {t : Tree} {size m : Nat} {tail : List Bool}

/-- On bits that meet no leaf the walking decoder emits nothing, and its cursor follows them (R187). -/
theorem decodeBits_of_staysInside (hn : t.symCount.toNat ≠ 1) {i : NodeIdx}
    (h : StaysInside t.nodes i tail (tail.length + 1)) :
    decodeBits t size tail i m = .ok { bytes := [], node := pathFrom t.nodes i tail } := by
  induction tail generalizing i with
  | nil => rfl
  | cons bit tail ih =>
    obtain ⟨hchild, hrest⟩ := staysInside_cons.mp h
    rw [decodeBits, if_neg hn, if_neg (Bool.eq_false_iff.mp (hchild tail.length.succ_pos)), ih hrest]
    rfl

/-- On paths from the root to leaves, and a rest that meets no leaf, the walking decoder emits the leaves' symbols, where
they fit (R187). -/
theorem decodeBits_of_paths {segs : List (List Bool × Byte)} (hn : t.symCount.toNat ≠ 1)
    (hsegs : ∀ g ∈ segs, LeadsToLeaf t.nodes t.root g.1 g.2)
    (htail : StaysInside t.nodes t.root tail (tail.length + 1)) (hfit : m + segs.length ≤ size) :
    decodeBits t size ((segs.map Prod.fst).flatten ++ tail) t.root m =
      .ok { bytes := segs.map Prod.snd, node := pathFrom t.nodes t.root tail } := by
  induction segs generalizing m with
  | nil => exact decodeBits_of_staysInside hn htail
  | cons g segs ih =>
    obtain ⟨hhead, hrest⟩ := List.forall_mem_cons.mp hsegs
    rw [List.length_cons] at hfit
    rw [List.map_cons, List.flatten_cons, List.append_assoc, decodeBits_of_leadsToLeaf hn (by omega) hhead,
      ih hrest (by omega)]
    rfl

end Walked

/-- DECODE of paths from the root to leaves, and a rest that meets no leaf, stores the leaves' symbols where they fit, and
TRUNC says whether the rest ends away from the root (R190, R191). -/
theorem exec_decode_of_paths {u : State} {segs : List (List Bool × Byte)} {tail : List Bool}
    (hvalid : u.status.treeValid = true) (hn : 2 ≤ u.symCount.toNat) (hin : u.inLen.toNat ≤ u.cfg.inBytes)
    (hlen : u.bitLen.toNat ≤ 8 * u.inLen.toNat)
    (hstream : u.inBuf.stream u.bitLen.toNat = (segs.map Prod.fst).flatten ++ tail)
    (hsegs : ∀ g ∈ segs, LeadsToLeaf u.nodes u.root g.1 g.2)
    (htail : StaysInside u.nodes u.root tail (tail.length + 1)) (hfit : segs.length ≤ u.cfg.outBytes) :
    exec .decode u =
      .next { u with
        outBuf := u.outBuf.writeBytes 0 (segs.map Prod.snd)
        outLen := BitVec.ofNat 32 segs.length
        status := { u.status.success with trunc := pathFrom u.nodes u.root tail != u.root } } := by
  have hloop := decodeBits_of_paths (t := u.tree) (m := 0) (by change u.symCount.toNat ≠ 1; omega) hsegs htail
    ((Nat.zero_add _).trans_le hfit)
  rw [← hstream] at hloop
  have hbody := decodeBody_of_loop hvalid hin hlen (by omega) hloop
  refine (congrArg Phase.finish hbody).trans ?_
  simp [State.complete, State.storeDecoded, State.tree, Status.truncated, Status.success, hn]

/-! ## What a command's end and the next command's acceptance leave alone (R29, R215) -/

/-- The state with CMD and STATUS, but for the valid flags, cleared: what `complete()` and an accepted CMD write keep. -/
def State.lasting (s : State) : State :=
  { s with
    cmd := 0#32
    status := { Status.reset with treeValid := s.status.treeValid, codesValid := s.status.codesValid } }

@[simp] theorem State.lasting_complete (s : State) : s.complete.lasting = s.lasting := rfl
@[simp] theorem State.lasting_accept (s : State) (v : Word) : (s.accept v).lasting = s.lasting := rfl

/-- Where two states agree in what lasts, they agree in all that R208 names. -/
theorem State.results_eq_of_lasting {t u : State} (h : t.lasting = u.lasting) :
    t.freq = u.freq ∧ t.nodes = u.nodes ∧ t.symCount = u.symCount ∧ t.root = u.root ∧ t.codeLen = u.codeLen ∧
      t.codeBits = u.codeBits ∧ t.bitLen = u.bitLen ∧ t.outLen = u.outLen ∧ t.outBuf = u.outBuf ∧
      t.status.treeValid = u.status.treeValid ∧ t.status.codesValid = u.status.codesValid := by
  simp only [State.lasting, State.mk.injEq, Status.mk.injEq] at h
  simp [h]

/-- The end of a body, as far as it lasts. -/
def Phase.lasting : Phase → Phase
  | .done s => .done s.lasting
  | .error c s => .error c s.lasting
  | .endless => .endless

theorem Phase.eq_done_of_lasting {p : Phase} {w : State} (h : p.lasting = .done w.lasting) :
    ∃ u, p = .done u ∧ u.lasting = w.lasting := by
  cases p with
  | done u => exact ⟨u, rfl, Phase.done.inj h⟩
  | error c u => cases h
  | endless => cases h

/-- A body whose lasting effect depends on the lasting part of the state alone. -/
def ReadsLasting (body : State → Phase) : Prop := ∀ s, (body s).lasting = (body s.lasting).lasting

theorem readsLasting_buildTreeBody : ReadsLasting buildTreeBody := fun _ => rfl

theorem readsLasting_genCodesBody : ReadsLasting genCodesBody := by
  intro s
  dsimp only [genCodesBody, State.lasting, State.tree]
  split_ifs
  · rfl
  · split <;> rfl

theorem readsLasting_encodeBody : ReadsLasting encodeBody := by
  intro s
  dsimp only [encodeBody, State.lasting, State.codes, State.inputBytes]
  split_ifs
  · rfl
  · rfl
  · split <;> rfl

theorem readsLasting_decodeBody : ReadsLasting decodeBody := by
  intro s
  dsimp only [decodeBody, State.lasting, State.tree]
  split_ifs
  · rfl
  · rfl
  · rfl
  · rfl
  · rfl
  · split <;> rfl

/-- A command that answers with ERR = 0 ended with success (R216). -/
theorem Phase.finish_success {p : Phase} {t : State} (h : p.finish = .next t) (herr : t.status.err = false) :
    ∃ w, p = .done w ∧ t = w.complete := by
  obtain hdone | ⟨c, w, _, rfl⟩ := Phase.finish_next h
  · exact hdone
  · cases herr

/-- Where a command, accepted after a state `w` completed, succeeds, its body succeeds on any state that agrees with `w`
in what lasts, and the two agree again (R208). -/
theorem ReadsLasting.compound_step {body : State → Phase} (hbody : ReadsLasting body) {u w t : State} {v : Word}
    (heq : u.lasting = w.lasting) (hexec : (body (w.accept v)).finish = .next t) (herr : t.status.err = false) :
    ∃ u', body u = .done u' ∧ u'.lasting = t.lasting := by
  obtain ⟨w', hdone, rfl⟩ := Phase.finish_success hexec herr
  refine Phase.eq_done_of_lasting ?_
  calc (body u).lasting = (body u.lasting).lasting := hbody u
    _ = (body (w.accept v).lasting).lasting := by rw [heq, State.lasting_accept]
    _ = (body (w.accept v)).lasting := (hbody _).symm
    _ = .done w'.lasting := by rw [hdone]; rfl

/-- BUILD_TREE leaves ERR = 0 (R124). -/
theorem exec_buildTree_err {s t : State} (h : exec .buildTree s = .next t) : t.status.err = false := by
  cases h
  rfl

/-! ## The statements -/

/-- Settles O28: DECOMPRESS runs DECODE's body on the state BUILD_TREE's body leaves, and DECODE follows the paths of the
tree of FREQ. -/
theorem decompressRebuildsAndWalks : Obligations.DecompressRebuildsAndWalks := by
  refine ⟨fun _ => rfl, fun s segs tail _ hn hin hlen hstream hsegs htail hfit => ?_⟩
  have hcount : 2 ≤ (treeOf s.freq).symCount.toNat := by rwa [treeOf_symCount_toNat]
  have hdecode := exec_decode_of_paths (u := { s.setTree (treeOf s.freq) with status := s.status.treeBuilt }) rfl hcount
    hin hlen hstream hsegs htail hfit
  exact ⟨_, hdecode, Memory.holdsBytes_writeBytes s.outBuf (segs.map Prod.snd)⟩

/-- Settles O29: the separate commands run the bodies of the compound one, and between two of them only CMD and the
completion flags change, which no body reads. -/
theorem separateCommandsEqualCompound : Obligations.SeparateCommandsEqualCompound := by
  refine ⟨fun s t₁ t₂ t₃ t₄ v₂ v₃ v₄ hcount herr₁ hbuild hgen herr₃ hencode herr₄ => ?_,
    fun s t₁ t₂ v hbuild hdecode herr => ?_⟩
  · obtain ⟨u₁, hu₁, rfl⟩ := Phase.finish_success (p := countBody s) hcount herr₁
    obtain ⟨u₂, hu₂, heq₂⟩ := readsLasting_buildTreeBody.compound_step (u := u₁) rfl hbuild (exec_buildTree_err hbuild)
    obtain ⟨u₃, hu₃, heq₃⟩ := readsLasting_genCodesBody.compound_step heq₂ hgen herr₃
    obtain ⟨u₄, hu₄, heq₄⟩ := readsLasting_encodeBody.compound_step heq₃ hencode herr₄
    refine ⟨u₄.complete, ?_, State.results_eq_of_lasting heq₄⟩
    change ((((countBody s).andThen buildTreeBody).andThen genCodesBody).andThen encodeBody).finish = _
    simp [hu₁, hu₂, hu₃, hu₄]
  · obtain ⟨u₁, hu₁, rfl⟩ := Phase.finish_success (p := buildTreeBody s) hbuild (exec_buildTree_err hbuild)
    obtain ⟨u₂, hu₂, heq₂⟩ := readsLasting_decodeBody.compound_step (u := u₁) rfl hdecode herr
    refine ⟨u₂.complete, ?_, State.results_eq_of_lasting heq₂⟩
    change ((buildTreeBody s).andThen decodeBody).finish = _
    simp [hu₁, hu₂]

end Sys2Proof.Machine
end

section
/-! PROOFS. The statements of spec/70_reset_and_hazards.md: the reset values (R246, R247) and SOFT_RESET (R249). -/

namespace Sys2Proof.Machine

/-! ## SOFT_RESET, idle and busy (R249) -/

theorem exec_softReset_of_idle {s : State} (hidle : s.status.busy = false) (v : Word) :
    exec (.softReset v) s = .next s.softReset :=
  if_neg (Bool.eq_false_iff.mp hidle)

theorem exec_softReset_of_busy {s : State} (hbusy : s.status.busy = true) (v : Word) :
    exec (.softReset v) s = .next s.dropped :=
  if_pos hbusy

/-! ## The reset values (R246, R247) -/

theorem Status.word_reset : Status.reset.word = 0x00000000#32 := by decide

theorem State.reset_nodes : State.reset.nodes = NodeStore.empty := rfl

/-! ## The statements -/

/-- Settles O32: idle, the state is the soft reset, whose fields are the ones stated; busy, it is the dropped write. -/
theorem softResetKeepsTheBuffers : Obligations.SoftResetKeepsTheBuffers :=
  fun _ v _ => ⟨fun hidle => exec_softReset_of_idle hidle v, fun hbusy => exec_softReset_of_busy hbusy v⟩

/-- Settles O34: the registers by definition, the tables because each entry of a uniform table is its one value. -/
theorem resetStateHoldsTheResetValues : Obligations.ResetStateHoldsTheResetValues := by
  refine ⟨rfl, Status.word_reset, rfl, rfl, rfl, rfl, rfl, rfl, ?freq, ?codes, ?nodes⟩
  case freq => exact SymTable.at_replicate 0#32
  case codes => exact fun b => ⟨SymTable.at_replicate 0#8 b, SymTable.at_replicate 0#256 b⟩
  case nodes =>
    intro i _
    rw [State.reset_nodes, NodeStore.at_empty]
    rfl

end Sys2Proof.Machine
end

section
/-! PROOFS. The statements of spec/30_encoding.md and spec/40_tree_builder.md R120: decoder and encoder agree (R100,
R101, R104), and a step runs the decoded instruction or, while idle, none. -/

namespace Sys2Proof.Machine

/-! ## The command word (R100) -/

/-- A word whose bits 31:8 are 0 is its low byte. -/
theorem toNat_of_mbz {v : Word} (h : v.extractLsb' 8 24 = 0) : v.toNat = (v.extractLsb' 0 8).toNat := by
  have hhigh := congrArg BitVec.toNat h
  have hlt := v.isLt
  simp only [BitVec.extractLsb'_toNat, Nat.shiftRight_eq_div_pow, BitVec.ofNat_eq_ofNat, BitVec.toNat_ofNat] at hhigh ⊢
  omega

/-- A word that decodes to a command is the one that command is encoded as (R101). -/
theorem encode_of_decodeCmd {v : Word} {i : Instr} (h : decodeCmd v = .ok i) : encode i = (.cmd, v) := by
  by_cases hmbz : v.extractLsb' 8 24 = 0
  · have hv := toNat_of_mbz hmbz
    have hword {w : Word} (hop : (v.extractLsb' 0 8).toNat = w.toNat) : (Port.cmd, w) = (.cmd, v) :=
      congrArg (Port.cmd, ·) (BitVec.eq_of_toNat_eq (hop.symm.trans hv.symm))
    rw [decodeCmd, if_neg (not_not_intro hmbz)] at h
    split at h
    case h_10 => cases h
    all_goals
      cases h
      exact hword ‹_›
  · rw [decodeCmd, if_pos hmbz] at h
    cases h

/-- What is encoded for CMD decodes to itself (R101). -/
theorem decodeCmd_of_encode {v : Word} {i : Instr} (h : encode i = (.cmd, v)) : decodeCmd v = .ok i := by
  cases i with
  | softReset w => cases congrArg Prod.fst h
  | _ => cases h; rfl

/-- CTRL words that decode are the SOFT_RESETs with bit 1 set, each as it is written (R104). -/
theorem decodeCtrl_eq_ok_iff {v : Word} {i : Instr} :
    decodeCtrl v = .ok i ↔ v.getLsbD 1 = true ∧ i = .softReset v := by
  unfold decodeCtrl
  cases v.getLsbD 1 <;> simp [eq_comm]

/-! ## The statements about words -/

/-- Settles O1: on CMD the word is its low byte, which names one command; on CTRL the instruction carries the word. -/
theorem decodeAndEncodeAgree : Obligations.DecodeAndEncodeAgree := by
  intro p v i
  cases p with
  | cmd =>
    refine ⟨fun h => ⟨?_, encode_of_decodeCmd h⟩, fun h => decodeCmd_of_encode h.2⟩
    cases i with
    | softReset w => exact absurd h (decodeCmd_ne_softReset v w)
    | _ => rfl
  | ctrl =>
    refine decodeCtrl_eq_ok_iff.trans ⟨?_, ?_⟩
    · rintro ⟨hbit, rfl⟩
      exact ⟨hbit, rfl⟩
    · rintro ⟨hbit, henc⟩
      cases i with
      | softReset w =>
        obtain rfl : w = v := congrArg Prod.snd henc
        exact ⟨hbit, rfl⟩
      | _ => cases congrArg Prod.fst henc

/-- Settles O2: each row's word is what its instruction is encoded as, so it decodes to it. -/
theorem tableWordsDecodeToTheirCommands : Obligations.TableWordsDecodeToTheirCommands := by
  refine ⟨?_, ?_, ?_, ?_, ?_, ?_, ?_, ?_, ?_, ?_, ?_⟩ <;> exact (decodeAndEncodeAgree _ _ _).mpr ⟨by decide, rfl⟩

/-! ## The step runs the instruction (R120, R104) -/

/-- While busy, a step with no event to come is the CORE step (R257). -/
theorem step_noInputs_of_busy {s : State} (hbusy : s.status.busy = true) :
    step { s with inputs := [] } = coreStep { s with inputs := [] } := if_pos hbusy

theorem coreTurn_of_idle {s : State} (hidle : s.status.busy = false) : coreTurn s = .next s :=
  if_neg (Bool.eq_false_iff.mp hidle)

theorem coreStep_of_decodeCmd_ok {s : State} {i : Instr} (h : decodeCmd s.cmd = .ok i) : coreStep s = exec i s := by
  rw [coreStep, h]

/-- Settles O4: a busy CORE's turn is the CORE step, on the word in CMD; any offset of CTRL's word is CTRL. -/
theorem stepRunsTheDecodedInstruction : Obligations.StepRunsTheDecodedInstruction := by
  refine ⟨fun s i hbusy hdecode => ⟨fun rest => ?_, ?_⟩, fun s off v hoff hv rest => ?_⟩
  · exact (step_core hbusy rest).trans (coreStep_of_decodeCmd_ok hdecode)
  · exact (step_noInputs_of_busy hbusy).trans (coreStep_of_decodeCmd_ok hdecode)
  · have hctrl : locOf s.cfg off = .ctrl := locOf_congr (off' := 0x008#22) (congrArg (· * 4) hoff) s.cfg
    exact step_softReset hctrl hv rest

/-- Settles O5: an idle CORE's turn does nothing, whether the turn is an event or what is left when events are over. -/
theorem coreStepIsEnabledOnlyWhileBusy : Obligations.CoreStepIsEnabledOnlyWhileBusy := by
  intro s hidle
  exact ⟨fun rest => coreTurn_of_idle (s := { s with inputs := rest }) hidle,
    coreTurn_of_idle (s := { s with inputs := [] }) hidle⟩

end Sys2Proof.Machine
end

section
/-! PROOFS. The statements of spec/40_tree_builder.md R129: what adds up over a tree's children adds up over its
leaves, so the root weighs the sum of FREQ; and the depth of the tree. -/

namespace Sys2Proof.Machine

/-! ## Sums over the unpopped slots (R125) -/

section LeafSum

variable {f : SymTable Word}

/-- The slots made before slot `i` and popped by no merge before it. -/
noncomputable def unpopped (f : SymTable Word) (i : Nat) : Finset Nat :=
  @Finset.filter Nat (fun j => ¬ PoppedBefore (treeOf f).nodes (presentCount f) i j) (Classical.decPred _)
    (Finset.range i)

theorem mem_unpopped {i j : Nat} :
    j ∈ unpopped f i ↔ j < i ∧ ¬ PoppedBefore (treeOf f).nodes (presentCount f) i j := by
  simp [unpopped]

/-- No merge comes before the first one, so every leaf is unpopped then. -/
theorem unpopped_presentCount : unpopped f (presentCount f) = Finset.range (presentCount f) := by
  ext j
  have hnone : ¬ PoppedBefore (treeOf f).nodes (presentCount f) (presentCount f) j :=
    fun ⟨p, hnp, hpn, _⟩ => absurd hpn (Nat.not_lt.mpr hnp)
  simp [mem_unpopped, hnone]

/-- When every slot is made, the root alone is unpopped. -/
theorem unpopped_end (hpos : 1 ≤ presentCount f) : unpopped f (2 * presentCount f - 1) = {2 * presentCount f - 2} := by
  obtain ⟨hinv, hnext⟩ := merged_inv f
  have hactive := hinv.active_eq (presentCount_le f) hpos hnext
  ext j
  have hmem := hinv.mem_active j
  rw [hactive, hnext, List.mem_singleton] at hmem
  exact mem_unpopped.trans (hmem.symm.trans Finset.mem_singleton.symm)

/-- A merge takes its two children out of the unpopped slots, and adds the slot it makes. -/
theorem unpopped_succ {i a b : Nat} (hni : presentCount f ≤ i) (hi : i < 2 * presentCount f - 1)
    (hjoin : JoinsLowest (treeOf f).nodes (presentCount f) i a b) :
    unpopped f (i + 1) = insert i (((unpopped f i).erase a).erase b) := by
  have hn := presentCount_le f
  have ha := hjoin.left_lt
  have hb := hjoin.right_lt
  ext j
  rw [mem_unpopped, poppedBefore_succ hni, hjoin.left_eq (by omega), hjoin.right_eq (by omega), Finset.mem_insert,
    Finset.mem_erase, Finset.mem_erase, mem_unpopped]
  have hself : ¬ PoppedBefore (treeOf f).nodes (presentCount f) i i := by
    rintro ⟨p, hnp, hpi, hchild⟩
    obtain ⟨c, d, hcd⟩ := treeOf_joins hnp (by omega)
    have hc := hcd.left_lt
    have hd := hcd.right_lt
    rw [hcd.left_eq (by omega), hcd.right_eq (by omega)] at hchild
    omega
  obtain rfl | hne := eq_or_ne j i
  · simp [hself, ha.ne, hb.ne]
  · simp only [hne, false_or]
    constructor
    · rintro ⟨hlt, hun⟩
      simp only [not_or] at hun
      exact ⟨Ne.symm hun.2.2, Ne.symm hun.2.1, by omega, hun.1⟩
    · rintro ⟨hjb, hja, hlt, hun⟩
      exact ⟨by omega, fun h => h.elim hun fun h => h.elim (Ne.symm hja) (Ne.symm hjb)⟩

/-- What is, at each slot a merge makes, the sum over the slot's two children, is at the root the sum over the leaves.
-/
theorem leafSum_eq_root {M : Type} [AddCommMonoid M] (φ : Nat → M)
    (hφ : ∀ i a b, presentCount f ≤ i → i < 2 * presentCount f - 1 →
      JoinsLowest (treeOf f).nodes (presentCount f) i a b → φ i = φ a + φ b) (hpos : 1 ≤ presentCount f) :
    ∑ k ∈ Finset.range (presentCount f), φ k = φ (2 * presentCount f - 2) := by
  have hkept (i : Nat) (hni : presentCount f ≤ i) (hi : i ≤ 2 * presentCount f - 1) :
      ∑ j ∈ unpopped f i, φ j = ∑ k ∈ Finset.range (presentCount f), φ k := by
    induction i, hni using Nat.le_induction with
    | base => rw [unpopped_presentCount]
    | succ i hni ih =>
      obtain ⟨a, b, hjoin⟩ := treeOf_joins hni hi
      have hamem : a ∈ unpopped f i := mem_unpopped.mpr ⟨hjoin.left_lt, hjoin.left_unpopped⟩
      have hbmem : b ∈ (unpopped f i).erase a :=
        Finset.mem_erase.mpr ⟨hjoin.before.ne.symm, mem_unpopped.mpr ⟨hjoin.right_lt, hjoin.right_unpopped⟩⟩
      have hfresh : i ∉ ((unpopped f i).erase a).erase b := fun h =>
        (mem_unpopped.mp (Finset.mem_of_mem_erase (Finset.mem_of_mem_erase h))).1.false
      rw [← ih (by omega), unpopped_succ hni hi hjoin, Finset.sum_insert hfresh, hφ i a b hni hi hjoin,
        ← Finset.add_sum_erase _ _ hamem, ← Finset.add_sum_erase _ _ hbmem, add_assoc]
  rw [← hkept _ (by omega) le_rfl, unpopped_end hpos, Finset.sum_singleton]

end LeafSum

/-! ## The sum of FREQ (R123, R129) -/

/-- The 256 symbol values, ascending. -/
def allSymbols : List Byte := (List.range 256).map (BitVec.ofNat 8)

theorem mem_allSymbols (b : Byte) : b ∈ allSymbols :=
  List.mem_map.mpr ⟨b.toNat, List.mem_range.mpr b.isLt, by simp⟩

theorem allSymbols_nodup : allSymbols.Nodup := by
  refine (List.nodup_map_iff_inj_on List.nodup_range).mpr fun x hx y hy h => ?_
  have hnat := congrArg BitVec.toNat h
  rw [List.mem_range] at hx hy
  rwa [BitVec.toNat_ofNat, BitVec.toNat_ofNat, Nat.mod_eq_of_lt hx, Nat.mod_eq_of_lt hy] at hnat

theorem presentSymbols_nodup (f : SymTable Word) : (presentSymbols f).Nodup :=
  (presentSymbols_pairwise f).imp fun h => by rintro rfl; exact h.false

/-- A sum over the present symbols of what absent ones have none of is the sum over all symbols. -/
theorem sum_presentSymbols {f : SymTable Word} {g : Byte → Nat} (hg : ∀ b, SymTable.at f b = 0#32 → g b = 0) :
    ((presentSymbols f).map g).sum = (allSymbols.map g).sum := by
  rw [← List.sum_toFinset _ (presentSymbols_nodup f), ← List.sum_toFinset _ allSymbols_nodup]
  refine Finset.sum_subset (fun b _ => List.mem_toFinset.mpr (mem_allSymbols b)) fun b _ hb => hg b ?_
  by_contra hne
  exact hb (List.mem_toFinset.mpr (mem_presentSymbols.mpr hne))

/-- A sum over the leaves' slots, by the symbols that stand in them. -/
theorem sum_range_presentCount {M : Type} [AddCommMonoid M] {f : SymTable Word} {φ : Nat → M} {g : Byte → M}
    (h : ∀ k (hk : k < (presentSymbols f).length), φ k = g (presentSymbols f)[k]) :
    ∑ k ∈ Finset.range (presentCount f), φ k = ((presentSymbols f).map g).sum := by
  rw [presentCount, Finset.sum_range, ← Fin.sum_univ_fun_getElem]
  exact Finset.sum_congr rfl fun k _ => h k k.isLt

/-- A leaf weighs what FREQ says of its symbol (R124). -/
theorem treeOf_leaf_weight {f : SymTable Word} {k : Nat} (hk : k < (presentSymbols f).length) :
    (NodeStore.at (treeOf f).nodes k).weight.toNat = (SymTable.at f (presentSymbols f)[k]).toNat := by
  rw [treeOf_leaf hk, Node.ofLeaf, BitVec.toNat_setWidth]
  exact Nat.mod_eq_of_lt ((BitVec.isLt _).trans (by decide))

/-- The leaves weigh as much as FREQ sums up to (R123). -/
theorem sum_leafWeights (f : SymTable Word) :
    ∑ k ∈ Finset.range (presentCount f), (NodeStore.at (treeOf f).nodes k).weight.toNat = freqTotal f := by
  rw [sum_range_presentCount (g := fun b => (SymTable.at f b).toNat) fun _ => treeOf_leaf_weight,
    sum_presentSymbols fun b hb => congrArg BitVec.toNat hb, allSymbols, List.map_map]
  rfl

/-! ## The depth of the tree (R129) -/

/-- A path that has met no leaf before its end goes through ever older internal slots, so it is no longer than there
are of them. -/
theorem length_le_of_meets_no_leaf {f : SymTable Word} {i : NodeIdx} {p : List Bool}
    (hi : i.toNat < 2 * presentCount f - 1)
    (h : ∀ k, k < p.length →
      (NodeStore.at (treeOf f).nodes (pathFrom (treeOf f).nodes i (p.take k)).toNat).leaf = false) :
    p.length ≤ i.toNat + 1 - presentCount f := by
  induction p generalizing i with
  | nil => exact Nat.zero_le _
  | cons bit p ih =>
    have hni : presentCount f ≤ i.toNat := le_of_treeOf_internal (h 0 (Nat.succ_pos _))
    have hlt := treeOf_child_lt hni hi bit
    have hlen := ih (by omega) fun k hk => h (k + 1) (Nat.succ_lt_succ hk)
    rw [List.length_cons]
    omega

/-! ## The statements -/

/-- Settles O11: a parent's weight is the sum of its children's, and the leaves weigh what FREQ says. -/
theorem rootWeightIsTheSumOfFreq : Obligations.RootWeightIsTheSumOfFreq := by
  intro s hpos
  refine ⟨_, exec_buildTree s, ?_⟩
  change (NodeStore.at (treeOf s.freq).nodes (treeOf s.freq).root.toNat).weight.toNat = _
  rw [treeOf_root_toNat hpos, ← sum_leafWeights]
  exact (leafSum_eq_root (fun i => (NodeStore.at (treeOf s.freq).nodes i).weight.toNat)
    (fun _ _ _ _ _ hjoin => hjoin.weight_eq) hpos).symm

/-- Settles O12: from the root, slot 2n-2, a path meets at most the n-1 internal slots. -/
theorem buildTreeDepthIsBelowN : Obligations.BuildTreeDepthIsBelowN := by
  intro s hpos
  refine ⟨_, exec_buildTree s, fun p hp => ?_⟩
  have hroot := treeOf_root_toNat hpos
  have hlen := length_le_of_meets_no_leaf (i := (treeOf s.freq).root) (by omega) hp
  omega

end Sys2Proof.Machine
end

section
/-! PROOFS. The statements of spec/41_code_generator.md: the codes are the paths from the root to the leaves (R150),
none is a beginning of another, and their Kraft sum is 1 (R153). -/

namespace Sys2Proof.Machine

/-! ## The leaves the walk meets (R150) -/

section Walk

variable {nodes : NodeStore} {fuel : Nat} {i : NodeIdx} {len bits : Nat} {leaves : List LeafCode}

/-- A walk that ends started at a leaf, or met the leaves below the left child and then those below the right one. -/
theorem walk_cases (h : walk nodes (fuel + 1) i len bits = some leaves) :
    ((NodeStore.at nodes i.toNat).leaf = true ∧
      leaves = [{ sym := (NodeStore.at nodes i.toNat).sym, len := len, bits := bits }]) ∨
    ((NodeStore.at nodes i.toNat).leaf = false ∧ ∃ l r, leaves = l ++ r ∧
      walk nodes fuel (NodeStore.at nodes i.toNat).left (len + 1) (2 * bits) = some l ∧
      walk nodes fuel (NodeStore.at nodes i.toNat).right (len + 1) (2 * bits + 1) = some r) := by
  rw [walk] at h
  split at h
  case isTrue hleaf => exact .inl ⟨hleaf, (Option.some.inj h).symm⟩
  case isFalse hleaf =>
    refine .inr ⟨Bool.eq_false_iff.mpr hleaf, ?_⟩
    split at h
    case h_1 l r hl hr => exact ⟨l, r, (Option.some.inj h).symm, hl, hr⟩
    case h_2 => cases h

/-- A code's bits fit its length (R42). -/
theorem walk_bits_lt (h : walk nodes fuel i len bits = some leaves) (hbits : bits < 2 ^ len) :
    ∀ c ∈ leaves, c.bits < 2 ^ c.len := by
  induction fuel generalizing i len bits leaves with
  | zero => cases h
  | succ fuel ih =>
    obtain ⟨_, rfl⟩ | ⟨_, l, r, rfl, hl, hr⟩ := walk_cases h
    · exact List.forall_mem_singleton.mpr hbits
    · have hpow := Nat.pow_succ 2 len
      exact List.forall_mem_append.mpr ⟨ih hl (by omega), ih hr (by omega)⟩

/-- The two subtrees below a slot have half of its share of the code space each (R153). -/
theorem walk_kraft (h : walk nodes fuel i len bits = some leaves) {d : Nat} (hd : ∀ c ∈ leaves, c.len ≤ d) :
    len ≤ d ∧ (leaves.map fun c => 2 ^ (d - c.len)).sum = 2 ^ (d - len) := by
  induction fuel generalizing i len bits leaves with
  | zero => cases h
  | succ fuel ih =>
    obtain ⟨_, rfl⟩ | ⟨_, l, r, rfl, hl, hr⟩ := walk_cases h
    · exact ⟨hd _ (List.mem_singleton_self _), List.sum_singleton⟩
    · obtain ⟨hdl, hdr⟩ := List.forall_mem_append.mp hd
      obtain ⟨hlen, hsl⟩ := ih hl hdl
      obtain ⟨-, hsr⟩ := ih hr hdr
      have hhalf : d - len = d - (len + 1) + 1 := by omega
      rw [List.map_append, List.sum_append, hsl, hsr, hhalf, pow_succ, mul_two]
      exact ⟨by omega, rfl⟩

/-- Which leaves a walk meets does not depend on the path it came by. -/
theorem walk_syms_unique (h : walk nodes fuel i len bits = some leaves) {fuel' len' bits' : Nat}
    {leaves' : List LeafCode} (h' : walk nodes fuel' i len' bits' = some leaves') :
    leaves.map LeafCode.sym = leaves'.map LeafCode.sym := by
  induction fuel generalizing i len bits leaves fuel' len' bits' leaves' with
  | zero => cases h
  | succ fuel ih =>
    cases fuel' with
    | zero => cases h'
    | succ fuel' =>
      obtain ⟨hleaf, rfl⟩ | ⟨hinternal, l, r, rfl, hl, hr⟩ := walk_cases h <;>
        obtain ⟨hleaf', rfl⟩ | ⟨hinternal', l', r', rfl, hl', hr'⟩ := walk_cases h'
      · rfl
      · cases hleaf.symm.trans hinternal'
      · cases hleaf'.symm.trans hinternal
      · rw [List.map_append, List.map_append, ih hl hl', ih hr hr']

end Walk

/-! ## Each present symbol is met once (R129, R150) -/

section LeafSyms

variable {f : SymTable Word}

/-- The symbols of the leaves below slot `i` of the tree of `f`. -/
def leafSyms (f : SymTable Word) (i : Nat) : Multiset Byte :=
  (((walk (treeOf f).nodes 512 (BitVec.ofNat 9 i) 0 0).getD []).map LeafCode.sym : List Byte)

theorem leafSyms_eq {fuel len bits : Nat} {i : NodeIdx} (hi : i.toNat < 2 * presentCount f - 1)
    {leaves : List LeafCode} (h : walk (treeOf f).nodes fuel i len bits = some leaves) :
    leafSyms f i.toNat = (leaves.map LeafCode.sym : List Byte) := by
  have hn := presentCount_le f
  obtain ⟨all, hall, _⟩ := walk_treeOf (f := f) 512 hi (by omega) 0 0
  rw [leafSyms, BitVec.ofNat_toNat, BitVec.setWidth_eq, hall, Option.getD_some, walk_syms_unique hall h]

theorem leafSyms_leaf {k : Nat} (hk : k < (presentSymbols f).length) : leafSyms f k = {(presentSymbols f)[k]} := by
  have hn : (presentSymbols f).length ≤ 256 := presentCount_le f
  have hnat : (BitVec.ofNat 9 k).toNat = k := Nat.mod_eq_of_lt (by omega)
  have hnode := treeOf_leaf hk
  rw [leafSyms, walk_leaf (by rw [hnat, hnode, Node.ofLeaf]), hnat, hnode]
  rfl

theorem leafSyms_join {i a b : Nat} (hi : i < 2 * presentCount f - 1)
    (hjoin : JoinsLowest (treeOf f).nodes (presentCount f) i a b) : leafSyms f i = leafSyms f a + leafSyms f b := by
  have hn := presentCount_le f
  have ha := hjoin.left_lt
  have hb := hjoin.right_lt
  have hnat : (BitVec.ofNat 9 i).toNat = i := Nat.mod_eq_of_lt (by omega)
  obtain ⟨all, hall, _⟩ := walk_treeOf (f := f) 512 (i := BitVec.ofNat 9 i) (by omega) (by omega) 0 0
  have hsyms := leafSyms_eq (by omega) hall
  obtain ⟨hleaf, _⟩ | ⟨_, l, r, rfl, hl, hr⟩ := walk_cases hall
  · rw [hnat, hjoin.node] at hleaf
    cases hleaf
  · rw [hnat] at hsyms hl hr
    have hleft := hjoin.left_eq (by omega)
    have hright := hjoin.right_eq (by omega)
    rw [hsyms, List.map_append, ← Multiset.coe_add, ← leafSyms_eq (by omega) hl, ← leafSyms_eq (by omega) hr, hleft,
      hright]

/-- The walk from the root meets each present symbol once, and no other. -/
theorem walk_root_syms (hpos : 1 ≤ presentCount f) {leaves : List LeafCode}
    (h : walk (treeOf f).nodes 512 (treeOf f).root 0 0 = some leaves) :
    (leaves.map LeafCode.sym).Perm (presentSymbols f) := by
  have hroot := treeOf_root_toNat hpos
  have hsum := leafSum_eq_root (leafSyms f) (fun i a b _ hi hjoin => leafSyms_join hi hjoin) hpos
  have hpresent : ((presentSymbols f).map fun b => ({b} : Multiset Byte)).sum = presentSymbols f := by
    simpa using Multiset.sum_map_singleton (presentSymbols f : Multiset Byte)
  rw [sum_range_presentCount (g := fun b => {b}) fun _ => leafSyms_leaf, hpresent, ← hroot,
    leafSyms_eq (by omega) h] at hsum
  exact Multiset.coe_eq_coe.mp hsum.symm

end LeafSyms

/-! ## The codes of the tree (R150, R153) -/

/-- Where no two leaves have one symbol, each leaf's code is in the table when all are entered. -/
theorem CodeTable.holdsCode_foldl {leaves : List LeafCode} (hnodup : (leaves.map LeafCode.sym).Nodup) (t : CodeTable) :
    ∀ c ∈ leaves, (leaves.foldl CodeTable.enter t).HoldsCode c := by
  induction leaves generalizing t with
  | nil => exact fun c hc => absurd hc List.not_mem_nil
  | cons d rest ih =>
    obtain ⟨hfresh, hrest⟩ := List.nodup_cons.mp hnodup
    refine List.forall_mem_cons.mpr ⟨?_, ih hrest _⟩
    refine List.foldlRecOn (motive := fun t => t.HoldsCode d) rest CodeTable.enter (t.holdsCode_enter d) ?_
    exact fun u hu c hc => hu.enter fun hsym => hfresh (hsym ▸ List.mem_map_of_mem hc)

/-- What the code table `t` of the tree of `f` holds: one code for each of the tree's `leaves`. -/
structure LeafCodes (f : SymTable Word) (t : CodeTable) (leaves : List LeafCode) : Prop where
  syms : (leaves.map LeafCode.sym).Perm (presentSymbols f)
  holds : ∀ c ∈ leaves, t.HoldsCode c
  path : ∀ c ∈ leaves, LeadsToLeaf (treeOf f).nodes (treeOf f).root (pathBits c.len c.bits) c.sym
  len_le : ∀ c ∈ leaves, c.len ≤ presentCount f - 1
  bits_lt : ∀ c ∈ leaves, c.bits < 2 ^ c.len
  kraft : (leaves.map fun c => 2 ^ (255 - c.len)).sum = 2 ^ 255

/-- For n >= 2 the walk gives each leaf the path from the root to it. -/
theorem exists_leafCodes {f : SymTable Word} (hn : 2 ≤ presentCount f) :
    ∃ t leaves, codesOf (treeOf f) = some t ∧ LeafCodes f t leaves := by
  have hcount := treeOf_symCount_toNat f
  have hle := presentCount_le f
  have hroot := treeOf_root_toNat (f := f) (by omega)
  obtain ⟨leaves, hwalk, _⟩ := walk_treeOf (f := f) 512 (i := (treeOf f).root) (by omega) (by omega) 0 0
  have hsyms := walk_root_syms (by omega) hwalk
  have hpath : ∀ c ∈ leaves, LeadsToLeaf (treeOf f).nodes (treeOf f).root (pathBits c.len c.bits) c.sym := by
    intro c hc
    obtain ⟨p, hp, hend⟩ := walk_path hwalk hc
    obtain rfl : pathBits c.len c.bits = p := hp
    exact hend.leadsToLeaf (treeOf_internal (by omega) (by omega))
  have hlen : ∀ c ∈ leaves, c.len ≤ presentCount f - 1 := by
    intro c hc
    have hlen := (hpath c hc).length_le (by omega) (by omega)
    rw [pathBits_length] at hlen
    omega
  refine ⟨_, leaves, codesOf_of_walk (by omega) hwalk, hsyms,
    CodeTable.holdsCode_foldl (hsyms.nodup_iff.mpr (presentSymbols_nodup f)) _, hpath, hlen,
    walk_bits_lt hwalk Nat.one_pos, (walk_kraft hwalk fun c hc => ?_).2⟩
  have hc := hlen c hc
  omega

section Codes

variable {f : SymTable Word} {t : CodeTable} {leaves : List LeafCode} {b : Byte}

/-- A present symbol is some leaf's. -/
theorem LeafCodes.exists_leaf (h : LeafCodes f t leaves) (hb : SymTable.at f b ≠ 0#32) : ∃ c ∈ leaves, c.sym = b :=
  List.mem_map.mp (h.syms.mem_iff.mpr (mem_presentSymbols.mpr hb))

theorem LeafCodes.len_eq (h : LeafCodes f t leaves) {c : LeafCode} (hc : c ∈ leaves) :
    (SymTable.at t.len c.sym).toNat = c.len := by
  have hlen := h.len_le c hc
  have hn := presentCount_le f
  rw [(h.holds c hc).1]
  exact Nat.mod_eq_of_lt (by omega)

theorem LeafCodes.bits_eq (h : LeafCodes f t leaves) {c : LeafCode} (hc : c ∈ leaves) :
    (SymTable.at t.bits c.sym).toNat = c.bits := by
  have hlen := h.len_le c hc
  have hn := presentCount_le f
  rw [(h.holds c hc).2]
  exact Nat.mod_eq_of_lt ((h.bits_lt c hc).trans_le (Nat.pow_le_pow_right two_pos (by omega)))

theorem LeafCodes.codeOf_eq (h : LeafCodes f t leaves) {c : LeafCode} (hc : c ∈ leaves) :
    t.codeOf c.sym = pathBits c.len c.bits := by
  have hlen := h.len_le c hc
  have hn := presentCount_le f
  exact (h.holds c hc).codeOf_eq (by omega)

/-- A present symbol's code is the path from the root to its leaf (R150). -/
theorem LeafCodes.leadsToLeaf (h : LeafCodes f t leaves) (hb : SymTable.at f b ≠ 0#32) :
    LeadsToLeaf (treeOf f).nodes (treeOf f).root (t.codeOf b) b := by
  obtain ⟨c, hc, rfl⟩ := h.exists_leaf hb
  rw [h.codeOf_eq hc]
  exact h.path c hc

/-- The bits above a code are 0 (R42). -/
theorem LeafCodes.codeBits_lt (h : LeafCodes f t leaves) (hb : SymTable.at f b ≠ 0#32) :
    (SymTable.at t.bits b).toNat < 2 ^ (SymTable.at t.len b).toNat := by
  obtain ⟨c, hc, rfl⟩ := h.exists_leaf hb
  rw [h.len_eq hc, h.bits_eq hc]
  exact h.bits_lt c hc

/-- A code has from 1 to n-1 bits (R153). -/
theorem LeafCodes.len_range (h : LeafCodes f t leaves) (hb : SymTable.at f b ≠ 0#32) :
    1 ≤ (SymTable.at t.len b).toNat ∧ (SymTable.at t.len b).toNat ≤ presentCount f - 1 := by
  have hpos := List.length_pos_iff.mpr (h.leadsToLeaf hb).1
  rw [CodeTable.codeOf_length] at hpos
  obtain ⟨c, hc, rfl⟩ := h.exists_leaf hb
  exact ⟨hpos, (h.len_eq hc).trans_le (h.len_le c hc)⟩

/-- The Kraft sum over the present symbols is that over the leaves (R153). -/
theorem LeafCodes.kraft_presentSymbols (h : LeafCodes f t leaves) :
    ((presentSymbols f).map fun b => 2 ^ (255 - (SymTable.at t.len b).toNat)).sum = 2 ^ 255 := by
  have hleaves : leaves.map (fun c => 2 ^ (255 - (SymTable.at t.len c.sym).toNat)) =
      leaves.map fun c => 2 ^ (255 - c.len) := List.map_congr_left fun c hc => by rw [h.len_eq hc]
  rw [← (h.syms.map _).sum_nat, List.map_map, ← h.kraft, ← hleaves]
  rfl

end Codes

/-- Of two paths to leaves from one slot, the one that is a beginning of the other is the other (R153). -/
theorem LeadsToLeaf.eq_of_prefix {st : NodeStore} {i : NodeIdx} {p q : List Bool} {a b : Byte}
    (hp : LeadsToLeaf st i p a) (hq : LeadsToLeaf st i q b) (h : p <+: q) : p = q := by
  obtain ⟨hne, -, hleaf, -⟩ := hp
  obtain ⟨-, hstays, -⟩ := hq
  by_contra hneq
  have hlt : p.length < q.length := h.length_le.lt_of_ne fun hlen => hneq (h.eq_of_length hlen)
  have hinternal := hstays p.length (List.length_pos_iff.mpr hne) hlt hlt.le
  rw [← List.prefix_iff_eq_take.mp h, hleaf] at hinternal
  cases hinternal

/-! ## The statements -/

/-- GEN_CODES on a valid tree of FREQ with n >= 2 stores the codes of its leaves. -/
theorem exec_genCodes_leafCodes {s : State} (hvalid : s.status.treeValid = true) (hok : s.treeOk)
    (hn : 2 ≤ presentCount s.freq) :
    ∃ t leaves, LeafCodes s.freq t leaves ∧
      exec .genCodes s =
        .next { s with
          codeLen := t.len, codeBits := t.bits, status := { s.status.success with codesValid := true } } := by
  obtain ⟨t, leaves, hcodes, hleaves⟩ := exists_leafCodes hn
  rw [← hok hvalid] at hcodes
  exact ⟨t, leaves, hleaves, exec_genCodes hvalid hcodes⟩

/-- Settles O15: the code table holds, for each leaf the walk meets, the path the walk took, and it meets each present
symbol. -/
theorem codesAreRootToLeafPaths : Obligations.CodesAreRootToLeafPaths := by
  intro s hvalid hok hn
  obtain ⟨t, leaves, hcodes, hexec⟩ := exec_genCodes_leafCodes hvalid hok hn
  refine ⟨_, _, hexec, fun b hb => ⟨?_, hcodes.codeBits_lt hb⟩⟩
  have hleads := hcodes.leadsToLeaf hb
  rwa [← hok hvalid] at hleads

/-- Settles O16: codes are paths to leaves, and a path to a leaf goes through no other leaf. -/
theorem codesArePrefixFree : Obligations.CodesArePrefixFree := by
  intro s hvalid hok hn
  obtain ⟨t, leaves, hcodes, hexec⟩ := exec_genCodes_leafCodes hvalid hok hn
  refine ⟨_, hexec, fun a ha => hcodes.len_range ha, fun a b ha hb hne hbegins => hne ?_⟩
  have hpa := hcodes.leadsToLeaf ha
  have hpb := hcodes.leadsToLeaf hb
  have hsame : t.codeOf a = t.codeOf b := hpa.eq_of_prefix hpb hbegins
  rw [← hsame] at hpb
  obtain ⟨-, -, -, hsyma⟩ := hpa
  obtain ⟨-, -, -, hsymb⟩ := hpb
  exact hsyma.symm.trans hsymb

/-- Settles O17: each slot's share of the code space is halved between its children, and the root has the whole. -/
theorem kraftSumIsOne : Obligations.KraftSumIsOne := by
  intro s hvalid hok hn
  obtain ⟨t, leaves, hcodes, hexec⟩ := exec_genCodes_leafCodes hvalid hok hn
  exact ⟨_, hexec, hcodes.kraft_presentSymbols⟩

end Sys2Proof.Machine
end

section
/-! PROOFS. The bus once more: the address map as one case distinction, the sets that R93 and R251 name, the buffer
windows (spec/20_memory.md R77, R82, R83), the registers (spec/10_state.md R27 to R34), and RESET
(spec/70_reset_and_hazards.md). -/

namespace Sys2Proof.Machine

/-! ## The address map as a whole (R71) -/

section AddressMap

variable (c : Config) {off : Offset} {o : Nat}

theorem alignedOffset_mod (off : Offset) : alignedOffset off % 4 = 0 := Nat.mul_mod_left _ _

theorem locOf_of_freqWindow (ho : alignedOffset off = o) (hlo : 0x400 ≤ o) (hhi : o < 0x800) :
    locOf c off = .freq (BitVec.ofNat 8 ((o - 0x400) / 4)) := by
  rw [locOf, ho, if_neg (by omega), if_pos hhi]

theorem locOf_of_inWindow (ho : alignedOffset off = o) (hlo : 0x100000 ≤ o) (hhi : o < 0x200000) :
    locOf c off = if o - 0x100000 < c.inBytes then .inWord (o - 0x100000) else .reserved := by
  rw [locOf, ho]
  iterate 7 rw [if_neg (by omega)]
  rw [if_pos hhi]

/-- Which locations lie at the aligned offset `o` (R71): one range of offsets each, reserved what is in none of them. -/
inductive LocAt (c : Config) (o : Nat) : Loc → Prop
  | control (h : o < 0x034) : LocAt c o (controlLoc o)
  | freq (b : Byte) (h : 0x400 ≤ o ∧ o < 0x800) : LocAt c o (.freq b)
  | codeLen (b : Byte) (h : 0x800 ≤ o ∧ o < 0xC00) : LocAt c o (.codeLen b)
  | codeBits (b : Byte) (w : Nat) (h : 0x2000 ≤ o ∧ o < 0x4000) : LocAt c o (.codeBits b w)
  | node (i : Nat) (h : 0x4000 ≤ o ∧ o < 0x6000) : LocAt c o (.node i (o % 16 / 4))
  | inWord (h : 0x100000 ≤ o ∧ o < 0x200000 ∧ o - 0x100000 < c.inBytes) : LocAt c o (.inWord (o - 0x100000))
  | outWord (h : 0x200000 ≤ o ∧ o < 0x300000 ∧ o - 0x200000 < c.outBytes) : LocAt c o (.outWord (o - 0x200000))
  | reserved (hreg : 0x034 ≤ o) (hsym : o < 0x400 ∨ 0xC00 ≤ o) (htab : o < 0x2000 ∨ 0x6000 ≤ o)
      (hin : ¬ (0x100000 ≤ o ∧ o < 0x200000 ∧ o - 0x100000 < c.inBytes))
      (hout : ¬ (0x200000 ≤ o ∧ o < 0x300000 ∧ o - 0x200000 < c.outBytes)) : LocAt c o .reserved

theorem locAt_locOf (ho : alignedOffset off = o) : LocAt c o (locOf c off) := by
  obtain hctl | hfreq | hlen | hbits | hnode | hin | hout | hres :
      o < 0x034 ∨ (0x400 ≤ o ∧ o < 0x800) ∨ (0x800 ≤ o ∧ o < 0xC00) ∨ (0x2000 ≤ o ∧ o < 0x4000) ∨
        (0x4000 ≤ o ∧ o < 0x6000) ∨ (0x100000 ≤ o ∧ o < 0x200000) ∨ (0x200000 ≤ o ∧ o < 0x300000) ∨
        ((0x034 ≤ o ∧ o < 0x400) ∨ (0xC00 ≤ o ∧ o < 0x2000) ∨ (0x6000 ≤ o ∧ o < 0x100000) ∨ 0x300000 ≤ o) := by
    omega
  · rw [locOf_of_lt_0x400 c ho (by omega)]
    exact .control hctl
  · rw [locOf_of_freqWindow c ho hfreq.1 hfreq.2]
    exact .freq _ hfreq
  · rw [locOf_of_codeLenWindow c ho hlen.1 hlen.2]
    exact .codeLen _ hlen
  · rw [locOf_of_codeBitsWindow c ho hbits.1 hbits.2]
    exact .codeBits _ _ hbits
  · rw [locOf_of_nodeWindow c ho hnode.1 hnode.2, show (o - 0x4000) % 16 / 4 = o % 16 / 4 by omega]
    exact .node _ hnode
  · rw [locOf_of_inWindow c ho hin.1 hin.2]
    split_ifs with hfit
    · exact .inWord ⟨hin.1, hin.2, hfit⟩
    · exact .reserved (by omega) (by omega) (by omega) (by omega) (by omega)
  · rw [locOf_of_outWindow c ho hout.1 hout.2]
    split_ifs with hfit
    · exact .outWord ⟨hout.1, hout.2, hfit⟩
    · exact .reserved (by omega) (by omega) (by omega) (by omega) (by omega)
  · rw [locOf_reserved c ho hres]
    exact .reserved (by omega) (by omega) (by omega) (by omega) (by omega)

/-- What holds of each control register with its offset holds of every control location. -/
theorem controlLoc_forall {P : Nat → Loc → Prop} (h : ∀ k : Fin 13, P (4 * k) (controlLoc (4 * k)))
    (haligned : o % 4 = 0) (ho : o < 0x034) : P o (controlLoc o) := by
  have hk := h ⟨o / 4, by omega⟩
  rwa [show 4 * (o / 4) = o by omega] at hk

end AddressMap

/-! ## The locations of W (R93), and those held while busy (R251) -/

section Sets

variable {c : Config} (hwf : c.wf = true) {off : Offset} {o : Nat} (ho : alignedOffset off = o)

/-- OUT has at most 2^20 bytes (R6). -/
theorem Config.outBytes_le (hwf : c.wf = true) : c.outBytes ≤ 2 ^ 20 := by
  simp only [Config.wf, Config.sizeOk, Bool.and_eq_true, decide_eq_true_eq] at hwf
  exact hwf.2.2

include hwf ho

/-- The offsets of W, the locations a command may write (R93). -/
theorem locOf_inW_iff :
    (locOf c off).inW = true ↔
      o = 0x018 ∨ o = 0x01C ∨ o = 0x020 ∨ o = 0x024 ∨ o = 0x028 ∨ (0x400 ≤ o ∧ o < 0xC00) ∨ (0x2000 ≤ o ∧ o < 0x4000) ∨
        (0x4000 ≤ o ∧ o < 0x6000 ∧ o % 16 ≠ 12) ∨ (0x200000 ≤ o ∧ o < 0x200000 + c.outBytes) := by
  have hmod := ho ▸ alignedOffset_mod off
  have hout := Config.outBytes_le hwf
  have hat := locAt_locOf c ho
  generalize locOf c off = l at hat ⊢
  cases hat
  case control hr =>
    rw [controlLoc_forall (P := fun o l => l.inW = true ↔ o = 0x018 ∨ o = 0x01C ∨ o = 0x020 ∨ o = 0x024 ∨ o = 0x028)
      (by decide) hmod hr]
    omega
  all_goals
    simp only [Loc.inW, decide_eq_true_eq, true_iff, Bool.false_eq_true, false_iff]
    omega

/-- The offsets whose writes are dropped while busy, SOFT_RESET's apart (R251). -/
theorem locOf_heldWhileBusy_iff :
    (locOf c off).heldWhileBusy = true ↔
      o = 0x010 ∨ o = 0x014 ∨ o = 0x01C ∨ o = 0x020 ∨ (0x400 ≤ o ∧ o < 0x800) ∨
        (0x100000 ≤ o ∧ o < 0x100000 + c.inBytes) := by
  have hmod := ho ▸ alignedOffset_mod off
  have hin := Config.inBytes_le hwf
  have hat := locAt_locOf c ho
  generalize locOf c off = l at hat ⊢
  cases hat
  case control hr =>
    rw [controlLoc_forall (P := fun o l => l.heldWhileBusy = true ↔ o = 0x010 ∨ o = 0x014 ∨ o = 0x01C ∨ o = 0x020)
      (by decide) hmod hr]
    omega
  all_goals
    simp only [Loc.heldWhileBusy, true_iff, Bool.false_eq_true, false_iff]
    omega

omit hwf in
/-- Only CTRL's and STATUS's own words take writes busy or not (R26, R28). -/
theorem locOf_takesNoWrite_of_not_held (hheld : (locOf c off).heldWhileBusy = false) (hctrl : o ≠ 0x008)
    (hstatus : o ≠ 0x00C) : (locOf c off).takesNoWrite = true := by
  have hmod := ho ▸ alignedOffset_mod off
  have hat := locAt_locOf c ho
  generalize locOf c off = l at hat hheld ⊢
  cases hat
  case control hr =>
    exact controlLoc_forall
      (P := fun o l => o ≠ 0x008 → o ≠ 0x00C → l.heldWhileBusy = false → l.takesNoWrite = true)
      (by decide) hmod hr hctrl hstatus hheld
  case freq | inWord => cases hheld
  all_goals rfl

end Sets

theorem controlLoc_ne_inWord (o i : Nat) : controlLoc o ≠ .inWord i := by
  unfold controlLoc
  split <;> exact Loc.noConfusion

/-- The word at a location of the IN window lies inside IN, which is a whole number of words (R6, R82). -/
theorem inWord_le {c : Config} (hwf : c.wf = true) {off : Offset} {i : Nat} (h : locOf c off = .inWord i) :
    i + 4 ≤ c.inBytes := by
  have hmod := alignedOffset_mod off
  have hwords : c.inBytes % 4 = 0 := by
    simp only [Config.wf, Config.sizeOk, Bool.and_eq_true, beq_iff_eq] at hwf
    exact hwf.1.1.1
  have hat := locAt_locOf c (rfl : alignedOffset off = _)
  rw [h] at hat
  generalize hl : Loc.inWord i = l at hat
  cases hat
  case control => exact absurd hl.symm (controlLoc_ne_inWord _ i)
  case inWord hr =>
    have hi := Loc.inWord.inj hl
    omega
  all_goals cases hl

/-- The fourth word of a slot is 0, whether the slot is valid or not (R39). -/
theorem Node.word_reserved (nd : Node) : nd.word 3 = 0#32 := by
  cases hvalid : nd.valid with
  | true => exact Node.word_three hvalid
  | false => exact Node.word_of_invalid hvalid 3

/-- Settles O46: while busy a read draws where the offset is in W, and reads what is there where it is not. -/
theorem busyReadsOfWAreDraws : Obligations.BusyReadsOfWAreDraws := by
  intro s off rest hwf hbusy o inW
  have hiff : (locOf s.cfg off).inW = true ↔ inW := locOf_inW_iff hwf rfl
  have hexact (hout : ¬ inW) : s.ReadsAs off (s.wordAt (locOf s.cfg off)) :=
    State.readsAs_wordAt rfl (.inr (Bool.eq_false_iff.mpr (mt hiff.mp hout)))
  refine ⟨fun hin => ?_, hexact, fun hlo hhi hword => ?_⟩
  · have hread : State.hostRead { s with inputs := rest } off = _ := if_pos (by simp [hbusy, hiff.mpr hin])
    rw [step_read, hread]
  · have hreads := hexact (by simp only [inW]; omega)
    have hloc := locOf_of_nodeWindow s.cfg (off := off) (o := o) rfl hlo hhi
    have hthree : (o - 0x4000) % 16 / 4 = 3 := by omega
    rw [hloc, hthree, State.wordAt, Node.word_reserved] at hreads
    exact hreads

/-- Settles O48: a held location's write is dropped, and so is a SOFT_RESET; what is neither held nor CTRL nor STATUS
takes no write at any time. -/
theorem writesWhileBusyAreDropped : Obligations.WritesWhileBusyAreDropped := by
  intro s off v hwf hbusy o held
  have hheld : held ↔ (locOf s.cfg off).heldWhileBusy = true ∨ (o = 0x008 ∧ v.getLsbD 1 = true) := by
    rw [locOf_heldWhileBusy_iff hwf (o := o) rfl]
    simp only [held, or_assoc]
  have hctrl (h : o = 0x008) : locOf s.cfg off = .ctrl := locOf_congr (off' := 0x008#22) h s.cfg
  have hstatus (h : o = 0x00C) : locOf s.cfg off = .status := locOf_congr (off' := 0x00C#22) h s.cfg
  refine ⟨fun h => ?_, fun ho hv => ?_, fun ho => ?_, fun hnot hc hst v' => ?_⟩
  · obtain hloc | ⟨ho, hv⟩ := hheld.mp h
    · exact State.writeLeaves_dropped rfl hbusy hloc
    · exact State.writeLeaves_softReset_dropped (hctrl ho) hv hbusy
  · exact State.writeLeaves_writeLoc (hctrl ho) (.inr hv) (.inr rfl)
  · simp only [← and_not_eq_ite]
    exact State.writeLeaves_writeLoc (hstatus ho) (.inl Loc.noConfusion) (.inr rfl)
  · have hfree := Bool.eq_false_iff.mpr fun h => hnot (hheld.mpr (.inl h))
    exact State.writeLeaves_of_takesNoWrite (locOf_takesNoWrite_of_not_held rfl hfree hc hst) v v'

/-! ## The buffer windows (R77, R82, R83) -/

section Windows

variable (c : Config) {j : Nat}

/-- The IN window at 0x100000 has a word for every four bytes of IN (R71, R82). -/
theorem locOf_inWindow (hj : 4 * j < 0x100000) :
    locOf c (offsetAt (0x100000 + 4 * j)) = if 4 * j < c.inBytes then .inWord (4 * j) else .reserved := by
  have hoff := alignedOffset_offsetAt (o := 0x100000 + 4 * j) (by omega) (by omega)
  rw [locOf_of_inWindow c hoff (by omega) (by omega), Nat.add_sub_cancel_left]

/-- The OUT window at 0x200000 has a word for every four bytes of OUT (R71, R83). -/
theorem locOf_outWindow (hj : 4 * j < 0x100000) :
    locOf c (offsetAt (0x200000 + 4 * j)) = if 4 * j < c.outBytes then .outWord (4 * j) else .reserved := by
  have hoff := alignedOffset_offsetAt (o := 0x200000 + 4 * j) (by omega) (by omega)
  rw [locOf_of_outWindow c hoff (by omega) (by omega), Nat.add_sub_cancel_left]

end Windows

/-- Byte `k` of a word written to a buffer is bits 8k+7 to 8k of it (R77). -/
theorem Memory.read_writeWord_inside (m : Memory) (i : Nat) (v : Word) {k : Nat} (hk : k < 4) :
    (m.writeWord i v).read (i + k) = byteOfWord v k := by
  rw [Memory.writeWord, Memory.read_writeBytes_inside _ _ _ hk]
  obtain rfl | rfl | rfl | rfl : k = 0 ∨ k = 1 ∨ k = 2 ∨ k = 3 := by omega
  all_goals rfl

theorem Memory.read_writeWord_outside (m : Memory) (i : Nat) (v : Word) {j : Nat} (h : j < i ∨ i + 4 ≤ j) :
    (m.writeWord i v).read j = m.read j :=
  Memory.read_writeBytes_outside m i _ h

/-- Settles O44: the window's location is an IN word, or reserved from IN_BYTES on. -/
theorem inWindowMovesFourBytes : Obligations.InWindowMovesFourBytes := by
  intro s j _ hj
  have hloc := locOf_inWindow s.cfg hj
  refine ⟨fun hin => ?_, fun hout => ?_⟩
  · rw [if_pos hin] at hloc
    refine ⟨State.readsAs_wordAt hloc (.inr rfl), fun v hidle => ⟨s.inBuf.writeWord (4 * j) v, ?_, ?_, ?_⟩,
      fun v hbusy => State.writeLeaves_dropped hloc hbusy rfl⟩
    · exact State.writeLeaves_writeLoc hloc (.inl Loc.noConfusion) (.inl hidle)
    · exact fun k hk => Memory.read_writeWord_inside _ _ _ hk
    · exact fun i hi => Memory.read_writeWord_outside _ _ _ hi
  · rw [if_neg (Nat.not_lt.mpr hout)] at hloc
    exact ⟨State.readsAs_wordAt hloc (.inr rfl), fun v => State.writeLeaves_ignored hloc Loc.noConfusion rfl rfl⟩

/-- Settles O45: the window's location is an OUT word, or reserved from OUT_BYTES on, and neither takes a write. -/
theorem outWindowReadsFourBytes : Obligations.OutWindowReadsFourBytes := by
  intro s j _ hj
  have hloc := locOf_outWindow s.cfg hj
  refine ⟨fun hin hidle => ?_, fun hout => ?_, fun v => State.writeLeaves_of_takesNoWrite ?_ v⟩
  · rw [if_pos hin] at hloc
    exact State.readsAs_wordAt hloc (.inl hidle)
  · rw [if_neg (Nat.not_lt.mpr hout)] at hloc
    exact State.readsAs_wordAt hloc (.inr rfl)
  · rw [hloc]
    split <;> rfl

/-! ## The registers (R27 to R34) -/

@[simp] theorem locOf_inLen (c : Config) : locOf c 0x014#22 = .inLen := rfl
@[simp] theorem locOf_outLen (c : Config) : locOf c 0x018#22 = .outLen := rfl
@[simp] theorem locOf_bitLenLo (c : Config) : locOf c 0x01C#22 = .bitLenLo := rfl
@[simp] theorem locOf_bitLenHi (c : Config) : locOf c 0x020#22 = .bitLenHi := rfl
@[simp] theorem locOf_symCount (c : Config) : locOf c 0x024#22 = .symCount := rfl
@[simp] theorem locOf_root (c : Config) : locOf c 0x028#22 = .root := rfl

/-- The fields of the STATUS word (R27). -/
theorem Status.word_fields (st : Status) :
    st.word.getLsbD 0 = st.busy ∧ st.word.getLsbD 1 = st.done ∧ st.word.getLsbD 2 = st.err ∧
      st.word.getLsbD 3 = st.trunc ∧ st.word.getLsbD 4 = st.treeValid ∧ st.word.getLsbD 5 = st.codesValid ∧
      st.word.getLsbD 6 = st.haz ∧ st.word.getLsbD 7 = false ∧ st.word.extractLsb' 8 8 = st.errCode ∧
      st.word.extractLsb' 16 16 = 0#16 := by
  refine ⟨?_, ?_, ?_, ?_, ?_, ?_, ?_, ?_, ?_, ?_⟩
  case refine_9 =>
    rw [Status.word]
    iterate 8 rw [BitVec.extractLsb'_append_eq_of_le (by decide)]
    rw [BitVec.extractLsb'_append_eq_of_add_le (by decide), BitVec.extractLsb'_eq_self]
  case refine_10 =>
    rw [Status.word]
    iterate 9 rw [BitVec.extractLsb'_append_eq_of_le (by decide)]
    exact BitVec.extractLsb'_eq_self
  all_goals
    simp only [Status.word, BitVec.getLsbD_append, BitVec.getLsbD_ofBool]
    simp

/-- Settles O39: STATUS and IN_LEN are not in W; the other registers are read while idle. -/
theorem registersReadAsTheyStand : Obligations.RegistersReadAsTheyStand := by
  intro s
  refine ⟨⟨s.status.word, State.readsAs_wordAt (locOf_status _) (.inr rfl), s.status.word_fields⟩,
    State.readsAs_wordAt (locOf_inLen _) (.inr rfl), fun hidle => ?_⟩
  simp only [BitVec.ofNat_toNat]
  exact ⟨State.readsAs_wordAt (locOf_outLen _) (.inl hidle), State.readsAs_wordAt (locOf_bitLenLo _) (.inl hidle),
    State.readsAs_wordAt (locOf_bitLenHi _) (.inl hidle), State.readsAs_wordAt (locOf_symCount _) (.inl hidle),
    State.readsAs_wordAt (locOf_root _) (.inl hidle)⟩

theorem extractLsb'_append_high (hi lo : Word) : (hi ++ lo).extractLsb' 32 32 = hi := by
  rw [BitVec.extractLsb'_append_eq_of_le (by decide), BitVec.extractLsb'_eq_self]

theorem extractLsb'_append_low (hi lo : Word) : (hi ++ lo).extractLsb' 0 32 = lo := by
  rw [BitVec.extractLsb'_append_eq_of_add_le (by decide), BitVec.extractLsb'_eq_self]

/-- Settles O40: BIT_LEN is two words, of which the write replaces one. -/
theorem lengthWritesReplaceTheirWord : Obligations.LengthWritesReplaceTheirWord := by
  intro s v hidle
  refine ⟨State.writeLeaves_writeLoc (locOf_inLen _) (.inl Loc.noConfusion) (.inl hidle),
    ⟨bitLenWithLo s.bitLen v, ?_, extractLsb'_append_low _ _, extractLsb'_append_high _ _⟩,
    ⟨bitLenWithHi s.bitLen v, ?_, extractLsb'_append_high _ _, extractLsb'_append_low _ _⟩⟩
  · exact State.writeLeaves_writeLoc (locOf_bitLenLo _) (.inl Loc.noConfusion) (.inl hidle)
  · exact State.writeLeaves_writeLoc (locOf_bitLenHi _) (.inl Loc.noConfusion) (.inl hidle)

/-! ## RESET (R245 to R248) -/

theorem Memory.isDrawn_drawn (d : Nat) : (Memory.drawn d).IsDrawn d := Memory.read_drawn d

/-- Settles O33: RESET is the power-on state, whose registers are the ones stated and whose buffers are the next two
draws. -/
theorem resetDiscardsTheCommand : Obligations.ResetDiscardsTheCommand :=
  fun s _ => ⟨_, _, rfl, Memory.isDrawn_drawn s.draws, Memory.isDrawn_drawn (s.draws + 1)⟩

end Sys2Proof.Machine
end

section
/-! PROOFS. What a step can do, said once, and which properties of the state the bodies of the commands keep; then the
invariants of the tree, the codes and the stores (spec/10_state.md R20, R34, R39, R42, R45), and that no step stops the
machine (spec/60_exceptions.md R220). -/

namespace Sys2Proof.Machine

/-! ## What a step can do (R72, R104, R120, R245) -/

/-- What becomes of a state in one step, the event that happens in it taken off. -/
inductive Transition (s : State) : State → Prop
  | idle (hidle : s.status.busy = false) : Transition s s
  | core {t : State} (hbusy : s.status.busy = true) (hstep : coreStep s = .next t) : Transition s t
  | read (off : Offset) : Transition s (s.hostRead off)
  | dropped (hbusy : s.status.busy = true) : Transition s s.dropped
  | write (off : Offset) (v : Word) (hplain : locOf s.cfg off ≠ .ctrl ∨ v.getLsbD 1 = false)
      (hfree : s.status.busy = false ∨ (locOf s.cfg off).heldWhileBusy = false) :
      Transition s (s.writeLoc v (locOf s.cfg off))
  | softReset (hidle : s.status.busy = false) : Transition s s.softReset
  | powerOn : Transition s s.powerOn

/-- A HOST read changes the model's record of it, and the count of draws, alone (R85, R93). -/
theorem State.hostRead_frame (s : State) (off : Offset) :
    ∃ r d, s.hostRead off = { s with readData := r, draws := d } := by
  obtain ⟨-, -, hread⟩ | ⟨-, hread⟩ := s.hostRead_cases off <;> exact ⟨_, _, hread⟩

theorem coreTurn_transition {s t : State} (h : coreTurn s = .next t) : Transition s t := by
  cases hbusy : s.status.busy with
  | true => exact .core hbusy ((if_pos hbusy).symm.trans h)
  | false =>
    cases (coreTurn_of_idle hbusy).symm.trans h
    exact .idle hbusy

theorem hostWrite_transition {s t : State} {off : Offset} {v : Word} (h : hostWrite off v s = .next t) :
    Transition s t := by
  obtain ⟨-, -, hexec⟩ | ⟨hplain, hwrite⟩ := hostWrite_cases off v s
  · cases hbusy : s.status.busy with
    | true =>
      cases (hexec.trans (exec_softReset_of_busy hbusy v)).symm.trans h
      exact .dropped hbusy
    | false =>
      cases (hexec.trans (exec_softReset_of_idle hbusy v)).symm.trans h
      exact .softReset hbusy
  · cases hwrite.symm.trans h
    obtain ⟨hbusy, -, hdrop⟩ | ⟨hfree, hdone⟩ := State.plainWrite_cases s off v
    · rw [hdrop]
      exact .dropped hbusy
    · rw [hdone]
      exact .write off v hplain hfree

theorem handle_transition {s t : State} {e : Event} (h : handle e s = .next t) : Transition s t := by
  cases e with
  | read off => cases h; exact .read off
  | write off v => exact hostWrite_transition h
  | core => exact coreTurn_transition h
  | reset => cases h; exact .powerOn

/-- A step that answers a next state takes the next event off, if there is one, and is one of the transitions. -/
theorem step_transition {s t : State} (h : step s = .next t) : Transition { s with inputs := s.inputs.tail } t := by
  cases hinputs : s.inputs with
  | nil =>
    have hsame : { s with inputs := [].tail } = s := by rw [List.tail_nil, ← hinputs]
    rw [step_nil s hinputs] at h
    rw [hsame]
    exact coreTurn_transition h
  | cons e rest =>
    rw [step_cons s e rest hinputs] at h
    exact handle_transition h

/-- Nothing but the step itself takes events off. -/
theorem Transition.inputs_eq {s t : State} (h : Transition s t) : t.inputs = s.inputs := by
  cases h with
  | idle | dropped | softReset | powerOn => rfl
  | core hbusy hstep =>
    obtain ⟨-, -, hframe⟩ := coreStep_next hstep
    exact hframe.inputs
  | read off =>
    obtain ⟨r, d, hread⟩ := s.hostRead_frame off
    rw [hread]
  | write off v => cases locOf s.cfg off <;> rfl

/-! ## What the bodies keep -/

theorem Phase.Ends.andThen {P : State → Prop} {p : Phase} {f : State → Phase} (hp : p.Ends P)
    (hf : ∀ t, P t → (f t).Ends P) : (p.andThen f).Ends P := by
  cases p with
  | done t => exact hf t hp
  | error c t => exact hp
  | endless => trivial

theorem Phase.Ends.and {P Q : State → Prop} {p : Phase} (hP : p.Ends P) (hQ : p.Ends Q) :
    p.Ends fun t => P t ∧ Q t := by
  cases p with
  | done t => exact ⟨hP, hQ⟩
  | error c t => exact ⟨hP, hQ⟩
  | endless => trivial

/-- Every body a command is made of keeps `P`. -/
structure BodiesKeep (P : State → Prop) : Prop where
  clearFreq : ∀ s, P s → P { s with freq := freqZero, status := s.status.freqChanged }
  count : ∀ s, P s → (countBody s).Ends P
  buildTree : ∀ s, P s → (buildTreeBody s).Ends P
  genCodes : ∀ s, P s → (genCodesBody s).Ends P
  encode : ∀ s, P s → (encodeBody s).Ends P
  decode : ∀ s, P s → (decodeBody s).Ends P

section BodiesKeep

variable {P Q : State → Prop} {s t : State}

/-- Every command is a phase that ends, if it ends, in a state with what every body keeps. -/
theorem BodiesKeep.exec_eq_finish (hkeep : BodiesKeep P) {w : Word} {i : Instr} (h : decodeCmd w = .ok i) (hs : P s) :
    ∃ p, exec i s = Phase.finish p ∧ p.Ends P := by
  have hbuilt := (hkeep.count s hs).andThen hkeep.buildTree
  cases i with
  | nop => exact ⟨.done s, rfl, hs⟩
  | clearFreq => exact ⟨.done _, rfl, hkeep.clearFreq s hs⟩
  | count => exact ⟨_, rfl, hkeep.count s hs⟩
  | buildTree => exact ⟨_, rfl, hkeep.buildTree s hs⟩
  | genCodes => exact ⟨_, rfl, hkeep.genCodes s hs⟩
  | encode => exact ⟨_, rfl, hkeep.encode s hs⟩
  | decode => exact ⟨_, rfl, hkeep.decode s hs⟩
  | compress => exact ⟨_, rfl, (hbuilt.andThen hkeep.genCodes).andThen hkeep.encode⟩
  | decompress => exact ⟨_, rfl, (hkeep.buildTree s hs).andThen hkeep.decode⟩
  | softReset v => exact absurd h (decodeCmd_ne_softReset w v)

/-- What the bodies keep, the end of the command makes into what the CORE step leaves (R215, R216). -/
theorem BodiesKeep.coreStep (hkeep : BodiesKeep P) (hdone : ∀ u, P u → Q u.complete)
    (herror : ∀ u c, P u → Q (u.raise c)) (hs : P s) (h : coreStep s = .next t) : Q t := by
  obtain ⟨i, hi, hexec⟩ | ⟨-, hillegal⟩ := coreStep_cases s
  · obtain ⟨p, hp, hends⟩ := hkeep.exec_eq_finish hi hs
    obtain ⟨u, rfl, rfl⟩ | ⟨c, u, rfl, rfl⟩ := Phase.finish_next ((hexec.trans hp).symm.trans h)
    · exact hdone u hends
    · exact herror u c hends
  · cases hillegal.symm.trans h
    exact herror s _ hs

end BodiesKeep

/-! ## The tree is FREQ's (R45) -/

theorem State.treeOk_of_invalid {s : State} (h : s.status.treeValid = false) : s.treeOk :=
  fun hvalid => absurd (h.symm.trans hvalid) (by decide)

theorem bodiesKeep_treeOk : BodiesKeep State.treeOk where
  clearFreq s _ := State.treeOk_of_invalid rfl
  count s hs := by
    obtain ⟨-, h⟩ | ⟨-, h⟩ := countBody_cases s <;> rw [h]
    · exact hs
    · exact State.treeOk_of_invalid rfl
  buildTree s _ := fun _ => rfl
  genCodes s hs := by
    obtain ⟨-, h⟩ | ⟨-, -, h⟩ | ⟨t, -, -, h⟩ := genCodesBody_cases s <;> rw [h]
    · exact hs
    · trivial
    · exact hs
  encode s hs := by
    obtain ⟨-, h⟩ | ⟨-, -, h⟩ | ⟨-, -, ⟨e, -, h⟩ | ⟨bits, -, h⟩⟩ := encodeBody_cases s <;> rw [h] <;> exact hs
  decode s hs := by
    obtain ⟨e, -, h⟩ | ⟨-, -, h⟩ | ⟨-, -, -, ⟨e, -, h⟩ | ⟨d, -, h⟩⟩ := decodeBody_cases s <;> rw [h] <;> exact hs

theorem Transition.treeOk {s t : State} (h : Transition s t) (hs : s.treeOk) : t.treeOk := by
  cases h with
  | idle | dropped => exact hs
  | core hbusy hstep => exact bodiesKeep_treeOk.coreStep (fun _ hu => hu) (fun _ _ hu => hu) hs hstep
  | read off =>
    obtain ⟨r, d, hread⟩ := s.hostRead_frame off
    rw [hread]
    exact hs
  | write off v =>
    cases locOf s.cfg off with
    | freq b => exact State.treeOk_of_invalid rfl
    | _ => exact hs
  | softReset | powerOn => exact State.treeOk_of_invalid rfl

/-! ## No command runs for ever (R120) -/

theorem Phase.finish_isNext {p : Phase} (h : p ≠ .endless) : ∃ t, p.finish = .next t := by
  cases p with
  | done s => exact ⟨_, rfl⟩
  | error c s => exact ⟨_, rfl⟩
  | endless => exact absurd rfl h

theorem Phase.andThen_ne_endless {p : Phase} {f : State → Phase} (hp : p ≠ .endless)
    (hf : ∀ s, p = .done s → f s ≠ .endless) : p.andThen f ≠ .endless := by
  obtain ⟨s, hdone, heq⟩ | ⟨-, heq⟩ := Phase.andThen_cases p f <;> rw [heq]
  · exact hf s hdone
  · exact hp

theorem countBody_ne_endless (s : State) : countBody s ≠ .endless := by
  obtain ⟨-, h⟩ | ⟨-, h⟩ := countBody_cases s <;> rw [h] <;> exact Phase.noConfusion

theorem buildTreeBody_ne_endless (s : State) : buildTreeBody s ≠ .endless := Phase.noConfusion

/-- The tree of a frequency table always has codes, so the walk ends (R150). -/
theorem genCodesBody_ne_endless {s : State} (hs : s.treeOk) : genCodesBody s ≠ .endless := by
  obtain ⟨-, h⟩ | ⟨hvalid, hnone, -⟩ | ⟨t, -, -, h⟩ := genCodesBody_cases s
  · rw [h]; exact Phase.noConfusion
  · obtain ⟨t, hcodes, _⟩ := codesOf_treeOf s.freq
    rw [hs hvalid, hcodes] at hnone
    cases hnone
  · rw [h]; exact Phase.noConfusion

theorem encodeBody_ne_endless (s : State) : encodeBody s ≠ .endless := by
  obtain ⟨-, h⟩ | ⟨-, -, h⟩ | ⟨-, -, ⟨e, -, h⟩ | ⟨bits, -, h⟩⟩ := encodeBody_cases s <;> rw [h] <;>
    exact Phase.noConfusion

theorem decodeBody_ne_endless (s : State) : decodeBody s ≠ .endless := by
  obtain ⟨e, -, h⟩ | ⟨-, -, h⟩ | ⟨-, -, -, ⟨e, -, h⟩ | ⟨d, -, h⟩⟩ := decodeBody_cases s <;> rw [h] <;>
    exact Phase.noConfusion

/-- COMPRESS walks the tree it has just built, so its walk ends (R205). -/
theorem compress_ne_endless (s : State) :
    (((countBody s).andThen buildTreeBody).andThen genCodesBody).andThen encodeBody ≠ .endless := by
  have hbuilt := Phase.andThen_ne_endless (countBody_ne_endless s) fun u _ => buildTreeBody_ne_endless u
  refine Phase.andThen_ne_endless (Phase.andThen_ne_endless hbuilt fun u hu => ?_) fun u _ => encodeBody_ne_endless u
  obtain ⟨-, h⟩ | ⟨-, h⟩ := countBody_cases s <;> rw [h] at hu <;> cases hu
  exact genCodesBody_ne_endless fun _ => rfl

theorem exec_isNext {w : Word} {i : Instr} (h : decodeCmd w = .ok i) {s : State} (hs : s.treeOk) :
    ∃ t, exec i s = .next t := by
  cases i with
  | nop => exact ⟨_, rfl⟩
  | clearFreq => exact ⟨_, rfl⟩
  | count => exact Phase.finish_isNext (countBody_ne_endless s)
  | buildTree => exact ⟨_, rfl⟩
  | genCodes => exact Phase.finish_isNext (genCodesBody_ne_endless hs)
  | encode => exact Phase.finish_isNext (encodeBody_ne_endless s)
  | decode => exact Phase.finish_isNext (decodeBody_ne_endless s)
  | compress => exact Phase.finish_isNext (compress_ne_endless s)
  | decompress =>
    exact Phase.finish_isNext
      (Phase.andThen_ne_endless (buildTreeBody_ne_endless s) fun u _ => decodeBody_ne_endless u)
  | softReset v => exact absurd h (decodeCmd_ne_softReset w v)

theorem coreStep_isNext {s : State} (hs : s.treeOk) : ∃ t, coreStep s = .next t := by
  obtain ⟨i, hi, h⟩ | ⟨-, h⟩ := coreStep_cases s <;> rw [h]
  · exact exec_isNext hi hs
  · exact ⟨_, rfl⟩

theorem coreTurn_isNext {s : State} (hs : s.treeOk) : ∃ t, coreTurn s = .next t := by
  rw [coreTurn]
  split
  · exact coreStep_isNext hs
  · exact ⟨_, rfl⟩

theorem step_isNext {s : State} (hs : s.treeOk) : ∃ t, step s = .next t := by
  cases hinputs : s.inputs with
  | nil => rw [step_nil s hinputs]; exact coreTurn_isNext hs
  | cons e rest =>
    rw [step_cons s e rest hinputs]
    cases e with
    | read off => exact ⟨_, rfl⟩
    | write off v => exact hostWrite_isNext off v _
    | core => exact coreTurn_isNext (s := { s with inputs := rest }) hs
    | reset => exact ⟨_, rfl⟩

/-- Settles O58: every transition keeps a valid tree FREQ's, and on such a tree the walk of GEN_CODES ends. -/
theorem machineNeverStops : Obligations.MachineNeverStops := by
  intro s hs
  obtain ⟨t, ht⟩ := step_isNext hs
  exact ⟨t, ht, (step_transition ht).treeOk hs⟩

/-! ## The codes are the tree's (R45) -/

theorem State.codesOk_of_invalid {s : State} (h : s.status.codesValid = false) : s.codesOk :=
  fun hvalid => absurd (h.symm.trans hvalid) (by decide)

theorem bodiesKeep_codesOk : BodiesKeep State.codesOk where
  clearFreq s _ := State.codesOk_of_invalid rfl
  count s hs := by
    obtain ⟨-, h⟩ | ⟨-, h⟩ := countBody_cases s <;> rw [h]
    · exact hs
    · exact State.codesOk_of_invalid rfl
  buildTree s _ := State.codesOk_of_invalid rfl
  genCodes s hs := by
    obtain ⟨-, h⟩ | ⟨-, -, h⟩ | ⟨t, -, hcodes, h⟩ := genCodesBody_cases s <;> rw [h]
    · exact hs
    · trivial
    · exact fun _ => hcodes
  encode s hs := by
    obtain ⟨-, h⟩ | ⟨-, -, h⟩ | ⟨-, -, ⟨e, -, h⟩ | ⟨bits, -, h⟩⟩ := encodeBody_cases s <;> rw [h] <;> exact hs
  decode s hs := by
    obtain ⟨e, -, h⟩ | ⟨-, -, h⟩ | ⟨-, -, -, ⟨e, -, h⟩ | ⟨d, -, h⟩⟩ := decodeBody_cases s <;> rw [h] <;> exact hs

theorem Transition.codesOk {s t : State} (h : Transition s t) (hs : s.codesOk) : t.codesOk := by
  cases h with
  | idle | dropped => exact hs
  | core hbusy hstep => exact bodiesKeep_codesOk.coreStep (fun _ hu => hu) (fun _ _ hu => hu) hs hstep
  | read off =>
    obtain ⟨r, d, hread⟩ := s.hostRead_frame off
    rw [hread]
    exact hs
  | write off v =>
    cases locOf s.cfg off with
    | freq b => exact State.codesOk_of_invalid rfl
    | _ => exact hs
  | softReset | powerOn => exact State.codesOk_of_invalid rfl

/-- Settles O56: what changes FREQ or the tree clears the flags that would no longer tell the truth, and what sets a
flag has made what it stands for. -/
theorem stepKeepsTreeAndCodesMeaning : Obligations.StepKeepsTreeAndCodesMeaning := by
  intro s t htree hcodes h
  exact ⟨(step_transition h).treeOk htree, (step_transition h).codesOk hcodes⟩

/-! ## The shape of the stores (R20, R34, R39, R42) -/

/-- A code of a tree of 256 leaves has at most 255 bits, so bit 255 of its entry is 0 (R42, R129). -/
theorem codeBits_bit_255 {f : SymTable Word} {t : CodeTable} (hcodes : codesOf (treeOf f) = some t) (b : Byte) :
    (SymTable.at t.bits b).getLsbD 255 = false := by
  have hcount := treeOf_symCount_toNat f
  obtain ⟨t', ht', habsent⟩ := codesOf_treeOf f
  obtain rfl := Option.some.inj (ht'.symm.trans hcodes)
  by_cases hb : SymTable.at f b = 0#32
  · rw [(habsent b hb).2, BitVec.getLsbD_zero]
  obtain hlow | hn : presentCount f ≤ 1 ∨ 2 ≤ presentCount f := by omega
  · have hone : presentCount f = 1 :=
      le_antisymm hlow (List.length_pos_of_mem (mem_presentSymbols.mpr hb))
    obtain rfl := Option.some.inj ((codesOf_of_one_leaf (by omega)).symm.trans hcodes)
    rw [CodeTable.at_enter_bits, CodeTable.at_empty_bits, ite_self, BitVec.getLsbD_zero]
  · obtain ⟨t', leaves, ht', hleaves⟩ := exists_leafCodes hn
    obtain rfl := Option.some.inj (ht'.symm.trans hcodes)
    have hlen := (SymTable.at t'.len b).isLt
    exact Nat.testBit_lt_two_pow ((hleaves.codeBits_lt hb).trans_le (Nat.pow_le_pow_right two_pos (by omega)))

theorem State.storeOk_setTree {s : State} (hs : s.storeOk) : (s.setTree (treeOf s.freq)).storeOk := by
  obtain ⟨-, hbits, -, -⟩ := hs
  have hn := presentCount_le s.freq
  refine ⟨treeOf_unused (by omega), hbits, ?_, ?_⟩
  · rw [State.setTree_symCount, treeOf_symCount_toNat]
    exact hn
  · rw [State.setTree_symCount, treeOf_symCount_toNat, State.setTree_root, treeOf_root]

theorem State.storeOk_softReset (s : State) : s.softReset.storeOk := by
  refine ⟨NodeStore.at_empty 511, fun b => ?_, Nat.zero_le _, rfl⟩
  rw [State.softReset_codeBits]
  exact (congrArg (BitVec.getLsbD · 255) (SymTable.at_replicate 0#256 b)).trans BitVec.getLsbD_zero

theorem bodiesKeep_storeOk : BodiesKeep fun s => s.treeOk ∧ s.storeOk where
  clearFreq s := fun ⟨htree, hs⟩ => ⟨bodiesKeep_treeOk.clearFreq s htree, hs⟩
  count s := fun ⟨htree, hs⟩ => (bodiesKeep_treeOk.count s htree).and <| by
    obtain ⟨-, h⟩ | ⟨-, h⟩ := countBody_cases s <;> rw [h] <;> exact hs
  buildTree s := fun ⟨htree, hs⟩ => (bodiesKeep_treeOk.buildTree s htree).and (State.storeOk_setTree hs)
  genCodes s := fun ⟨htree, hs⟩ => (bodiesKeep_treeOk.genCodes s htree).and <| by
    obtain ⟨-, h⟩ | ⟨-, -, h⟩ | ⟨t, hvalid, hcodes, h⟩ := genCodesBody_cases s <;> rw [h]
    · exact hs
    · trivial
    · obtain ⟨hnode, -, hcount, hroot⟩ := hs
      rw [htree hvalid] at hcodes
      exact ⟨hnode, codeBits_bit_255 hcodes, hcount, hroot⟩
  encode s := fun ⟨htree, hs⟩ => (bodiesKeep_treeOk.encode s htree).and <| by
    obtain ⟨-, h⟩ | ⟨-, -, h⟩ | ⟨-, -, ⟨e, -, h⟩ | ⟨bits, -, h⟩⟩ := encodeBody_cases s <;> rw [h] <;> exact hs
  decode s := fun ⟨htree, hs⟩ => (bodiesKeep_treeOk.decode s htree).and <| by
    obtain ⟨e, -, h⟩ | ⟨-, -, h⟩ | ⟨-, -, -, ⟨e, -, h⟩ | ⟨d, -, h⟩⟩ := decodeBody_cases s <;> rw [h] <;> exact hs

theorem Transition.storeOk {s t : State} (h : Transition s t) (htree : s.treeOk) (hs : s.storeOk) : t.storeOk := by
  cases h with
  | idle | dropped => exact hs
  | core hbusy hstep =>
    exact bodiesKeep_storeOk.coreStep (Q := State.storeOk) (fun _ hu => hu.2) (fun _ _ hu => hu.2) ⟨htree, hs⟩ hstep
  | read off =>
    obtain ⟨r, d, hread⟩ := s.hostRead_frame off
    rw [hread]
    exact hs
  | write off v => cases locOf s.cfg off <;> exact hs
  | softReset | powerOn => exact s.storeOk_softReset

/-- Settles O57: BUILD_TREE uses slots up to 2n-2 alone, and its codes, which GEN_CODES stores, have at most 255 bits.
-/
theorem stepKeepsTheStoresShape : Obligations.StepKeepsTheStoresShape := by
  intro s t htree hs h
  exact (step_transition h).storeOk htree hs

end Sys2Proof.Machine
end

section
/-! PROOFS. The invariants of the buffers (logs 2, 4, 7) and of STATUS (spec/10_state.md R45, R46, spec/60_exceptions.md
R217), and that reset meets the invariants. -/

namespace Sys2Proof.Machine

/-! ## The buffers (logs 2, 4, 7) -/

theorem State.buffersOk_iff {s : State} :
    s.buffersOk = true ↔ s.cfg.wf = true ∧ s.inBuf.wf s.cfg.inBytes = true ∧ s.outBuf.wf s.cfg.outBytes = true := by
  simp [State.buffersOk, and_assoc]

theorem State.drawsOk_iff {s : State} :
    s.drawsOk = true ↔ s.inBuf.draw < s.draws ∧ s.outBuf.draw < s.draws ∧ s.inBuf.draw ≠ s.outBuf.draw := by
  simp [State.drawsOk, and_assoc]

/-- What the whole of the machine keeps of the buffers: with the parameters `c`, both in canonical form, and their draws
made and distinct. -/
structure BuffersKept (c : Config) (s : State) : Prop where
  cfg : s.cfg = c
  buffers : s.buffersOk = true
  draws : s.drawsOk = true

section Buffers

variable {c : Config} {s : State}

/-- After a stream error OUT shows a draw that is newer than IN's (R219). -/
theorem BuffersKept.loseOut (hs : BuffersKept c s) : BuffersKept c s.loseOut where
  cfg := hs.cfg
  buffers := by
    obtain ⟨hwf, hin, -⟩ := State.buffersOk_iff.mp hs.buffers
    exact State.buffersOk_iff.mpr ⟨hwf, hin, Memory.wf_drawn _ _⟩
  draws := by
    obtain ⟨hin, -, -⟩ := State.drawsOk_iff.mp hs.draws
    exact State.drawsOk_iff.mpr ⟨Nat.lt_succ_of_lt hin, Nat.lt_succ_self _, hin.ne⟩

/-- Bytes stored in OUT from its start on keep it canonical, where they fit. -/
theorem BuffersKept.storeOut (hs : BuffersKept c s) {bs : List Byte} (hfit : bs.length ≤ s.cfg.outBytes) :
    BuffersKept c { s with outBuf := s.outBuf.writeBytes 0 bs } where
  cfg := hs.cfg
  buffers := by
    obtain ⟨hwf, hin, hout⟩ := State.buffersOk_iff.mp hs.buffers
    exact State.buffersOk_iff.mpr ⟨hwf, hin, Memory.wf_writeBytes bs (by rwa [Nat.zero_add]) hout⟩
  draws := by
    have hdraws := State.drawsOk_iff.mp hs.draws
    rw [← Memory.writeBytes_draw s.outBuf 0 bs] at hdraws
    exact State.drawsOk_iff.mpr hdraws

/-- What does not touch the buffers, their draws and the parameters keeps all of this. -/
theorem BuffersKept.congr {t : State} (hs : BuffersKept c s) (hcfg : t.cfg = s.cfg) (hin : t.inBuf = s.inBuf)
    (hout : t.outBuf = s.outBuf) (hdraws : t.draws = s.draws) : BuffersKept c t where
  cfg := hcfg.trans hs.cfg
  buffers := by rw [State.buffersOk, hcfg, hin, hout]; exact hs.buffers
  draws := by rw [State.drawsOk, hin, hout, hdraws]; exact hs.draws

end Buffers

/-- A stream the packer loop ends with fits in OUT, the empty one too (R168). -/
theorem emitCodes_fits {t : CodeTable} {size : Nat} {bs : List Byte} {bits : List Bool}
    (h : emitCodes t size bs 0 = .ok bits) : ceil8 bits.length ≤ size := by
  obtain ⟨-, hbits, hfit⟩ := emitCodes_ok h
  by_cases hbs : bs = []
  · subst hbs hbits
    simp [ceil8]
  · simpa using hfit hbs

theorem bodiesKeep_buffers (c : Config) : BodiesKeep (BuffersKept c) where
  clearFreq s hs := hs.congr rfl rfl rfl rfl
  count s hs := by
    obtain ⟨-, h⟩ | ⟨-, h⟩ := countBody_cases s <;> rw [h] <;> exact hs.congr rfl rfl rfl rfl
  buildTree s hs := hs.congr rfl rfl rfl rfl
  genCodes s hs := by
    obtain ⟨-, h⟩ | ⟨-, -, h⟩ | ⟨t, -, -, h⟩ := genCodesBody_cases s <;> rw [h]
    · exact hs
    · trivial
    · exact hs.congr rfl rfl rfl rfl
  encode s hs := by
    obtain ⟨-, h⟩ | ⟨-, -, h⟩ | ⟨-, -, ⟨e, -, h⟩ | ⟨bits, hemit, h⟩⟩ := encodeBody_cases s <;> rw [h]
    · exact hs
    · exact hs
    · exact hs.loseOut.congr rfl rfl rfl rfl
    · exact (hs.storeOut ((packBytes_length bits).trans_le (emitCodes_fits hemit))).congr rfl rfl rfl rfl
  decode s hs := by
    obtain ⟨e, -, h⟩ | ⟨-, -, h⟩ | ⟨-, -, -, ⟨e, -, h⟩ | ⟨d, hloop, h⟩⟩ := decodeBody_cases s <;> rw [h]
    · exact hs
    · exact hs.congr rfl rfl rfl rfl
    · exact hs.loseOut.congr rfl rfl rfl rfl
    · have hfit := decodeBits_ok (Nat.zero_le _) hloop
      rw [Nat.zero_add] at hfit
      exact (hs.storeOut hfit).congr rfl rfl rfl rfl

section Transitions

variable {c : Config} {s t : State}

/-- A word written to IN keeps it canonical. -/
theorem BuffersKept.writeIn (hs : BuffersKept c s) {i : Nat} (hi : i + 4 ≤ s.cfg.inBytes) (v : Word) :
    BuffersKept c { s with inBuf := s.inBuf.writeWord i v } where
  cfg := hs.cfg
  buffers := by
    obtain ⟨hwf, hin, hout⟩ := State.buffersOk_iff.mp hs.buffers
    exact State.buffersOk_iff.mpr ⟨hwf, Memory.wf_writeWord v hi hin, hout⟩
  draws := by
    have hdraws := State.drawsOk_iff.mp hs.draws
    rw [← Memory.writeBytes_draw s.inBuf i] at hdraws
    exact State.drawsOk_iff.mpr hdraws

/-- A read while busy uses up a draw that no buffer shows (R93). -/
theorem BuffersKept.hostRead (hs : BuffersKept c s) (off : Offset) : BuffersKept c (s.hostRead off) := by
  obtain ⟨-, -, hread⟩ | ⟨-, hread⟩ := s.hostRead_cases off <;> rw [hread]
  · obtain ⟨hin, hout, hne⟩ := State.drawsOk_iff.mp hs.draws
    exact ⟨hs.cfg, hs.buffers, State.drawsOk_iff.mpr ⟨Nat.lt_succ_of_lt hin, Nat.lt_succ_of_lt hout, hne⟩⟩
  · exact hs.congr rfl rfl rfl rfl

/-- RESET gives the buffers two new draws (R248). -/
theorem BuffersKept.powerOn (hs : BuffersKept c s) : BuffersKept c s.powerOn where
  cfg := hs.cfg
  buffers := by
    obtain ⟨hwf, -, -⟩ := State.buffersOk_iff.mp hs.buffers
    exact State.buffersOk_iff.mpr ⟨hwf, Memory.wf_drawn _ _, Memory.wf_drawn _ _⟩
  draws := State.drawsOk_iff.mpr ⟨Nat.lt_add_of_pos_right two_pos, Nat.lt_succ_self _, (Nat.lt_succ_self _).ne⟩

theorem Transition.buffersKept (h : Transition s t) (hs : BuffersKept c s) : BuffersKept c t := by
  cases h with
  | idle => exact hs
  | core hbusy hstep =>
    exact (bodiesKeep_buffers c).coreStep (fun _ hu => hu.congr rfl rfl rfl rfl)
      (fun _ _ hu => hu.congr rfl rfl rfl rfl) hs hstep
  | read off => exact hs.hostRead off
  | write off v =>
    cases hloc : locOf s.cfg off with
    | inWord i =>
      obtain ⟨hwf, -, -⟩ := State.buffersOk_iff.mp hs.buffers
      exact hs.writeIn (inWord_le hwf hloc) v
    | _ => exact hs.congr rfl rfl rfl rfl
  | dropped | softReset => exact hs.congr rfl rfl rfl rfl
  | powerOn => exact hs.powerOn

end Transitions

/-- Settles O54: what is stored fits, each new draw is one that was not made before, and no transition touches the
parameters. -/
theorem stepKeepsBuffersCanonical : Obligations.StepKeepsBuffersCanonical := by
  intro s t hbuffers hdraws h
  have hs : BuffersKept s.cfg { s with inputs := s.inputs.tail } := ⟨rfl, hbuffers, hdraws⟩
  obtain ⟨hcfg, hbuffers', hdraws'⟩ := (step_transition h).buffersKept hs
  exact ⟨hbuffers', hdraws', hcfg⟩

/-! ## STATUS (R45, R46, R217) -/

theorem ErrCode.code_range (c : ErrCode) : 1 ≤ c.code.toNat ∧ c.code.toNat ≤ 9 := by
  cases c <;> decide

theorem Status.ok_iff {st : Status} :
    st.ok = true ↔ (st.codesValid = true → st.treeValid = true) ∧
      (st.busy = true → st.done = false ∧ st.err = false ∧ st.trunc = false ∧ st.errCode = 0x00#8) ∧
      (st.err = true → st.errCode ≠ 0x00#8) ∧ (st.trunc = true → st.err = false ∧ st.errCode = 0x00#8) ∧
      st.errCode ≤ 0x09#8 := by
  simp [Status.ok, imp_iff_not_or, and_assoc]

/-- CODES_VALID implies TREE_VALID (R45). -/
def State.FlagsOk (s : State) : Prop := s.status.codesValid = true → s.status.treeValid = true

theorem bodiesKeep_flagsOk : BodiesKeep State.FlagsOk where
  clearFreq s _ := id
  count s hs := by
    obtain ⟨-, h⟩ | ⟨-, h⟩ := countBody_cases s <;> rw [h]
    · exact hs
    · exact id
  buildTree s _ := fun _ => rfl
  genCodes s hs := by
    obtain ⟨-, h⟩ | ⟨-, -, h⟩ | ⟨t, hvalid, -, h⟩ := genCodesBody_cases s <;> rw [h]
    · exact hs
    · trivial
    · exact fun _ => hvalid
  encode s hs := by
    obtain ⟨-, h⟩ | ⟨-, -, h⟩ | ⟨-, -, ⟨e, -, h⟩ | ⟨bits, -, h⟩⟩ := encodeBody_cases s <;> rw [h] <;> exact hs
  decode s hs := by
    obtain ⟨e, -, h⟩ | ⟨-, -, h⟩ | ⟨-, -, -, ⟨e, -, h⟩ | ⟨d, -, h⟩⟩ := decodeBody_cases s <;> rw [h] <;> exact hs

/-- `complete()` makes STATUS legal where the valid flags are (R215). -/
theorem State.complete_ok {s : State} (hs : s.FlagsOk) : s.complete.status.ok = true :=
  Status.ok_iff.mpr ⟨hs, fun h => absurd h Bool.false_ne_true, fun h => absurd h Bool.false_ne_true,
    fun _ => ⟨rfl, rfl⟩, (by decide : (0x00#8 : Byte) ≤ 0x09#8)⟩

/-- `raise CmdError(code)` makes STATUS legal where the valid flags are (R216, R217). -/
theorem State.raise_ok {s : State} (c : ErrCode) (hs : s.FlagsOk) : (s.raise c).status.ok = true := by
  obtain ⟨hpos, hle⟩ := c.code_range
  refine Status.ok_iff.mpr ⟨hs, fun h => absurd h Bool.false_ne_true, fun _ h => ?_,
    fun h => absurd h Bool.false_ne_true, hle⟩
  have hzero : c.code.toNat = 0 := congrArg BitVec.toNat h
  omega

/-- A write to a location leaves a legal STATUS legal (R28, R29, R37). -/
theorem State.writeLoc_ok {s : State} (hs : s.status.ok = true) (v : Word) (l : Loc) :
    (s.writeLoc v l).status.ok = true := by
  obtain ⟨hflags, hbusy, herr, htrunc, hcode⟩ := Status.ok_iff.mp hs
  cases l with
  | status =>
    refine Status.ok_iff.mpr ⟨hflags, fun h => ?_, fun h => herr (Bool.and_elim_left h), fun h => ?_, hcode⟩
    · obtain ⟨hd, he, ht, hc⟩ := hbusy h
      exact ⟨by rw [State.writeLoc, State.acknowledge, hd, Bool.false_and],
        by rw [State.writeLoc, State.acknowledge, he, Bool.false_and], ht, hc⟩
    · obtain ⟨he, hc⟩ := htrunc h
      exact ⟨by rw [State.writeLoc, State.acknowledge, he, Bool.false_and], hc⟩
  | cmd =>
    exact Status.ok_iff.mpr ⟨hflags, fun _ => ⟨rfl, rfl, rfl, rfl⟩, fun h => absurd h Bool.false_ne_true,
      fun h => absurd h Bool.false_ne_true, (by decide : (0x00#8 : Byte) ≤ 0x09#8)⟩
  | freq b => exact Status.ok_iff.mpr ⟨fun h => absurd h Bool.false_ne_true, hbusy, herr, htrunc, hcode⟩
  | _ => exact hs

theorem Transition.statusOk {s t : State} (h : Transition s t) (hs : s.status.ok = true) : t.status.ok = true := by
  cases h with
  | idle | dropped => exact hs
  | core hbusy hstep =>
    obtain ⟨hflags, -⟩ := Status.ok_iff.mp hs
    exact bodiesKeep_flagsOk.coreStep (Q := fun t => t.status.ok = true) (fun _ => State.complete_ok)
      (fun _ c => State.raise_ok c) hflags hstep
  | read off =>
    obtain ⟨r, d, hread⟩ := s.hostRead_frame off
    rw [hread]
    exact hs
  | write off v => exact State.writeLoc_ok hs v _
  | softReset | powerOn => exact (by decide : Status.reset.ok = true)

/-- Settles O55: a command's two ends make STATUS legal from legal valid flags, and every HOST access keeps it so. -/
theorem stepKeepsStatusLegal : Obligations.StepKeepsStatusLegal := by
  intro s t hs h
  exact (step_transition h).statusOk hs

/-! ## Reset meets the invariants -/

/-- Settles O53: the buffers hold nothing and show draws 0 and 1, both valid flags are clear, and the stores are those
of a soft reset. -/
theorem resetMeetsTheInvariants : Obligations.ResetMeetsTheInvariants :=
  ⟨by decide, by decide, by decide, State.treeOk_of_invalid rfl, State.codesOk_of_invalid rfl,
    State.reset.storeOk_softReset⟩

end Sys2Proof.Machine
end

section
/-! PROOFS. The CORE step as a whole (spec/40_tree_builder.md R120, spec/60_exceptions.md R215, R216): its one end,
the end of a busy period (R94, R257), and which stores each command writes. -/

namespace Sys2Proof.Machine

/-! ## The CORE step as a whole (R120) -/

/-- A command reports success, or an error of R217's list (R215, R216). -/
theorem coreStep_reports {s t : State} (h : coreStep s = .next t) :
    t.status.err = false ∧ t.status.errCode = 0x00#8 ∨
      t.status.err = true ∧ 1 ≤ t.status.errCode.toNat ∧ t.status.errCode.toNat ≤ 9 ∧ t.status.trunc = false := by
  obtain ⟨p, hp, -⟩ := coreStep_eq_finish s
  obtain ⟨u, rfl, rfl⟩ | ⟨c, u, rfl, rfl⟩ := Phase.finish_next (hp.symm.trans h)
  · exact .inl ⟨rfl, rfl⟩
  · exact .inr ⟨rfl, c.code_range.1, c.code_range.2, rfl⟩

/-- Settles O51: the CORE step ends where the tree is FREQ's, in one of the two ends, and keeps the frame of every
command. -/
theorem coreStepEndsOnceAndLeavesItsInputs : Obligations.CoreStepEndsOnceAndLeavesItsInputs := by
  intro s hs
  obtain ⟨t, ht⟩ := coreStep_isNext hs
  obtain ⟨hdone, hbusy, hframe⟩ := coreStep_next ht
  exact ⟨t, ht, hbusy, hdone, coreStep_reports ht, hframe.irqEn, hframe.cmd, hframe.inLen, hframe.inBuf, hframe.haz,
    hframe.cfg, hframe.inputs, hframe.readData⟩

/-! ## The run of the events to come (R94, R257) -/

/-- Where a step has a next state, a run goes on from there. -/
theorem run_succ_of_next {M : Host.Core} {s t : M.State} (h : M.step s = .next t) (k : Nat) :
    M.run (k + 1) s = M.run k t := by
  simp [Host.Core.run, h]

theorem core_run_succ {s t : State} (h : step s = .next t) (k : Nat) : core.run (k + 1) s = core.run k t :=
  run_succ_of_next (M := core) h k

theorem step_inputs {s t : State} (h : step s = .next t) : t.inputs = s.inputs.tail := (step_transition h).inputs_eq

/-- A step with no event to come leaves no command pending (R257). -/
theorem step_noInputs_idle {s t : State} (hinputs : s.inputs = []) (h : step s = .next t) : t.status.busy = false := by
  rw [step_nil s hinputs, coreTurn] at h
  split at h
  case isTrue =>
    obtain ⟨-, hidle, -⟩ := coreStep_next h
    exact hidle
  case isFalse hidle =>
    cases h
    exact Bool.eq_false_iff.mpr hidle

/-- Settles O59: each step takes one event off, and the step after the last one is the CORE's. -/
theorem busyPeriodEnds : Obligations.BusyPeriodEnds := by
  intro s hs
  obtain ⟨n, hn⟩ : ∃ n, s.inputs.length = n := ⟨_, rfl⟩
  rw [hn]
  induction n generalizing s with
  | zero =>
    have hnil := List.length_eq_zero_iff.mp hn
    obtain ⟨t, ht⟩ := step_isNext hs
    refine ⟨t, core_run_succ ht 0, ?_, step_noInputs_idle hnil ht⟩
    rw [step_inputs ht, hnil, List.tail_nil]
  | succ n ih =>
    obtain ⟨t, ht⟩ := step_isNext hs
    rw [core_run_succ ht]
    refine ih t ((step_transition ht).treeOk hs) ?_
    rw [step_inputs ht, List.length_tail, hn, Nat.add_sub_cancel]

/-! ## What each command writes (R31, R32, R37, R39, R41, R42, R44) -/

/-- Which of the stores that commands write a command may write: FREQ, the tree, the code table, OUT with OUT_LEN,
BIT_LEN. -/
structure Footprint where
  freq : Bool
  tree : Bool
  codes : Bool
  out : Bool
  bitLen : Bool

/-- What each command writes; SOFT_RESET and COMPRESS may write all (R205, R249). -/
def footprintOf : Instr → Footprint
  | .nop => ⟨false, false, false, false, false⟩
  | .clearFreq | .count => ⟨true, false, false, false, false⟩
  | .buildTree => ⟨false, true, false, false, false⟩
  | .genCodes => ⟨false, false, true, false, false⟩
  | .encode => ⟨false, false, false, true, true⟩
  | .decode => ⟨false, false, false, true, false⟩
  | .decompress => ⟨false, true, false, true, false⟩
  | .compress | .softReset _ => ⟨true, true, true, true, true⟩

/-- `t` has the stores of `s`, but for those in the footprint. -/
structure Footprint.Covers (w : Footprint) (s t : State) : Prop where
  freq : w.freq = false → t.freq = s.freq
  tree : w.tree = false → t.nodes = s.nodes ∧ t.symCount = s.symCount ∧ t.root = s.root
  codes : w.codes = false → t.codeLen = s.codeLen ∧ t.codeBits = s.codeBits
  out : w.out = false → t.outBuf = s.outBuf ∧ t.outLen = s.outLen
  bitLen : w.bitLen = false → t.bitLen = s.bitLen

section Covers

variable {w : Footprint} {s t u : State}

theorem Footprint.covers_refl (w : Footprint) (s : State) : w.Covers s s :=
  ⟨fun _ => rfl, fun _ => ⟨rfl, rfl, rfl⟩, fun _ => ⟨rfl, rfl⟩, fun _ => ⟨rfl, rfl⟩, fun _ => rfl⟩

theorem Footprint.Covers.trans (h : w.Covers s t) (h' : w.Covers t u) : w.Covers s u where
  freq hw := (h'.freq hw).trans (h.freq hw)
  tree hw := by
    obtain ⟨hnodes, hcount, hroot⟩ := h.tree hw
    obtain ⟨hnodes', hcount', hroot'⟩ := h'.tree hw
    exact ⟨hnodes'.trans hnodes, hcount'.trans hcount, hroot'.trans hroot⟩
  codes hw := ⟨(h'.codes hw).1.trans (h.codes hw).1, (h'.codes hw).2.trans (h.codes hw).2⟩
  out hw := ⟨(h'.out hw).1.trans (h.out hw).1, (h'.out hw).2.trans (h.out hw).2⟩
  bitLen hw := (h'.bitLen hw).trans (h.bitLen hw)

theorem Footprint.covers_of_all (h : w = ⟨true, true, true, true, true⟩) : w.Covers s t := by
  subst h
  constructor <;> exact fun h => absurd h Bool.noConfusion

/-- The end of a command touches STATUS alone (R215, R216). -/
theorem covers_of_finish {p : Phase} (h : p.Ends (w.Covers s)) (hfinish : p.finish = .next t) : w.Covers s t := by
  obtain ⟨u, rfl, rfl⟩ | ⟨c, u, rfl, rfl⟩ := Phase.finish_next hfinish <;>
    exact ⟨h.freq, h.tree, h.codes, h.out, h.bitLen⟩

theorem countBody_covers (hw : w.freq = true) (s : State) : (countBody s).Ends (w.Covers s) := by
  obtain ⟨-, h⟩ | ⟨-, h⟩ := countBody_cases s <;> rw [h]
  · exact w.covers_refl s
  · exact { w.covers_refl s with freq := fun h => absurd (hw.symm.trans h) Bool.noConfusion }

theorem buildTreeBody_covers (hw : w.tree = true) (s : State) : (buildTreeBody s).Ends (w.Covers s) :=
  { w.covers_refl s with tree := fun h => absurd (hw.symm.trans h) Bool.noConfusion }

theorem genCodesBody_covers (hw : w.codes = true) (s : State) : (genCodesBody s).Ends (w.Covers s) := by
  obtain ⟨-, h⟩ | ⟨-, -, h⟩ | ⟨t, -, -, h⟩ := genCodesBody_cases s <;> rw [h]
  · exact w.covers_refl s
  · trivial
  · exact { w.covers_refl s with codes := fun h => absurd (hw.symm.trans h) Bool.noConfusion }

theorem encodeBody_covers (hout : w.out = true) (hbits : w.bitLen = true) (s : State) :
    (encodeBody s).Ends (w.Covers s) := by
  obtain ⟨-, h⟩ | ⟨-, -, h⟩ | ⟨-, -, ⟨e, -, h⟩ | ⟨bits, -, h⟩⟩ := encodeBody_cases s <;> rw [h]
  · exact w.covers_refl s
  · exact w.covers_refl s
  all_goals
    exact { w.covers_refl s with
      out := fun h => absurd (hout.symm.trans h) Bool.noConfusion
      bitLen := fun h => absurd (hbits.symm.trans h) Bool.noConfusion }

theorem decodeBody_covers (hw : w.out = true) (s : State) : (decodeBody s).Ends (w.Covers s) := by
  obtain ⟨e, -, h⟩ | ⟨-, -, h⟩ | ⟨-, -, -, ⟨e, -, h⟩ | ⟨d, -, h⟩⟩ := decodeBody_cases s <;> rw [h]
  · exact w.covers_refl s
  all_goals exact { w.covers_refl s with out := fun h => absurd (hw.symm.trans h) Bool.noConfusion }

end Covers

theorem exec_covers {i : Instr} {s t : State} (h : exec i s = .next t) : (footprintOf i).Covers s t := by
  cases i with
  | nop => exact covers_of_finish (p := .done s) (Footprint.covers_refl _ s) h
  | clearFreq =>
    refine covers_of_finish (p := .done { s with freq := freqZero, status := s.status.freqChanged }) ?_ h
    exact { Footprint.covers_refl _ s with freq := fun h => absurd h Bool.noConfusion }
  | count => exact covers_of_finish (countBody_covers rfl s) h
  | buildTree => exact covers_of_finish (buildTreeBody_covers rfl s) h
  | genCodes => exact covers_of_finish (genCodesBody_covers rfl s) h
  | encode => exact covers_of_finish (encodeBody_covers rfl rfl s) h
  | decode => exact covers_of_finish (decodeBody_covers rfl s) h
  | decompress =>
    have hbuilt : (buildTreeBody s).Ends (Footprint.Covers ⟨false, true, false, true, false⟩ s) :=
      buildTreeBody_covers rfl s
    exact covers_of_finish
      (hbuilt.andThen fun u hu => (decodeBody_covers rfl u).mono fun _ hv => hu.trans hv) h
  | compress | softReset v => exact Footprint.covers_of_all rfl

/-- Settles O52: each command's footprint is what its body writes, and the lists name the commands without a store in
theirs. -/
theorem onlyTheNamedCommandsWriteATable : Obligations.OnlyTheNamedCommandsWriteATable := by
  intro i s t h
  obtain ⟨hfreq, htree, hcodes, hout, hbits⟩ := exec_covers h
  refine ⟨fun hi => hfreq ?_, fun hi => htree ?_, fun hi => hcodes ?_, fun hi => hout ?_, fun hi => hbits ?_⟩ <;>
    clear * - hi <;> revert i <;> decide

end Sys2Proof.Machine
end

section
/-! PROOFS. The statements of spec/42_bit_packer.md and of spec/60_exceptions.md R218: precondition errors, the stream
errors of ENCODE (R168), and the payload as a sequence of OutBit writes (R84, R165). -/

namespace Sys2Proof.Machine

/-! ## Precondition errors (R218) -/

section Preconditions

variable {s : State}

theorem genCodesBody_noTree (h : s.status.treeValid = false) : genCodesBody s = .error .noTree s := by
  simp [genCodesBody, h]

theorem encodeBody_noCodes (h : s.status.codesValid = false) : encodeBody s = .error .noCodes s := by
  simp [encodeBody, h]

theorem encodeBody_lenRange (hvalid : s.status.codesValid = true) (h : s.cfg.inBytes < s.inLen.toNat) :
    encodeBody s = .error .lenRange s := by
  simp [encodeBody, hvalid, h]

theorem decodeBody_noTree (h : s.status.treeValid = false) : decodeBody s = .error .noTree s := by
  simp [decodeBody, h]

theorem decodeBody_lenRange (hvalid : s.status.treeValid = true) (h : s.cfg.inBytes < s.inLen.toNat) :
    decodeBody s = .error .lenRange s := by
  simp [decodeBody, hvalid, h]

theorem decodeBody_bitLenRange (hvalid : s.status.treeValid = true) (hin : s.inLen.toNat ≤ s.cfg.inBytes)
    (h : 8 * s.inLen.toNat < s.bitLen.toNat) : decodeBody s = .error .bitLenRange s := by
  simp [decodeBody, hvalid, Nat.not_lt.mpr hin, h]

theorem decodeBody_emptyTree (hvalid : s.status.treeValid = true) (hin : s.inLen.toNat ≤ s.cfg.inBytes)
    (hlen : s.bitLen.toNat ≤ 8 * s.inLen.toNat) (hnone : s.symCount.toNat = 0) (h : 0 < s.bitLen.toNat) :
    decodeBody s = .error .emptyTree s := by
  simp [decodeBody, hvalid, Nat.not_lt.mpr hin, Nat.not_lt.mpr hlen, hnone, h.ne']

end Preconditions

/-- Settles O18: each body raises the error before it has changed anything. -/
theorem preconditionErrorsChangeStatusAlone : Obligations.PreconditionErrorsChangeStatusAlone := by
  intro s
  exact ⟨fun h => congrArg Phase.finish (genCodesBody_noTree h),
    fun h => congrArg Phase.finish (encodeBody_noCodes h),
    fun hvalid h => congrArg Phase.finish (encodeBody_lenRange hvalid h),
    fun h => congrArg Phase.finish (decodeBody_noTree h),
    fun hvalid h => congrArg Phase.finish (decodeBody_lenRange hvalid h),
    fun hvalid hin h => congrArg Phase.finish (decodeBody_bitLenRange hvalid hin h),
    fun hvalid hin hlen hnone h => congrArg Phase.finish (decodeBody_emptyTree hvalid hin hlen hnone h)⟩

/-! ## The stream errors of ENCODE (R168) -/

section StreamErrors

variable {t : CodeTable} {size k : Nat} {b : Byte} {pre rest : List Byte}

section Coded

variable (hcode : SymTable.at t.len b ≠ 0#8)
include hcode

theorem codeLen_toNat_ne_zero : (SymTable.at t.len b).toNat ≠ 0 := fun hzero => hcode (BitVec.eq_of_toNat_eq hzero)

/-- A byte that has a code does not fit where its code's last bit would be beyond OUT. -/
theorem emitCodes_outOverflow (h : size < ceil8 (k + (SymTable.at t.len b).toNat)) :
    emitCodes t size (b :: rest) k = .error .outOverflow := by
  rw [emitCodes, if_neg (codeLen_toNat_ne_zero hcode), if_pos h]

/-- After a byte whose code fits, the error is one of the bytes that follow. -/
theorem emitCodes_cons_error {e : ErrCode} (hspace : ceil8 (k + (SymTable.at t.len b).toNat) ≤ size)
    (h : emitCodes t size rest (k + (SymTable.at t.len b).toNat) = .error e) :
    emitCodes t size (b :: rest) k = .error e := by
  rw [emitCodes, if_neg (codeLen_toNat_ne_zero hcode), if_neg (Nat.not_lt.mpr hspace), h]

end Coded

/-- An error after bytes that have codes and fit is the error of the whole. -/
theorem emitCodes_append_error {e : ErrCode} (hcode : ∀ b ∈ pre, SymTable.at t.len b ≠ 0#8)
    (hfit : ceil8 (k + (t.streamOf pre).length) ≤ size)
    (h : emitCodes t size rest (k + (t.streamOf pre).length) = .error e) :
    emitCodes t size (pre ++ rest) k = .error e := by
  induction pre generalizing k with
  | nil => exact h
  | cons b pre ih =>
    obtain ⟨hhead, hpre⟩ := List.forall_mem_cons.mp hcode
    rw [CodeTable.streamOf_cons, List.length_append, CodeTable.codeOf_length, ← Nat.add_assoc] at hfit h
    exact emitCodes_cons_error hhead ((ceil8_le (Nat.le_add_right _ _)).trans hfit) (ih hpre hfit h)

/-- Where every byte has a code and the whole of them does not fit, some byte's code does not. -/
theorem emitCodes_overflow {bs : List Byte} (hcode : ∀ b ∈ bs, SymTable.at t.len b ≠ 0#8) (hstart : ceil8 k ≤ size)
    (hfull : size < ceil8 (k + (t.streamOf bs).length)) : emitCodes t size bs k = .error .outOverflow := by
  induction bs generalizing k with
  | nil => exact absurd hfull (Nat.not_lt.mpr hstart)
  | cons b bs ih =>
    obtain ⟨hhead, hbs⟩ := List.forall_mem_cons.mp hcode
    rw [CodeTable.streamOf_cons, List.length_append, CodeTable.codeOf_length, ← Nat.add_assoc] at hfull
    obtain hlt | hspace := Nat.lt_or_ge size (ceil8 (k + (SymTable.at t.len b).toNat))
    · exact emitCodes_outOverflow hhead hlt
    · exact emitCodes_cons_error hhead hspace (ih hbs hspace hfull)

/-- ENCODE reports the error the packer loop ends with, and loses the payload (R219). -/
theorem exec_encode_error {s : State} {e : ErrCode} (hvalid : s.status.codesValid = true)
    (hlen : s.inLen.toNat ≤ s.cfg.inBytes) (hemit : emitCodes s.codes s.cfg.outBytes s.inputBytes 0 = .error e) :
    exec .encode s = .next (s.loseEncode.raise e) := by
  have hbody : encodeBody s = .error e s.loseEncode := by
    simp [encodeBody, hvalid, Nat.not_lt.mpr hlen, hemit]
  exact congrArg Phase.finish hbody

/-- The input around index `i`. -/
theorem State.inputBytes_split (s : State) {i : Nat} (hi : i < s.inLen.toNat) :
    ∃ rest, s.inputBytes = s.inputBytes.take i ++ s.inBuf.read i :: rest := by
  have hlt : i < s.inputBytes.length := by rwa [State.inputBytes_length]
  have hget : s.inputBytes[i] = s.inBuf.read i := by simp [State.inputBytes]
  refine ⟨s.inputBytes.drop (i + 1), ?_⟩
  rw [← hget, ← List.drop_eq_getElem_cons hlt, List.take_append_drop]

end StreamErrors

/-- Settles O20: the bytes before index `i` are packed, and the byte there raises the error. -/
theorem encodeReportsTheFirstStreamError : Obligations.EncodeReportsTheFirstStreamError := by
  intro s i code hvalid hlen hi hcode hfit herror
  obtain ⟨rest, hsplit⟩ := s.inputBytes_split hi
  rw [← Nat.zero_add (s.codes.streamOf _).length] at hfit herror
  have hemit {e : ErrCode} (h : emitCodes s.codes s.cfg.outBytes (s.inBuf.read i :: rest)
      (0 + (s.codes.streamOf (s.inputBytes.take i)).length) = .error e) :
      exec .encode s = .next (s.loseEncode.raise e) := by
    refine exec_encode_error hvalid hlen ?_
    rw [hsplit]
    exact emitCodes_append_error hcode hfit h
  refine ⟨Memory.drawn s.draws, ?_, Memory.isDrawn_drawn s.draws⟩
  obtain ⟨habsent, rfl⟩ | ⟨hpresent, hfull, rfl⟩ := herror
  · exact hemit (emitCodes_symAbsent habsent _ _ _)
  · exact hemit (emitCodes_outOverflow hpresent hfull)

/-! ## The payload as a sequence of OutBit writes (R84, R165) -/

/-- Bit `p` of a byte replaced. -/
theorem getLsbD_replaceBit (x : Byte) {p q : Nat} (hq : q < 8) (b : Bool) :
    (if b then x ||| BitVec.twoPow 8 p else x &&& ~~~BitVec.twoPow 8 p).getLsbD q =
      if q = p then b else x.getLsbD q := by
  by_cases hqp : q = p
  · subst hqp
    cases b <;> simp [hq]
  · cases b <;> simp [hq, hqp]

/-- OutBit changes the one stream bit (R84). -/
theorem Memory.streamBit_setStreamBit (m : Memory) (k j : Nat) (b : Bool) :
    (m.setStreamBit k b).streamBit j = if j = k then b else m.streamBit j := by
  rw [Memory.streamBit, Memory.setStreamBit]
  by_cases hbyte : j / 8 = k / 8
  · have hsame : 7 - j % 8 = 7 - k % 8 ↔ j = k := by omega
    rw [hbyte, Memory.read_write_same, getLsbD_replaceBit _ (by omega), Memory.streamBit, hbyte]
    exact if_congr hsame rfl rfl
  · have hne : j ≠ k := fun h => hbyte (congrArg (· / 8) h)
    rw [Memory.read_write_other _ _ hbyte, if_neg hne, Memory.streamBit]

/-- A sequence of OutBit writes from bit `start` on sets the bits from there on, in order. -/
theorem Memory.streamBit_outBits (m : Memory) (l : List Bool) (start j : Nat) :
    ((l.zipIdx start).foldl (fun o (b : Bool × Nat) => o.setStreamBit b.2 b.1) m).streamBit j =
      if start ≤ j ∧ j < start + l.length then l.getD (j - start) false else m.streamBit j := by
  induction l generalizing m start with
  | nil => rw [if_neg (by simp)]; rfl
  | cons b l ih =>
    rw [List.zipIdx_cons, List.foldl_cons, ih, Memory.streamBit_setStreamBit, List.length_cons]
    obtain hlt | rfl | hgt := Nat.lt_trichotomy j start
    · rw [if_neg (by omega), if_neg (by omega), if_neg (by omega)]
    · rw [if_neg (by omega), if_pos rfl, if_pos (by omega), Nat.sub_self, List.getD_cons_zero]
    · have hindex : j - start = j - (start + 1) + 1 := by omega
      rw [if_neg (Nat.ne_of_gt hgt), hindex, List.getD_cons_succ]
      exact if_congr (by omega) rfl rfl

/-- A byte is its eight stream bits. -/
theorem Memory.read_eq_of_streamBit {m n : Memory} {i : Nat}
    (h : ∀ k, k / 8 = i → m.streamBit k = n.streamBit k) : m.read i = n.read i := by
  refine BitVec.eq_of_getLsbD_eq fun p hp => ?_
  have hbit := h (8 * i + (7 - p)) (by omega)
  have hbyte : (8 * i + (7 - p)) / 8 = i := by omega
  have hindex : 7 - (8 * i + (7 - p)) % 8 = p := by omega
  rwa [Memory.streamBit, Memory.streamBit, hbyte, hindex] at hbit

/-- The stream with its padding, bit by bit (R166). -/
theorem getD_append_padding (bits : List Bool) (n k : Nat) :
    (bits ++ List.replicate n false).getD k false = bits.getD k false := by
  obtain hk | hk := Nat.lt_or_ge k bits.length
  · rw [List.getD_append _ _ _ _ hk]
  · rw [List.getD_append_right _ _ _ _ hk, List.getD_eq_default _ _ hk, List.getD_eq_getElem?_getD,
      List.getElem?_replicate]
    split <;> rfl

/-- Settles O21: both leave the stream and its padding bit by bit, and every bit after them as it was. -/
theorem packingIsTheOutBitSequence : Obligations.PackingIsTheOutBitSequence := by
  intro m bits i
  have hsize := le_eight_mul_ceil8 bits.length
  refine Memory.read_eq_of_streamBit fun k hk => ?_
  rw [Memory.streamBit_outBits, List.length_append, List.length_replicate, Nat.add_sub_cancel' hsize, Nat.zero_add,
    Nat.sub_zero, getD_append_padding]
  by_cases hin : k < 8 * ceil8 bits.length
  · rw [if_pos ⟨Nat.zero_le k, hin⟩, Memory.streamBit_packed m hin]
  · have hout : 0 + (packBytes bits).length ≤ k / 8 := by rw [packBytes_length]; omega
    rw [if_neg fun h => hin h.2, Memory.streamBit, Memory.streamBit, Memory.read_writeBytes_outside _ _ _ (.inr hout)]

end Sys2Proof.Machine
end

section
/-! PROOFS. The statements of spec/43_decoder.md: the empty tree (R189), the one-leaf tree (R188), the walking decoder
(R187, R190, R191), and the bits DECODE does not read (R186). -/

namespace Sys2Proof.Machine

/-! ## The decoder loop, and what it has emitted before (R185) -/

/-- The bytes `bs` in front of what the rest of the loop ends with. -/
def Decoded.prepend (bs : List Byte) (r : Except ErrCode Decoded) : Except ErrCode Decoded := bs.foldr Decoded.cons r

@[simp] theorem Decoded.prepend_nil (r : Except ErrCode Decoded) : Decoded.prepend [] r = r := rfl

@[simp] theorem Decoded.prepend_cons (b : Byte) (bs : List Byte) (r : Except ErrCode Decoded) :
    Decoded.prepend (b :: bs) r = Decoded.cons b (Decoded.prepend bs r) := rfl

@[simp] theorem Decoded.prepend_error (bs : List Byte) (e : ErrCode) :
    Decoded.prepend bs (.error e) = .error e := by
  induction bs with
  | nil => rfl
  | cons b bs ih => rw [Decoded.prepend_cons, ih]; rfl

@[simp] theorem Decoded.prepend_ok (bs : List Byte) (d : Decoded) :
    Decoded.prepend bs (.ok d) = .ok { d with bytes := bs ++ d.bytes } := by
  induction bs with
  | nil => rfl
  | cons b bs ih => rw [Decoded.prepend_cons, ih]; rfl

section Loop

variable {t : Tree} {size m : Nat} {i : NodeIdx} {rest : List Bool}

/-- The one-leaf tree reads each bit 0 as the root's symbol (R188). -/
theorem decodeBits_zeros (hn : t.symCount.toNat = 1) {k : Nat} (hfit : m + k ≤ size) :
    decodeBits t size (List.replicate k false ++ rest) i m =
      Decoded.prepend (List.replicate k (NodeStore.at t.nodes t.root.toNat).sym)
        (decodeBits t size rest i (m + k)) := by
  induction k generalizing m with
  | zero => rfl
  | succ k ih =>
    rw [List.replicate_succ, List.cons_append, decodeBits_of_one_leaf hn (by omega), ih (by omega), List.replicate_succ,
      Decoded.prepend_cons, Nat.add_right_comm, Nat.add_assoc]

/-- The one-leaf tree has no path for a bit 1, whether or not OUT is full (R188). -/
theorem decodeBits_one (hn : t.symCount.toNat = 1) : decodeBits t size (true :: rest) i m = .error .badPath := by
  rw [decodeBits, if_pos hn, if_pos rfl]

/-- A bit 0 where OUT is full (R188). -/
theorem decodeBits_zero_full (hn : t.symCount.toNat = 1) :
    decodeBits t size (false :: rest) i size = .error .outOverflow := by
  rw [decodeBits, if_pos hn, if_neg Bool.false_ne_true, if_pos rfl]

/-- The walking decoder reads paths to leaves as the leaves' symbols, where they fit (R187). -/
theorem decodeBits_segs {segs : List (List Bool × Byte)} (hn : t.symCount.toNat ≠ 1)
    (hsegs : ∀ g ∈ segs, LeadsToLeaf t.nodes t.root g.1 g.2) (hfit : m + segs.length ≤ size) :
    decodeBits t size ((segs.map Prod.fst).flatten ++ rest) t.root m =
      Decoded.prepend (segs.map Prod.snd) (decodeBits t size rest t.root (m + segs.length)) := by
  induction segs generalizing m with
  | nil => rfl
  | cons g segs ih =>
    obtain ⟨hhead, hrest⟩ := List.forall_mem_cons.mp hsegs
    rw [List.length_cons] at hfit ⊢
    rw [List.map_cons, List.flatten_cons, List.append_assoc, decodeBits_of_leadsToLeaf hn (by omega) hhead,
      ih hrest (by omega), List.map_cons, Decoded.prepend_cons, Nat.add_right_comm, Nat.add_assoc]

/-- A path to a leaf where OUT is full (R187). -/
theorem decodeBits_leaf_full (hn : t.symCount.toNat ≠ 1) {p : List Bool} {b : Byte} (h : LeadsToLeaf t.nodes i p b) :
    decodeBits t size (p ++ rest) i size = .error .outOverflow := by
  induction p generalizing i with
  | nil => exact absurd rfl h.1
  | cons bit p ih =>
    rw [List.cons_append, decodeBits, if_neg hn]
    obtain ⟨_, hleaf, _⟩ | ⟨hinternal, hrest⟩ := leadsToLeaf_cons.mp h
    · rw [if_pos hleaf, if_pos rfl]
    · rw [if_neg (Bool.eq_false_iff.mp hinternal), ih hrest]

/-- Of more paths to leaves than fit in OUT, one finds OUT full. -/
theorem decodeBits_segs_overflow {segs : List (List Bool × Byte)} (hn : t.symCount.toNat ≠ 1)
    (hsegs : ∀ g ∈ segs, LeadsToLeaf t.nodes t.root g.1 g.2) (hfull : size < segs.length) :
    decodeBits t size ((segs.map Prod.fst).flatten ++ rest) t.root 0 = .error .outOverflow := by
  have hsplit : segs = segs.take size ++ segs[size] :: segs.drop (size + 1) := by
    rw [← List.drop_eq_getElem_cons hfull, List.take_append_drop]
  have hlen : (segs.take size).length = size := List.length_take_of_le hfull.le
  have hhead := hsegs _ (List.getElem_mem hfull)
  rw [hsplit, List.map_append, List.flatten_append, List.append_assoc,
    decodeBits_segs hn (fun g hg => hsegs g (List.mem_of_mem_take hg)) (by omega), hlen, Nat.zero_add, List.map_cons,
    List.flatten_cons, List.append_assoc, decodeBits_leaf_full hn hhead, Decoded.prepend_error]

end Loop

/-! ## The stream in IN (R84, R186) -/

section Stream

variable {m : Memory} {k n : Nat}

theorem Memory.stream_zeros (h : ∀ j, j < k → m.streamBit j = false) : m.stream k = List.replicate k false := by
  refine List.eq_replicate_iff.mpr ⟨Memory.stream_length m k, List.forall_mem_map.mpr fun j hj => ?_⟩
  exact h j (List.mem_range.mp hj)

/-- The stream around bit `k`. -/
theorem Memory.stream_split (hk : k < n) : ∃ rest, m.stream n = m.stream k ++ m.streamBit k :: rest := by
  have hlt : k < (m.stream n).length := by rwa [Memory.stream_length]
  have htake : (m.stream n).take k = m.stream k := by
    rw [Memory.stream, ← List.map_take, List.take_range, Nat.min_eq_left hk.le, Memory.stream]
  have hget : (m.stream n)[k] = m.streamBit k := by simp [Memory.stream]
  refine ⟨(m.stream n).drop (k + 1), ?_⟩
  rw [← htake, ← hget, ← List.drop_eq_getElem_cons hlt, List.take_append_drop]

theorem Memory.stream_congr {m' : Memory} (h : ∀ k, k < n → m'.streamBit k = m.streamBit k) :
    m'.stream n = m.stream n :=
  List.map_congr_left fun k hk => h k (List.mem_range.mp hk)

end Stream

/-! ## DECODE as a command -/

/-- DECODE reports the error the decoder loop ends with, and loses OUT (R219). -/
theorem exec_decode_error {u : State} {e : ErrCode} (hvalid : u.status.treeValid = true)
    (hin : u.inLen.toNat ≤ u.cfg.inBytes) (hlen : u.bitLen.toNat ≤ 8 * u.inLen.toNat) (hsome : u.symCount.toNat ≠ 0)
    (hloop : decodeBits u.tree u.cfg.outBytes (u.inBuf.stream u.bitLen.toNat) u.root 0 = .error e) :
    exec .decode u = .next (u.loseDecode.raise e) := by
  have hbody : decodeBody u = .error e u.loseDecode := by
    simp [decodeBody, hvalid, Nat.not_lt.mpr hin, Nat.not_lt.mpr hlen, hsome, hloop]
  exact congrArg Phase.finish hbody

/-- Settles O22: the body stops at the empty tree, with success on the empty stream alone. -/
theorem emptyTreeDecodesOnlyTheEmptyStream : Obligations.EmptyTreeDecodesOnlyTheEmptyStream := by
  intro s hvalid hnone hin hlen
  exact ⟨fun hempty => congrArg Phase.finish (decodeBody_of_no_leaf hvalid hin hnone hempty),
    fun hsome => congrArg Phase.finish (decodeBody_emptyTree hvalid hin hlen hnone hsome)⟩

/-- Settles O23: the stream is zeros up to the bit in question, and the loop has emitted one symbol for each. -/
theorem singleLeafDecodesZeroBits : Obligations.SingleLeafDecodesZeroBits := by
  intro s _ hvalid hone hin hlen
  have hsome : s.symCount.toNat ≠ 0 := by omega
  have hzeros {k : Nat} (hfit : k ≤ s.cfg.outBytes) (rest : List Bool) :=
    decodeBits_zeros (t := s.tree) (i := s.root) (rest := rest) hone ((Nat.zero_add k).trans_le hfit)
  simp only [Nat.zero_add] at hzeros
  refine ⟨fun hzero hfit => ?_, fun k hk hfit hzero hbit => ?_, fun hfull hzero => ?_⟩
  · have hloop := hzeros hfit []
    rw [List.append_nil, ← Memory.stream_zeros hzero, decodeBits, Decoded.prepend_ok, List.append_nil] at hloop
    refine ⟨_, (congrArg Phase.finish (decodeBody_of_loop hvalid hin hlen hsome hloop)).trans ?_,
      Memory.holdsBytes_writeBytes _ _⟩
    simp [State.storeDecoded, State.complete, Status.truncated, Status.success, hone, State.tree]
  · obtain ⟨rest, hsplit⟩ := Memory.stream_split (m := s.inBuf) hk
    have hloop := hzeros hfit (true :: rest)
    rw [← Memory.stream_zeros hzero, ← hbit, ← hsplit, hbit, decodeBits_one hone, Decoded.prepend_error] at hloop
    exact ⟨_, exec_decode_error hvalid hin hlen hsome hloop, Memory.isDrawn_drawn s.draws⟩
  · obtain ⟨rest, hsplit⟩ := Memory.stream_split (m := s.inBuf) hfull
    have hloop := hzeros le_rfl (false :: rest)
    rw [← Memory.stream_zeros fun j hj => hzero j hj.le, ← hzero _ le_rfl, ← hsplit, hzero _ le_rfl,
      decodeBits_zero_full hone, Decoded.prepend_error] at hloop
    exact ⟨_, exec_decode_error hvalid hin hlen hsome hloop, Memory.isDrawn_drawn s.draws⟩

/-- Settles O24: the walking decoder follows the paths and the rest, or finds OUT full at the first path too many. -/
theorem decodeWalksTheTree : Obligations.DecodeWalksTheTree := by
  intro s segs tail _ hvalid hn hin hlen hstream hsegs htail
  refine ⟨fun hfit => ⟨_, exec_decode_of_paths hvalid hn hin hlen hstream hsegs htail hfit,
    Memory.holdsBytes_writeBytes _ _⟩, fun hfull => ?_⟩
  have hwalks : s.tree.symCount.toNat ≠ 1 := by change s.symCount.toNat ≠ 1; omega
  have hloop := decodeBits_segs_overflow (rest := tail) hwalks hsegs hfull
  rw [← hstream] at hloop
  exact ⟨_, exec_decode_error hvalid hin hlen (by omega) hloop, Memory.isDrawn_drawn s.draws⟩

/-! ## What DECODE does not read (R186) -/

/-- The end of a body, with another input buffer. -/
def Phase.withInBuf (m : Memory) : Phase → Phase
  | .done s => .done { s with inBuf := m }
  | .error c s => .error c { s with inBuf := m }
  | .endless => .endless

theorem decodeBody_withInBuf {s : State} {m : Memory} (h : m.stream s.bitLen.toNat = s.inBuf.stream s.bitLen.toNat) :
    decodeBody { s with inBuf := m } = (decodeBody s).withInBuf m := by
  dsimp only [decodeBody, State.tree]
  rw [h]
  split_ifs
  · rfl
  · rfl
  · rfl
  · rfl
  · rfl
  · split <;> rfl

/-- Settles O25: of IN the body of DECODE reads the stream alone. -/
theorem decodeNeverReadsPadding : Obligations.DecodeNeverReadsPadding := by
  intro s m h
  have hbody := congrArg Phase.finish (decodeBody_withInBuf (Memory.stream_congr h))
  have hends := decodeBody_ne_endless s
  change ∃ t, (decodeBody s).finish = .next t ∧ (decodeBody { s with inBuf := m }).finish = _
  cases hp : decodeBody s with
  | done u => rw [hp] at hbody; exact ⟨u.complete, rfl, hbody⟩
  | error c u => rw [hp] at hbody; exact ⟨u.raise c, rfl, hbody⟩
  | endless => exact absurd hp hends

end Sys2Proof.Machine
end

section
/-! PROOFS. The statements of spec/44_compound.md and spec/30_encoding.md R107: COMPRESS (R205), MOVEOUT (R254), and
the codec round trip (R207). -/

namespace Sys2Proof.Machine

/-! ## COMPRESS (R205) -/

/-- Every present symbol has a code, of at least one bit (R150, R151). -/
theorem codeLen_ne_zero {f : SymTable Word} {t : CodeTable} (hcodes : codesOf (treeOf f) = some t) {b : Byte}
    (hb : SymTable.at f b ≠ 0#32) : SymTable.at t.len b ≠ 0#8 := by
  have hcount := treeOf_symCount_toNat f
  have hpos : 1 ≤ presentCount f := List.length_pos_of_mem (mem_presentSymbols.mpr hb)
  obtain hone | hn : presentCount f = 1 ∨ 2 ≤ presentCount f := by omega
  · obtain rfl := Option.some.inj ((codesOf_of_one_leaf (by omega)).symm.trans hcodes)
    rw [CodeTable.at_enter_len, if_pos ((present_iff_root_sym hone).mp hb)]
    exact (by decide : BitVec.ofNat 8 1 ≠ 0#8)
  · obtain ⟨t', leaves, ht', hleaves⟩ := exists_leafCodes hn
    obtain rfl := Option.some.inj (ht'.symm.trans hcodes)
    obtain ⟨hlen, -⟩ := hleaves.len_range hb
    intro hzero
    rw [hzero] at hlen
    exact absurd hlen (by decide)

/-- A byte of the string is counted (R123). -/
theorem at_countBytes_ne_zero {bs : List Byte} (hlen : bs.length < 2 ^ 32) {b : Byte} (hb : b ∈ bs) :
    SymTable.at (countBytes bs) b ≠ 0#32 := by
  intro hzero
  have hcount := countBytes_toNat hlen b
  rw [hzero] at hcount
  exact (List.count_pos_iff.mpr hb).ne hcount

/-- The state COMPRESS encodes in: the input counted, and the tree and the codes made from the count (R205). -/
def State.compressed (s : State) (t : CodeTable) : State :=
  { s.setTree (treeOf (countBytes s.inputBytes)) with
    freq := countBytes s.inputBytes
    codeLen := t.len
    codeBits := t.bits
    status := { s.status with treeValid := true, codesValid := true } }

/-- COMPRESS of an input that fits IN is ENCODE on the counted input, its tree and its codes (R205). -/
theorem exec_compress {s : State} {t : CodeTable} (hlen : s.inLen.toNat ≤ s.cfg.inBytes)
    (hcodes : codesOf (treeOf (countBytes s.inputBytes)) = some t) :
    exec .compress s = exec .encode (s.compressed t) := by
  have hcount : countBody s = .done { s with freq := countBytes s.inputBytes, status := s.status.freqChanged } := by
    simp [countBody, Nat.not_lt.mpr hlen]
  have hgen (u : State) (htree : u.tree = treeOf (countBytes s.inputBytes)) (hvalid : u.status.treeValid = true) :
      genCodesBody u = .done { u with codeLen := t.len, codeBits := t.bits, status := u.status.codesMade } := by
    simp [genCodesBody, hvalid, htree, hcodes]
  change ((((countBody s).andThen buildTreeBody).andThen genCodesBody).andThen encodeBody).finish = _
  rw [hcount, Phase.andThen_done, buildTreeBody, Phase.andThen_done, hgen _ rfl rfl, Phase.andThen_done]
  rfl

section Compress

variable {s : State} {t : CodeTable} (hcodes : codesOf (treeOf (countBytes s.inputBytes)) = some t)
include hcodes

/-- Every byte of the input has a code in the table made from its count. -/
theorem compress_codeLen_ne_zero : ∀ b ∈ s.inputBytes, SymTable.at t.len b ≠ 0#8 := by
  have hbytes : s.inputBytes.length < 2 ^ 32 := (State.inputBytes_length s).trans_lt s.inLen.isLt
  exact fun b hb => codeLen_ne_zero hcodes (at_countBytes_ne_zero hbytes hb)

variable (hlen : s.inLen.toNat ≤ s.cfg.inBytes)
include hlen

theorem exec_compress_ok (hfit : ceil8 (t.streamOf s.inputBytes).length ≤ s.cfg.outBytes) :
    exec .compress s = .next ((s.compressed t).storePayload (t.streamOf s.inputBytes)).complete := by
  rw [exec_compress hlen hcodes]
  exact exec_encode_ok rfl hlen (emitCodes_eq_ok (compress_codeLen_ne_zero hcodes) (by rwa [Nat.zero_add]))

theorem exec_compress_overflow (hfull : s.cfg.outBytes < ceil8 (t.streamOf s.inputBytes).length) :
    exec .compress s = .next ((s.compressed t).loseEncode.raise .outOverflow) := by
  rw [exec_compress hlen hcodes]
  exact exec_encode_error rfl hlen
    (emitCodes_overflow (compress_codeLen_ne_zero hcodes) (Nat.zero_le _) (by rwa [Nat.zero_add]))

end Compress

theorem exec_compress_lenRange {s : State} (h : s.cfg.inBytes < s.inLen.toNat) :
    exec .compress s = .next (s.raise .lenRange) := by
  have hcount : countBody s = .error .lenRange s := by simp [countBody, h]
  change ((((countBody s).andThen buildTreeBody).andThen genCodesBody).andThen encodeBody).finish = _
  rw [hcount]
  rfl

/-- Settles O27: every byte of the input is counted, so it has a code, and OUT_OVERFLOW is all that can go wrong. -/
theorem compressCountsBuildsCodesAndPacks : Obligations.CompressCountsBuildsCodesAndPacks := by
  intro s _
  refine ⟨exec_compress_lenRange, fun hlen => ?_⟩
  obtain ⟨t, hcodes, -⟩ := codesOf_treeOf (countBytes s.inputBytes)
  exact ⟨t, hcodes, fun hfit => ⟨_, exec_compress_ok hcodes hlen hfit, Memory.holdsPayload_writeBytes _ _⟩,
    fun hfull => ⟨_, exec_compress_overflow hcodes hlen hfull, Memory.isDrawn_drawn s.draws⟩⟩

/-! ## Runs of events (R106) -/

/-- The events `es`, as the next ones, lead from `s` to `t`, whatever events come after them. -/
def RunsTo (es : List Event) (s t : State) : Prop :=
  ∀ k rest, core.run (es.length + k) { s with inputs := es ++ rest } = core.run k { t with inputs := rest }

theorem RunsTo.nil (s : State) : RunsTo [] s s := fun k rest => by rw [List.length_nil, Nat.zero_add]; rfl

theorem RunsTo.append {es es' : List Event} {s t u : State} (h : RunsTo es s t) (h' : RunsTo es' t u) :
    RunsTo (es ++ es') s u := by
  intro k rest
  rw [List.length_append, Nat.add_assoc, List.append_assoc, h, h']

theorem RunsTo.of_step {e : Event} {s t : State}
    (h : ∀ rest, step { s with inputs := e :: rest } = .next { t with inputs := rest }) : RunsTo [e] s t := by
  intro k rest
  rw [List.length_singleton, Nat.add_comm]
  exact core_run_succ (h rest) k

theorem State.ReadsAs.runsTo {s : State} {off : Offset} {v : Word} (h : s.ReadsAs off v) :
    RunsTo [.read off] s { s with readData := some v } := RunsTo.of_step h

theorem State.WriteLeaves.runsTo {s t : State} {off : Offset} {v : Word} (h : s.WriteLeaves off v t) :
    RunsTo [.write off v] s t := RunsTo.of_step h

/-- Where the events are all there are, the run ends in the state they lead to. -/
theorem RunsTo.run {es : List Event} {s t : State} (h : RunsTo es s t) :
    core.run es.length { s with inputs := es } = .next { t with inputs := [] } := by
  have hrun := h 0 []
  rw [Nat.add_zero, List.append_nil] at hrun
  exact hrun

/-! ## MOVEOUT (R107, R254) -/

/-- IN with the first `n` words of OUT copied into it. -/
def copiedWords (s : State) : Nat → Memory
  | 0 => s.inBuf
  | n + 1 => (copiedWords s n).writeWord (4 * n) (s.outBuf.readWord (4 * n))

/-- Byte `k` of a word read from a buffer (R77). -/
theorem byteOfWord_readWord (m : Memory) (i : Nat) {k : Nat} (hk : k < 4) :
    byteOfWord (m.readWord i) k = m.read (i + k) := by
  rw [byteOfWord, Memory.readWord, wordOfBytes]
  obtain rfl | rfl | rfl | rfl : k = 0 ∨ k = 1 ∨ k = 2 ∨ k = 3 := by omega
  · rw [BitVec.extractLsb'_append_eq_of_add_le (by decide), BitVec.extractLsb'_eq_self, Nat.add_zero]
  · rw [BitVec.extractLsb'_append_eq_of_le (by decide), BitVec.extractLsb'_append_eq_of_add_le (by decide),
      BitVec.extractLsb'_eq_self]
  · rw [BitVec.extractLsb'_append_eq_of_le (by decide), BitVec.extractLsb'_append_eq_of_le (by decide),
      BitVec.extractLsb'_append_eq_of_add_le (by decide), BitVec.extractLsb'_eq_self]
  · rw [BitVec.extractLsb'_append_eq_of_le (by decide), BitVec.extractLsb'_append_eq_of_le (by decide),
      BitVec.extractLsb'_append_eq_of_le (by decide), BitVec.extractLsb'_eq_self]

/-- The copied words read as in OUT, the rest of IN as before. -/
theorem read_copiedWords (s : State) (n i : Nat) :
    (copiedWords s n).read i = if i < 4 * n then s.outBuf.read i else s.inBuf.read i := by
  induction n with
  | zero => rfl
  | succ n ih =>
    rw [copiedWords]
    by_cases hlast : 4 * n ≤ i ∧ i < 4 * n + 4
    · obtain ⟨k, rfl⟩ := Nat.exists_eq_add_of_le hlast.1
      rw [Memory.read_writeWord_inside _ _ _ (by omega), byteOfWord_readWord _ _ (by omega), if_pos (by omega)]
    · rw [Memory.read_writeWord_outside _ _ _ (by omega), ih]
      exact if_congr (by omega) rfl rfl

/-- The two accesses that copy word `j` of the OUT of `s` to IN (R107). -/
def copyEvents (s : State) (j : Nat) : List Event :=
  [.read (outWordOffset j), .write (inWordOffset j) (s.wordAt (locOf s.cfg (outWordOffset j)))]

theorem moveOutEvents_eq (s : State) :
    moveOutEvents s =
      [.read outLenOffset] ++ (List.range (wordCount s.outLen.toNat)).flatMap (copyEvents s) ++
        [.write inLenOffset s.outLen] := rfl

/-- The state after MOVEOUT, the last word read being `r`. -/
def State.movedOut (s : State) (r : Option Word) : State :=
  { s with inBuf := copiedWords s (wordCount s.outLen.toNat), inLen := s.outLen, readData := r }

/-- The copied words hold all of OUT that OUT_LEN covers. -/
theorem le_four_mul_wordCount (n : Nat) : n ≤ 4 * wordCount n := by
  rw [wordCount]
  omega

theorem State.movedOut_read (s : State) (r : Option Word) {i : Nat} (hi : i < s.outLen.toNat) :
    (s.movedOut r).inBuf.read i = s.outBuf.read i :=
  (read_copiedWords s _ i).trans (if_pos (hi.trans_le (le_four_mul_wordCount _)))

section MoveOut

variable {s : State} (hwf : s.cfg.wf = true) (hidle : s.status.busy = false)
include hwf hidle

/-- The copy of one word that lies in both buffers. -/
theorem runsTo_copyEvents {j : Nat} (hout : 4 * j < s.cfg.outBytes) (hin : 4 * j < s.cfg.inBytes) (m : Memory)
    (r : Option Word) :
    ∃ r', RunsTo (copyEvents s j) { s with inBuf := m, readData := r }
      { s with inBuf := m.writeWord (4 * j) (s.outBuf.readWord (4 * j)), readData := r' } := by
  have hsize := Config.outBytes_le hwf
  have houtLoc : locOf s.cfg (outWordOffset j) = .outWord (4 * j) :=
    (locOf_outWindow s.cfg (by omega)).trans (if_pos hout)
  have hinLoc : locOf s.cfg (inWordOffset j) = .inWord (4 * j) :=
    (locOf_inWindow s.cfg (by omega)).trans (if_pos hin)
  have hread := (State.readsAs_wordAt (s := { s with inBuf := m, readData := r }) houtLoc (.inl hidle)).runsTo
  have hwrite := (State.writeLeaves_writeLoc (s := { s with inBuf := m, readData := some (s.outBuf.readWord (4 * j)) })
    (v := s.outBuf.readWord (4 * j)) hinLoc (.inl Loc.noConfusion) (.inl hidle)).runsTo
  rw [copyEvents, houtLoc]
  exact ⟨_, hread.append hwrite⟩

/-- The copies of the first `n` words. -/
theorem runsTo_copies {n : Nat} (hout : ∀ j < n, 4 * j < s.cfg.outBytes) (hin : ∀ j < n, 4 * j < s.cfg.inBytes)
    (r : Option Word) :
    ∃ r', RunsTo ((List.range n).flatMap (copyEvents s)) { s with readData := r }
      { s with inBuf := copiedWords s n, readData := r' } := by
  induction n with
  | zero => exact ⟨r, RunsTo.nil _⟩
  | succ n ih =>
    obtain ⟨r₁, hbefore⟩ := ih (fun j hj => hout j (Nat.lt_succ_of_lt hj)) fun j hj => hin j (Nat.lt_succ_of_lt hj)
    obtain ⟨r₂, hlast⟩ := runsTo_copyEvents hwf hidle (hout n (Nat.lt_succ_self n)) (hin n (Nat.lt_succ_self n))
      (copiedWords s n) r₁
    rw [List.range_succ, List.flatMap_append, List.flatMap_singleton]
    exact ⟨r₂, hbefore.append hlast⟩

/-- MOVEOUT copies OUT, as far as OUT_LEN goes, to IN, and sets IN_LEN (R254). -/
theorem runsTo_moveOut (hout : s.outLen.toNat ≤ s.cfg.outBytes) (hin : s.outLen.toNat ≤ s.cfg.inBytes) :
    ∃ r, RunsTo (moveOutEvents s) s (s.movedOut r) := by
  have hword : ∀ j < wordCount s.outLen.toNat, 4 * j < s.outLen.toNat := fun j hj => by
    rw [wordCount] at hj
    omega
  have hread : RunsTo [.read outLenOffset] s _ := (State.readsAs_wordAt (locOf_outLen _) (.inl hidle)).runsTo
  obtain ⟨r, hcopies⟩ := runsTo_copies hwf hidle (fun j hj => (hword j hj).trans_le hout)
    (fun j hj => (hword j hj).trans_le hin) (some (s.wordAt .outLen))
  have hwrite : RunsTo [.write inLenOffset s.outLen] _ _ := (State.writeLeaves_writeLoc
    (s := { s with inBuf := copiedWords s (wordCount s.outLen.toNat), readData := r }) (locOf_inLen _)
    (.inl Loc.noConfusion) (.inl hidle)).runsTo
  exact ⟨r, moveOutEvents_eq s ▸ (hread.append hcopies).append hwrite⟩

end MoveOut

/-- Settles O30: each pair of accesses copies one word, and the words hold OUT's bytes up to OUT_LEN. -/
theorem moveOutCopiesOutToIn : Obligations.MoveOutCopiesOutToIn := by
  intro s hwf hidle hout hin
  obtain ⟨r, hrun⟩ := runsTo_moveOut hwf hidle hout hin
  have hread := read_copiedWords s (wordCount s.outLen.toNat)
  exact ⟨_, r, hrun.run, fun i hi => (hread i).trans (if_pos hi), fun i hi => s.movedOut_read r hi,
    fun i hi => (hread i).trans (if_neg (Nat.not_lt.mpr hi))⟩

/-! ## The codec round trip (R207) -/

/-- What a successful COMPRESS of `s` leaves in `t`, as far as the way back needs it: the count whose tree has the codes
`c`, and the payload that these are (R205). -/
structure Compressed (s t : State) (c : CodeTable) : Prop where
  codes : codesOf (treeOf t.freq) = some c
  codeLen : ∀ b ∈ s.inputBytes, SymTable.at c.len b ≠ 0#8
  idle : t.status.busy = false
  cfg : t.cfg = s.cfg
  bitLen : t.bitLen.toNat = (c.streamOf s.inputBytes).length
  outLen : t.outLen.toNat = ceil8 (c.streamOf s.inputBytes).length
  payload : t.outBuf.HoldsPayload s.outBuf (c.streamOf s.inputBytes)
  fits : ceil8 (c.streamOf s.inputBytes).length ≤ s.cfg.outBytes

/-- A COMPRESS that reports no error found an input that fits IN and a payload that fits OUT (R205). -/
theorem exec_compress_success {s t : State} (hwf : s.cfg.wf = true) (h : exec .compress s = .next t)
    (herr : t.status.err = false) : ∃ c, Compressed s t c := by
  obtain hlong | hlen := Nat.lt_or_ge s.cfg.inBytes s.inLen.toNat
  · cases (exec_compress_lenRange hlong).symm.trans h
    cases herr
  obtain ⟨c, hcodes, -⟩ := codesOf_treeOf (countBytes s.inputBytes)
  have hlt : (c.streamOf s.inputBytes).length < 2 ^ 28 := (s.compressed c).streamOf_inputBytes_length_lt hwf hlen
  obtain hfull | hfit := Nat.lt_or_ge s.cfg.outBytes (ceil8 (c.streamOf s.inputBytes).length)
  · cases (exec_compress_overflow hcodes hlen hfull).symm.trans h
    cases herr
  · cases (exec_compress_ok hcodes hlen hfit).symm.trans h
    exact ⟨c, {
      codes := hcodes
      codeLen := compress_codeLen_ne_zero hcodes
      idle := rfl
      cfg := rfl
      bitLen := Nat.mod_eq_of_lt (by omega)
      outLen := Nat.mod_eq_of_lt (by unfold ceil8; omega)
      payload := Memory.holdsPayload_writeBytes _ _
      fits := hfit }⟩

/-- DECOMPRESS of the codes of bytes that fit OUT, made from FREQ as it stands, gives the bytes back (R206, R193). -/
theorem exec_decompress_streamOf {u : State} {c : CodeTable} {bs : List Byte}
    (hcodes : codesOf (treeOf u.freq) = some c) (hin : u.inLen.toNat ≤ u.cfg.inBytes)
    (hlen : u.bitLen.toNat ≤ 8 * u.inLen.toNat) (hstream : u.inBuf.stream u.bitLen.toNat = c.streamOf bs)
    (hcode : ∀ b ∈ bs, SymTable.at c.len b ≠ 0#8) (hfit : bs.length ≤ u.cfg.outBytes) :
    ∃ w, exec .decompress u = .next w ∧ w.status.busy = false ∧ w.status.err = false ∧ w.status.trunc = false ∧
      w.outLen = BitVec.ofNat 32 bs.length ∧ w.outBuf.HoldsBytes u.outBuf bs := by
  obtain ⟨w, hdone, htrunc, hout, hholds⟩ := decodeBody_streamOf (f := u.freq)
    (u := { u.setTree (treeOf u.freq) with status := u.status.treeBuilt }) rfl rfl hcodes hin hlen hstream hcode hfit
  exact ⟨w.complete, congrArg Phase.finish hdone, rfl, rfl, htrunc, hout, hholds⟩

/-- Settles O31: after MOVEOUT, IN holds the payload of the input's codes, and FREQ, which DECOMPRESS builds its tree
from, is still the input's count. -/
theorem decompressUndoesCompress : Obligations.DecompressUndoesCompress := by
  intro s t hwf hcompress herr hfit hin
  obtain ⟨c, hcodes, hcode, hidle, hcfg, hbitLen, houtLen, hpayload, hfits⟩ := exec_compress_success hwf hcompress herr
  obtain ⟨r, hmove⟩ := runsTo_moveOut (s := t) (hcfg ▸ hwf) hidle (by rwa [houtLen, hcfg]) (by rwa [hcfg])
  have hcmd := (State.writeLeaves_cmd (s := t.movedOut r) hidle 0x00000008#32).runsTo
  have hstream : (t.movedOut r).inBuf.stream t.bitLen.toNat = c.streamOf s.inputBytes := by
    rw [hbitLen]
    exact hpayload.stream_eq fun i hi => t.movedOut_read r (by rwa [houtLen])
  obtain ⟨w, hexec, hbusy, hok, htrunc, hcount, hbytes, -⟩ := exec_decompress_streamOf
    (u := { (t.movedOut r).accept 0x00000008#32 with inputs := [] }) hcodes (by rwa [← hcfg] at hin)
    (le_of_eq_of_le hbitLen (houtLen ▸ le_eight_mul_ceil8 _)) hstream hcode
    ((State.inputBytes_length s).trans_le (hcfg ▸ hfit))
  have hstep : step { (t.movedOut r).accept 0x00000008#32 with inputs := [.core] } = .next w :=
    (step_core rfl []).trans ((coreStep_of_decodeCmd_ok (decodeCmd_of_encode rfl)).trans hexec)
  have hrun := (hmove.append hcmd) 1 [.core]
  rw [core_run_succ hstep, List.length_append, List.append_assoc] at hrun
  refine ⟨w, hrun, hbusy, hok, htrunc, ?_, fun i hi => ?_⟩
  · rw [hcount, State.inputBytes_length, BitVec.ofNat_toNat, BitVec.setWidth_eq]
  · rw [hbytes i (by rwa [State.inputBytes_length])]
    simp [State.inputBytes]

end Sys2Proof.Machine
end
